-- ==== Sys2Proof/Word.lean ====
section
/-! DEFINITION. The word types of the engine's storage (spec/00_scope.md R7, R11: every stored quantity is
unsigned), and the two integer operations of R8 that Lean's own library does not name. -/

namespace Sys2Proof

/-- A register, a command word or a bus value: 32 bits (00_scope R6, 10_state R22). -/
abbrev Word := BitVec 32

/-- One element of IN or OUT (10_state R41, R42). -/
abbrev Byte := BitVec 8

/-- One element of COMP (10_state R40). -/
abbrev Elem := BitVec 16

/-- `ceil(a / b)` for `b ≥ 1` (00_scope R8). -/
def ceilDiv (a b : Nat) : Nat := (a + b - 1) / b

/-- `clamp255(x) = min(255, max(0, x))` (00_scope R8), as the natural number it is. -/
def clamp255 (x : Int) : Nat := (min 255 (max 0 x)).toNat

end Sys2Proof
end

