-- ==== Sys2Proof/Syntax.lean ====
section
/-! DEFINITION. The names the spec gives: the five commands (30_encoding R91), the descriptor's tags (R96, R98, R99),
the dispatcher's codecs and the families (R103–R105), the registers (10_state R23), and the host's actions
(20_memory R66, 30_encoding R107). -/

namespace Sys2Proof

/-- The commands, one per row of spec/opcode_table.json. A command carries no operand: every operand is a register
(30_encoding R90, R93). -/
inductive Instr
  | decode
  | render
  | rawColor
  | cropToRaw
  | pixelComponents
  deriving DecidableEq, Repr

/-- `endianness` (30_encoding R99). -/
inductive Endian
  | little
  | big
  deriving DecidableEq, Repr

/-- `plane_layout` (30_encoding R98). -/
inductive Layout
  | packed
  | planar
  | semiplanar
  deriving DecidableEq, Repr

/-- The six RGB orders (30_encoding R96, codes 0 to 5). -/
inductive RgbOrder
  | rgb
  | bgr
  | rgba
  | bgra
  | argb
  | abgr
  deriving DecidableEq, Repr

/-- The four packed 4:2:2 orders (30_encoding R96, codes 8 to 11). -/
inductive PackedOrder
  | yuyv
  | uyvy
  | yvyu
  | vyuy
  deriving DecidableEq, Repr

/-- The two plane orders, U before V and V before U (30_encoding R96, codes 12 and 13). -/
inductive PlaneOrder
  | yuv
  | yvu
  deriving DecidableEq, Repr

/-- The four colour-filter patterns (30_encoding R96, codes 20 to 23). -/
inductive BayerOrder
  | rggb
  | bggr
  | gbrg
  | grbg
  deriving DecidableEq, Repr

/-- `component_order`: the codes of 30_encoding R96 that are not reserved. -/
inductive Order
  | rgb (o : RgbOrder)
  | packedYuv (o : PackedOrder)
  | planeYuv (o : PlaneOrder)
  | mono
  | bayer (o : BayerOrder)
  deriving DecidableEq, Repr

/-- The codec a `(LAYOUT, ORDER)` pair selects: the rows of 30_encoding R104, each with the order it was selected by. -/
inductive Codec
  | rgb (o : RgbOrder)
  | yuvPacked (o : PackedOrder)
  | yuvSemi (o : PlaneOrder)
  | yuvPlanar (o : PlaneOrder)
  | gray
  | bayer (o : BayerOrder)
  deriving DecidableEq, Repr

/-- The four YUV families (30_encoding R105) with their order. -/
inductive YuvFamily
  | packed422 (o : PackedOrder)
  | semi420 (o : PlaneOrder)
  | planar420 (o : PlaneOrder)
  | planar422 (o : PlaneOrder)
  deriving DecidableEq, Repr

/-- The seven families (30_encoding R103) with their order, so that a family and an order it does not serve cannot
be paired. -/
inductive Family
  | rgb (o : RgbOrder)
  | yuv (y : YuvFamily)
  | gray
  | bayer (o : BayerOrder)
  deriving DecidableEq, Repr

/-- A colour channel (44_bayer R261). -/
inductive Channel
  | r
  | g
  | b
  deriving DecidableEq, Repr

/-- The registers of 10_state R23. -/
inductive Reg
  | ctrl
  | status
  | command
  | fmt
  | bpc
  | sub
  | pal0
  | pal1
  | pal2
  | pal3
  | width
  | inLen
  | decOpts
  | reverseGroup
  | chMask
  | frameHeight
  | row0
  | row1
  | col0
  | col1
  | pixRow
  | pixCol
  | imgWidth
  | imgHeight
  | imgLen
  | imgFamily
  | outLen
  | frameCount
  | frameRows
  | pixCount
  | pixVal0
  | pixVal1
  | pixVal2
  | pixVal3
  deriving DecidableEq, Repr

/-- What the outside does to the engine, one action at a time. `read addr n` is MemRead and `write addr n v` is MemWrite
(20_memory R66) at the host-bus address `addr`; `wait` is the polling loop WAIT (30_encoding R107); `hardwareReset` is
the reset of 70_reset R330. -/
inductive HostAct
  | read (addr n : Nat)
  | write (addr n : Nat) (v : Word)
  | wait
  | hardwareReset
  deriving DecidableEq, Repr

/-- A statement of the host assembler (30_encoding R106) or one of its pseudo-instructions (R107). -/
inductive HostStmt
  | wr (r : Reg) (v : Word)
  | rd (r : Reg)
  | wrb (i : Nat) (b : Byte)
  | wrw (i : Nat) (w : Word)
  | rdb (i : Nat)
  | rdw (i : Nat)
  | rdc (i : Nat)
  | cmd (i : Instr)
  | wait
  | load (i : Nat) (bs : List Byte)
  | clr
  | srst
  deriving DecidableEq, Repr

end Sys2Proof
end

