-- ==== Sys2Proof/Config.lean ====
section
/-! DEFINITION. What an implementation fixes (spec/00_scope.md R6, 93 U19–U21) and the free values of 93's "draw" and
"race" treatments. A free value is an opaque constant: nothing can evaluate it, so what is proved holds for every draw. -/

namespace Sys2Proof

/-- The value of an IN byte the host has not written, one draw per byte made at the hardware reset numbered by the first
argument (93 U1, U3; log 2). -/
opaque Config.freeInByte : Nat → Nat → Byte

/-- The value of a COMP element no command has written since the draws numbered by the first argument were made, at a
hardware reset or at a DECODE's completion (93 U2, U3; log 3). -/
opaque Config.freeCompElem : Nat → Nat → Elem

/-- The value of an OUT byte no command has written since the draws numbered by the first argument were made (93 U2, U3;
log 3). -/
opaque Config.freeOutByte : Nat → Nat → Byte

/-- What a host read of a result returns while BUSY = 1, a fresh draw per read (93 U4; log 4). -/
opaque Config.freeBusRead : Nat → Word

/-- How many host steps come at most before an accepted command completes (70_reset R350, R351; 93 U17, U18; log 5). -/
opaque Config.freeLatency : Nat → Nat

/-- A colour conversion of which nothing is known but its type (00_scope R6, 93 U19; log 10). -/
opaque Config.freeCsc : Byte → Byte → Byte → Byte × Byte × Byte

/-- Interpolated colours of which nothing is known: for an order, a mosaic, its height and width, and a position
(44_bayer R265, 93 U20; log 11). -/
opaque Config.freeDemosaic : BayerOrder → List Byte → Nat → Nat → Nat → Nat → Byte × Byte × Byte

/-- The CSC parameter: the reference `CSC_BT601` (43_yuv R236) or any total function (00_scope R6). -/
inductive CscChoice
  | reference
  | platform
  deriving DecidableEq, Repr

/-- The DEMOSAIC parameter: the reference `DEMOSAIC_BILINEAR` (44_bayer R268) or any function with R265's properties. -/
inductive DemosaicChoice
  | reference
  | platform
  deriving DecidableEq, Repr

/-- The implementation parameters of 00_scope R6. They are held in `State.impl` as plain data, so that a statement about
every state is a statement about every implementation; no step changes them (log 1). -/
structure Impl where
  base : Nat
  inMemBytes : Nat
  compMemWords : Nat
  outMemBytes : Nat
  csc : CscChoice
  demosaic : DemosaicChoice
  deriving DecidableEq, Repr

/-- The sizes are in the ranges of 00_scope R6. -/
abbrev Impl.wf (p : Impl) : Prop :=
  (1 ≤ p.inMemBytes ∧ p.inMemBytes ≤ 2 ^ 28) ∧ (1 ≤ p.compMemWords ∧ p.compMemWords ≤ 2 ^ 26) ∧
    (1 ≤ p.outMemBytes ∧ p.outMemBytes ≤ 2 ^ 28)

/-- The sizes R6 suggests and its two defaults. BASE has no suggestion: 0. DESIGN CHOICE (log 1, 14). -/
def Impl.suggested : Impl where
  base := 0
  inMemBytes := 2 ^ 24
  compMemWords := 2 ^ 24
  outMemBytes := 2 ^ 26
  csc := .reference
  demosaic := .reference

end Sys2Proof
end

