-- ==== Sys2Proof/WellFormed.lean ====
section
/-! DEFINITION. The checks on what is written down: a command word (30_encoding R90–R92), a command, and a
statement of the host assembler (R106). -/

namespace Sys2Proof

/-- A command word some command has: RSVD is 0 and OPCODE is one of R91's five (30_encoding R90, R91, R92). -/
def commandWordWf (w : Word) : Bool :=
  w.extractLsb' 8 24 == 0 && decide (1 ≤ (w.extractLsb' 0 8).toNat ∧ (w.extractLsb' 0 8).toNat ≤ 5)

/-- A command carries no operand (30_encoding R90, R93), so each of the five is well formed. -/
def Instr.wf : Instr → Bool
  | .decode => true
  | .render => true
  | .rawColor => true
  | .cropToRaw => true
  | .pixelComponents => true

/-- A 32-bit IN or OUT statement names an index that is a multiple of 4 (30_encoding R106). -/
def HostStmt.wf : HostStmt → Bool
  | .wrw i _ => i % 4 == 0
  | .rdw i => i % 4 == 0
  | .wr _ _ | .rd _ | .wrb _ _ | .rdb _ | .rdc _ | .cmd _ | .wait | .load _ _ | .clr | .srst => true

end Sys2Proof
end

