-- ==== Sys2Proof/Decode.lean ====
section
/-! DEFINITION. The decoder of command words and of the descriptor's tags, then the encoders, from the tables of
spec/30_encoding.md (R90, R91, R96, R98, R99, R103, R104). -/

namespace Sys2Proof

/-- The command a word selects; every word outside R91's table selects none (30_encoding R91, R92). The whole word is
decoded: OPCODE is bits [7:0] and RSVD, bits [31:8], must be 0 (R90). -/
def decode (w : Word) : Option Instr :=
  if w.extractLsb' 8 24 = 0 then
    match (w.extractLsb' 0 8).toNat with
    | 1 => some .decode
    | 2 => some .render
    | 3 => some .rawColor
    | 4 => some .cropToRaw
    | 5 => some .pixelComponents
    | _ => none
  else none

/-- OPCODE of a command (30_encoding R91). -/
def Instr.opcode : Instr → Byte
  | .decode => 0x01
  | .render => 0x02
  | .rawColor => 0x03
  | .cropToRaw => 0x04
  | .pixelComponents => 0x05

/-- The command word: OPCODE with RSVD = 0 (30_encoding R90). -/
def encode (i : Instr) : Word := i.opcode.setWidth 32

/-- The command read from a word numbered as spec/opcode_table.json numbers it. A command is one 32-bit word written to
COMMAND, so no byte order is involved (30_encoding R90, R94); a number that needs more bits is no command word. -/
def decodeTableWord (nbits w : Nat) : Option Instr :=
  if w % 2 ^ nbits < 2 ^ 32 then decode (BitVec.ofNat 32 (w % 2 ^ nbits)) else none

/-- FMT.ORDER (30_encoding R96); the reserved codes have no order. -/
def orderOfCode (code : Nat) : Option Order :=
  match code with
  | 0 => some (.rgb .rgb)
  | 1 => some (.rgb .bgr)
  | 2 => some (.rgb .rgba)
  | 3 => some (.rgb .bgra)
  | 4 => some (.rgb .argb)
  | 5 => some (.rgb .abgr)
  | 8 => some (.packedYuv .yuyv)
  | 9 => some (.packedYuv .uyvy)
  | 10 => some (.packedYuv .yvyu)
  | 11 => some (.packedYuv .vyuy)
  | 12 => some (.planeYuv .yuv)
  | 13 => some (.planeYuv .yvu)
  | 16 => some .mono
  | 20 => some (.bayer .rggb)
  | 21 => some (.bayer .bggr)
  | 22 => some (.bayer .gbrg)
  | 23 => some (.bayer .grbg)
  | _ => none

/-- FMT.LAYOUT (30_encoding R98); 3 is reserved. -/
def layoutOfCode (code : Nat) : Option Layout :=
  match code with
  | 0 => some .packed
  | 1 => some .planar
  | 2 => some .semiplanar
  | _ => none

/-- FMT.ENDIAN (30_encoding R99). -/
def endianOf (bit : Bool) : Endian := if bit then .big else .little

/-- The dispatcher: a table lookup keyed by `(LAYOUT, ORDER)`; a pair outside the table is a miss (30_encoding R104). -/
def dispatch (layout order : Nat) : Option Codec :=
  match layoutOfCode layout, orderOfCode order with
  | some .packed, some (.rgb o) => some (.rgb o)
  | some .packed, some (.packedYuv o) => some (.yuvPacked o)
  | some .semiplanar, some (.planeYuv o) => some (.yuvSemi o)
  | some .planar, some (.planeYuv o) => some (.yuvPlanar o)
  | some .packed, some .mono => some .gray
  | some .packed, some (.bayer o) => some (.bayer o)
  | _, _ => none

/-- The code of an order (30_encoding R96). -/
def Order.code : Order → Nat
  | .rgb .rgb => 0
  | .rgb .bgr => 1
  | .rgb .rgba => 2
  | .rgb .bgra => 3
  | .rgb .argb => 4
  | .rgb .abgr => 5
  | .packedYuv .yuyv => 8
  | .packedYuv .uyvy => 9
  | .packedYuv .yvyu => 10
  | .packedYuv .vyuy => 11
  | .planeYuv .yuv => 12
  | .planeYuv .yvu => 13
  | .mono => 16
  | .bayer .rggb => 20
  | .bayer .bggr => 21
  | .bayer .gbrg => 22
  | .bayer .grbg => 23

/-- The code of a layout (30_encoding R98). -/
def Layout.code : Layout → Nat
  | .packed => 0
  | .planar => 1
  | .semiplanar => 2

/-- The order a family was decoded with: IMG.D.ORDER (10_state R45). -/
def Family.order : Family → Order
  | .rgb o => .rgb o
  | .yuv (.packed422 o) => .packedYuv o
  | .yuv (.semi420 o) => .planeYuv o
  | .yuv (.planar420 o) => .planeYuv o
  | .yuv (.planar422 o) => .planeYuv o
  | .gray => .mono
  | .bayer o => .bayer o

/-- The layout a family was decoded with: IMG.D.LAYOUT (10_state R45). -/
def Family.layout : Family → Layout
  | .rgb _ => .packed
  | .yuv (.packed422 _) => .packed
  | .yuv (.semi420 _) => .semiplanar
  | .yuv (.planar420 _) => .planar
  | .yuv (.planar422 _) => .planar
  | .gray => .packed
  | .bayer _ => .packed

/-- The codec that serves a family (30_encoding R104, R105). -/
def Family.codec : Family → Codec
  | .rgb o => .rgb o
  | .yuv (.packed422 o) => .yuvPacked o
  | .yuv (.semi420 o) => .yuvSemi o
  | .yuv (.planar420 o) => .yuvPlanar o
  | .yuv (.planar422 o) => .yuvPlanar o
  | .gray => .gray
  | .bayer o => .bayer o

/-- IMG_FAMILY.FAMILY of a latched image (30_encoding R103); 0 is "no image". -/
def Family.code : Family → Nat
  | .rgb _ => 1
  | .yuv (.packed422 _) => 2
  | .yuv (.semi420 _) => 3
  | .yuv (.planar420 _) => 4
  | .yuv (.planar422 _) => 5
  | .gray => 6
  | .bayer _ => 7

/-- `FamilyOf(codec, SUB)` (30_encoding R104, R105 (3)): the subsampling pair selects the YUV family; a pair the codec
has no family for gives none. The other codecs have one family whatever the pair (R100). -/
def familyOf (c : Codec) (subH subV : Nat) : Option Family :=
  match c with
  | .rgb o => some (.rgb o)
  | .gray => some .gray
  | .bayer o => some (.bayer o)
  | .yuvPacked o => if subH = 2 ∧ subV = 1 then some (.yuv (.packed422 o)) else none
  | .yuvSemi o => if subH = 2 ∧ subV = 2 then some (.yuv (.semi420 o)) else none
  | .yuvPlanar o =>
    if subH = 2 ∧ subV = 2 then some (.yuv (.planar420 o))
    else if subH = 2 ∧ subV = 1 then some (.yuv (.planar422 o))
    else none

end Sys2Proof
end

