-- ==== Sys2Proof/Machine/State.lean ====
section
/-! DEFINITION. The state of the engine as spec/10_state.md gives it, plain data, with the model's own fields marked as
such; the reasons a step can stop; the state after hardware reset (70_reset R330). -/

namespace Sys2Proof.Machine

/-- The reasons the machine stops with a fault: none. No behaviour of this engine hangs (93: "stuck: no entry uses it";
70_reset R351), and an engine fault of 60_exceptions R300 is a next state, not a stop. Nobody raises it; safe (log 20). -/
inductive Fault
  deriving DecidableEq, Repr

/-- The reasons a step has no meaning. -/
inductive Refusal
  /-- Raised by `exec` for a command without a meaning; no command is one. Safe. -/
  | notModelled (mnemonic : String)
  /-- Raised by a host access at an address in no region of the aperture (20_memory R61, R65). Safe. -/
  | unmappedAccess
  /-- Raised by a host access at a memory offset at or beyond the memory's size (20_memory R65). Safe. -/
  | accessBeyondMemory
  /-- Raised by a host access of a width the region does not list (20_memory R61, R65). Safe. -/
  | accessWidth
  /-- Raised by a 32-bit host access whose offset is not a multiple of 4 (20_memory R65, R68). Safe. -/
  | misalignedAccess
  deriving DecidableEq, Repr

/-- The engine's fault codes (60_exceptions R300). -/
inductive FaultCode
  | unsupportedFormat
  | invalidPixelFormat
  | notDecoded
  | invalidChannelMask
  | invalidGeometry
  | illegalCommand
  | capacityExceeded
  deriving DecidableEq, Repr

/-- One memory of the engine: its written cells, addresses strictly rising, and the number of the draws that every other
cell reads as (93 U1–U3). An unlisted cell holds no value of its own: it reads as a free value (log 2, 3, 16). -/
structure Memory (w : Nat) where
  cells : List (Nat × BitVec w)
  epoch : Nat
  deriving DecidableEq, Repr

/-- Addresses strictly rising from `lo` and below `size`. -/
def risingBelow {w : Nat} (size : Nat) : Nat → List (Nat × BitVec w) → Bool
  | _, [] => true
  | lo, (a, _) :: rest => decide (lo ≤ a) && decide (a < size) && risingBelow size (a + 1) rest

/-- The canonical form of a memory of `size` cells (log 16). -/
def Memory.wf {w : Nat} (m : Memory w) (size : Nat) : Bool := risingBelow size 0 m.cells

/-- The operand registers of 10_state R23, each as it is read: the bits of no field are 0 (R22). -/
structure Regs where
  fmt : Word
  bpc : Word
  sub : Word
  pal0 : Word
  pal1 : Word
  pal2 : Word
  pal3 : Word
  width : Word
  inLen : Word
  decOpts : Word
  reverseGroup : Word
  chMask : Word
  frameHeight : Word
  row0 : Word
  row1 : Word
  col0 : Word
  col1 : Word
  pixRow : Word
  pixCol : Word
  deriving DecidableEq, Repr

/-- The fields of STATUS that are stored (10_state R25). BUSY is `pending` (R46) and IMG_VALID is `img` (R45). -/
structure Status where
  done : Bool
  err : Bool
  none : Bool
  wwb : Bool
  errcode : BitVec 4
  deriving DecidableEq, Repr

/-- The result registers (10_state R44). -/
structure Results where
  outLen : Word
  frameCount : Word
  frameRows : Word
  pixCount : BitVec 3
  pixVal0 : Elem
  pixVal1 : Elem
  pixVal2 : Elem
  pixVal3 : Elem
  deriving DecidableEq, Repr

/-- A tint of the display palette (10_state R31). -/
structure Tint where
  r : Nat
  g : Nat
  b : Nat
  deriving DecidableEq, Repr

/-- The descriptor of 30_encoding R95 but for ORDER and LAYOUT, its fields as the numbers they hold (00_scope R7). -/
structure Descriptor where
  endian : Endian
  subbyte : Bool
  palEn : Bool
  shift : Nat
  bpc0 : Nat
  bpc1 : Nat
  bpc2 : Nat
  bpc3 : Nat
  subH : Nat
  subV : Nat
  pal0 : Tint
  pal1 : Tint
  pal2 : Tint
  pal3 : Tint
  deriving DecidableEq, Repr

/-- The latched image IMG (10_state R45), without its COMP contents. `desc.endian` is the effective byte order, and
`family` holds IMG.family with IMG.D's ORDER and LAYOUT (log 17). -/
structure Image where
  desc : Descriptor
  family : Family
  subbyte : Bool
  w : Nat
  h : Nat
  l : Nat
  deriving DecidableEq, Repr

/-- The state. The fields down to `out` are the spec's; the last five are the model's own (INVENTORY.md, State). -/
structure State where
  /-- The operand registers (10_state R23). -/
  regs : Regs
  /-- STATUS (10_state R25). -/
  status : Status
  /-- The result registers (10_state R44). -/
  results : Results
  /-- PENDING (10_state R46): the accepted command word not yet completed. -/
  pending : Option Word
  /-- The latched image (10_state R45); none is IMG.valid = 0. -/
  img : Option Image
  /-- IN (10_state R41). -/
  inMem : Memory 8
  /-- COMP (10_state R40). -/
  comp : Memory 16
  /-- OUT (10_state R42). -/
  out : Memory 8
  /-- The model's own: how many free values were drawn (log 6). -/
  draws : Nat
  /-- The model's own: host steps that may still precede the pending command's completion (70_reset R350; log 5). -/
  latency : Nat
  /-- The model's own: the host's actions not yet performed, next first (log 7). -/
  host : List HostAct
  /-- The model's own: the values MemRead returned to the host, newest first (20_memory R66; log 8). -/
  reads : List Word
  /-- The model's own: the implementation parameters (00_scope R6; log 1). -/
  impl : Impl
  deriving DecidableEq, Repr

/-- What a command evaluates to when it raises no fault: all its writes, made at once (40_commands R120). -/
structure Effects where
  /-- DECODE's commit: the latched image and COMP's elements from index 0 (40_commands R123). -/
  decoded : Option (Image × List Elem)
  /-- The bytes written to OUT from offset 0; none leaves OUT as it is. -/
  outBytes : Option (List Byte)
  /-- The result registers after the command. -/
  results : Results
  /-- STATUS.NONE after the command. -/
  none : Bool
  deriving DecidableEq, Repr

/-- The reset values of the operand registers (10_state R23, 70_reset R330). -/
def Regs.reset : Regs where
  fmt := 0
  bpc := 0
  sub := 0x00000101
  pal0 := 0
  pal1 := 0
  pal2 := 0
  pal3 := 0
  width := 0
  inLen := 0
  decOpts := 0
  reverseGroup := 0
  chMask := 0x0000000F
  frameHeight := 0
  row0 := 0
  row1 := 0
  col0 := 0
  col1 := 0
  pixRow := 0
  pixCol := 0

/-- STATUS = 0 (70_reset R330). -/
def Status.reset : Status where
  done := false
  err := false
  none := false
  wwb := false
  errcode := 0

/-- Every result register is 0 (10_state R23, 70_reset R330). -/
def Results.reset : Results where
  outLen := 0
  frameCount := 0
  frameRows := 0
  pixCount := 0
  pixVal0 := 0
  pixVal1 := 0
  pixVal2 := 0
  pixVal3 := 0

/-- The state right after hardware reset (70_reset R330, R331, R333): the registers at their reset values, PENDING empty,
no image, no cell of a memory written. The model's own fields are DESIGN CHOICES (log 1, 5, 6, 7, 8). -/
def State.reset : State where
  regs := .reset
  status := .reset
  results := .reset
  pending := none
  img := none
  inMem := { cells := [], epoch := 0 }
  comp := { cells := [], epoch := 0 }
  out := { cells := [], epoch := 0 }
  draws := 1
  latency := 0
  host := []
  reads := []
  impl := .suggested

end Sys2Proof.Machine
end

