-- ==== Sys2Proof/Machine/Flags.lean ====
section
/-! DEFINITION. The STATUS register: how its fields are read as one word, and everything that writes them
(spec/10_state.md R25, R26, R47; 60_exceptions R300, R303). The engine has no arithmetic flags (R47). -/

namespace Sys2Proof.Machine

/-- The fault's code (60_exceptions R300). -/
def FaultCode.code : FaultCode → BitVec 4
  | .unsupportedFormat => 1
  | .invalidPixelFormat => 2
  | .notDecoded => 3
  | .invalidChannelMask => 4
  | .invalidGeometry => 5
  | .illegalCommand => 6
  | .capacityExceeded => 7

/-- STATUS.BUSY: 1 exactly when PENDING is non-empty (10_state R46). -/
def State.busy (s : State) : Bool := s.pending.isSome

/-- STATUS.IMG_VALID: 1 when a latched image exists (10_state R25, R45). -/
def State.imgValid (s : State) : Bool := s.img.isSome

/-- STATUS as it is read (10_state R23, R25): ERRCODE [11:8], WWB [5], IMG_VALID [4], NONE [3], ERR [2], DONE [1],
BUSY [0]; the reserved bits read 0. -/
def Status.word (f : Status) (busy imgValid : Bool) : Word :=
  0#20 ++ f.errcode ++ 0#2 ++ BitVec.ofBool f.wwb ++ BitVec.ofBool imgValid ++ BitVec.ofBool f.none ++
    BitVec.ofBool f.err ++ BitVec.ofBool f.done ++ BitVec.ofBool busy

/-- STATUS of a state. -/
def statusWord (s : State) : Word := s.status.word s.busy s.imgValid

/-- A host write of `v` to STATUS (10_state R26): bit 1 clears DONE, bit 2 clears ERR and ERRCODE, bit 5 clears WWB. -/
def Status.writeOneToClear (f : Status) (v : Word) : Status :=
  { f with
    done := f.done && !v.getLsbD 1
    err := f.err && !v.getLsbD 2
    errcode := if v.getLsbD 2 then 0 else f.errcode
    wwb := f.wwb && !v.getLsbD 5 }

/-- The flags an accepted COMMAND write clears: DONE, ERR and ERRCODE (40_commands R120). -/
def Status.onAccept (f : Status) : Status := { f with done := false, err := false, errcode := 0 }

/-- A completion without a fault (40_commands R120): DONE <- 1 and NONE is written. -/
def Status.onSuccess (f : Status) (none : Bool) : Status := { f with done := true, none := none }

/-- Fault entry (60_exceptions R303): ERR <- 1, ERRCODE <- code, NONE <- 0. DONE is not written. -/
def Status.onFault (f : Status) (c : FaultCode) : Status := { f with err := true, errcode := c.code, none := false }

/-- A write while busy (70_reset R341): WWB <- 1. -/
def Status.onBusyWrite (f : Status) : Status := { f with wwb := true }

end Sys2Proof.Machine
end

