-- ==== Sys2Proof/Machine/Operands.lean ====
section
/-! DEFINITION. The registers as operands (spec/10_state.md R22–R44, 30_encoding R93, R95): their offsets, the bits their
fields occupy, reading and storing one, and the fields a command reads. -/

namespace Sys2Proof

/-- `off(REG)`: the register's aperture offset (10_state R23). -/
def Reg.offset : Reg → Nat
  | .ctrl => 0x000
  | .status => 0x004
  | .command => 0x008
  | .fmt => 0x010
  | .bpc => 0x014
  | .sub => 0x018
  | .pal0 => 0x020
  | .pal1 => 0x024
  | .pal2 => 0x028
  | .pal3 => 0x02C
  | .width => 0x030
  | .inLen => 0x034
  | .decOpts => 0x038
  | .reverseGroup => 0x03C
  | .chMask => 0x040
  | .frameHeight => 0x044
  | .row0 => 0x048
  | .row1 => 0x04C
  | .col0 => 0x050
  | .col1 => 0x054
  | .pixRow => 0x058
  | .pixCol => 0x05C
  | .imgWidth => 0x080
  | .imgHeight => 0x084
  | .imgLen => 0x088
  | .imgFamily => 0x08C
  | .outLen => 0x090
  | .frameCount => 0x094
  | .frameRows => 0x098
  | .pixCount => 0x09C
  | .pixVal0 => 0x0A0
  | .pixVal1 => 0x0A4
  | .pixVal2 => 0x0A8
  | .pixVal3 => 0x0AC

/-- The registers of 10_state R23, in the order of their offsets. -/
def Reg.all : List Reg :=
  [.ctrl, .status, .command, .fmt, .bpc, .sub, .pal0, .pal1, .pal2, .pal3, .width, .inLen, .decOpts, .reverseGroup] ++
    [.chMask, .frameHeight, .row0, .row1, .col0, .col1, .pixRow, .pixCol, .imgWidth, .imgHeight, .imgLen, .imgFamily] ++
    [.outLen, .frameCount, .frameRows, .pixCount, .pixVal0, .pixVal1, .pixVal2, .pixVal3]

/-- The register at an offset of the register space; none is a reserved offset (10_state R22). -/
def regAt (off : Nat) : Option Reg := Reg.all.find? (fun r => r.offset == off)

/-- The bits of a read-write register that belong to a field (10_state R23); the others are reserved (R22). -/
def Reg.fieldMask : Reg → Word
  | .fmt => 0x000F731F
  | .bpc => 0x1F1F1F1F
  | .sub => 0x00000F0F
  | .pal0 => 0x00FFFFFF
  | .pal1 => 0x00FFFFFF
  | .pal2 => 0x00FFFFFF
  | .pal3 => 0x00FFFFFF
  | .decOpts => 0x00000003
  | .chMask => 0x0000000F
  | _ => 0xFFFFFFFF

/-- The registers whose reads are unspecified while BUSY = 1 (70_reset R342). -/
def Reg.isResult : Reg → Bool
  | .imgWidth | .imgHeight | .imgLen | .imgFamily => true
  | .outLen | .frameCount | .frameRows | .pixCount => true
  | .pixVal0 | .pixVal1 | .pixVal2 | .pixVal3 => true
  | _ => false

end Sys2Proof

namespace Sys2Proof.Machine

/-- Store into a read-write register: the bits of its fields take the value written, a reserved bit stays 0 (10_state R22).
The other registers store nothing here: CTRL, STATUS and COMMAND have effects of their own, and the read-only ones ignore
a write (R23). -/
def Regs.store (g : Regs) (r : Reg) (v : Word) : Regs :=
  match r with
  | .fmt => { g with fmt := v &&& r.fieldMask }
  | .bpc => { g with bpc := v &&& r.fieldMask }
  | .sub => { g with sub := v &&& r.fieldMask }
  | .pal0 => { g with pal0 := v &&& r.fieldMask }
  | .pal1 => { g with pal1 := v &&& r.fieldMask }
  | .pal2 => { g with pal2 := v &&& r.fieldMask }
  | .pal3 => { g with pal3 := v &&& r.fieldMask }
  | .width => { g with width := v }
  | .inLen => { g with inLen := v }
  | .decOpts => { g with decOpts := v &&& r.fieldMask }
  | .reverseGroup => { g with reverseGroup := v }
  | .chMask => { g with chMask := v &&& r.fieldMask }
  | .frameHeight => { g with frameHeight := v }
  | .row0 => { g with row0 := v }
  | .row1 => { g with row1 := v }
  | .col0 => { g with col0 := v }
  | .col1 => { g with col1 := v }
  | .pixRow => { g with pixRow := v }
  | .pixCol => { g with pixCol := v }
  | .ctrl | .status | .command => g
  | .imgWidth | .imgHeight | .imgLen | .imgFamily => g
  | .outLen | .frameCount | .frameRows | .pixCount => g
  | .pixVal0 | .pixVal1 | .pixVal2 | .pixVal3 => g

/-- IMG_FAMILY: FAMILY [2:0] and SUBBYTE_PATH [8], 0 when there is no image (10_state R43). -/
def imgFamilyWord (img : Option Image) : Word :=
  match img with
  | none => 0
  | some i => BitVec.ofNat 32 (i.family.code + if i.subbyte then 2 ^ 8 else 0)

/-- The value a register reads as while no command is pending (10_state R23–R44): CTRL and COMMAND read 0, STATUS is
packed from its fields, IMG_* show the latched image and are 0 without one (R43), the rest is what is stored. -/
def readReg (s : State) : Reg → Word
  | .ctrl => 0
  | .status => statusWord s
  | .command => 0
  | .fmt => s.regs.fmt
  | .bpc => s.regs.bpc
  | .sub => s.regs.sub
  | .pal0 => s.regs.pal0
  | .pal1 => s.regs.pal1
  | .pal2 => s.regs.pal2
  | .pal3 => s.regs.pal3
  | .width => s.regs.width
  | .inLen => s.regs.inLen
  | .decOpts => s.regs.decOpts
  | .reverseGroup => s.regs.reverseGroup
  | .chMask => s.regs.chMask
  | .frameHeight => s.regs.frameHeight
  | .row0 => s.regs.row0
  | .row1 => s.regs.row1
  | .col0 => s.regs.col0
  | .col1 => s.regs.col1
  | .pixRow => s.regs.pixRow
  | .pixCol => s.regs.pixCol
  | .imgWidth => BitVec.ofNat 32 ((s.img.map Image.w).getD 0)
  | .imgHeight => BitVec.ofNat 32 ((s.img.map Image.h).getD 0)
  | .imgLen => BitVec.ofNat 32 ((s.img.map Image.l).getD 0)
  | .imgFamily => imgFamilyWord s.img
  | .outLen => s.results.outLen
  | .frameCount => s.results.frameCount
  | .frameRows => s.results.frameRows
  | .pixCount => s.results.pixCount.setWidth 32
  | .pixVal0 => s.results.pixVal0.setWidth 32
  | .pixVal1 => s.results.pixVal1.setWidth 32
  | .pixVal2 => s.results.pixVal2.setWidth 32
  | .pixVal3 => s.results.pixVal3.setWidth 32

/-- `v[hi:lo]` as a number, for the `len` bits from `lo` up (00_scope R7). -/
def field (v : Word) (lo len : Nat) : Nat := (v.extractLsb' lo len).toNat

/-- FMT.ORDER (10_state R28). -/
def Regs.order (g : Regs) : Nat := field g.fmt 0 5

/-- FMT.LAYOUT (10_state R28). -/
def Regs.layout (g : Regs) : Nat := field g.fmt 8 2

/-- DEC_OPTS.ENDIAN_SEL (10_state R34). -/
def Regs.endianSel (g : Regs) : Nat := field g.decOpts 0 2

/-- CH_MASK.MASK, flag `i` (10_state R36). -/
def Regs.maskBit (g : Regs) (i : Nat) : Bool := g.chMask.getLsbD i

/-- A PAL register as a tint: R [7:0], G [15:8], B [23:16] (10_state R31). -/
def tintOf (v : Word) : Tint := { r := field v 0 8, g := field v 8 8, b := field v 16 8 }

/-- The descriptor in the registers (10_state R28–R31, 30_encoding R95). -/
def Regs.descriptor (g : Regs) : Descriptor where
  endian := endianOf (g.fmt.getLsbD 12)
  subbyte := g.fmt.getLsbD 13
  palEn := g.fmt.getLsbD 14
  shift := field g.fmt 16 4
  bpc0 := field g.bpc 0 5
  bpc1 := field g.bpc 8 5
  bpc2 := field g.bpc 16 5
  bpc3 := field g.bpc 24 5
  subH := field g.sub 0 4
  subV := field g.sub 8 4
  pal0 := tintOf g.pal0
  pal1 := tintOf g.pal1
  pal2 := tintOf g.pal2
  pal3 := tintOf g.pal3

/-- `EffectiveOrder` (41_unpack R151): FMT.ENDIAN when ENDIAN_SEL is 0, LITTLE when 1, BIG when 2. The value 3 is rejected
before this is read (40_commands R122). -/
def effectiveOrder (own : Endian) (sel : Nat) : Endian :=
  match sel with
  | 1 => .little
  | 2 => .big
  | _ => own

/-- BPCi of slot `i` (10_state R29, 30_encoding R97). -/
def Descriptor.width (d : Descriptor) (i : Nat) : Nat :=
  match i with
  | 0 => d.bpc0
  | 1 => d.bpc1
  | 2 => d.bpc2
  | 3 => d.bpc3
  | _ => 0

/-- The tint PALk (30_encoding R102). -/
def Descriptor.tint (d : Descriptor) (k : Nat) : Tint :=
  match k with
  | 0 => d.pal0
  | 1 => d.pal1
  | 2 => d.pal2
  | _ => d.pal3

end Sys2Proof.Machine
end

