-- ==== Sys2Proof/Machine/Ops.lean ====
section
/-! DEFINITION. The named operations over memories and state: reading and writing a cell, drawing a free value, accepting
a command, completing one with its effects or by fault entry, and the two resets (spec/20_memory.md R70, 40_commands R120,
60_exceptions R303, 70_reset R330, R332). -/

namespace Sys2Proof.Machine

/-- The value written at `a`, if any. -/
def lookupCell {w : Nat} : List (Nat × BitVec w) → Nat → Option (BitVec w)
  | [], _ => none
  | (k, v) :: rest, a => if k = a then some v else lookupCell rest a

/-- Write `v` at `a`, keeping the addresses rising. -/
def insertCell {w : Nat} : List (Nat × BitVec w) → Nat → BitVec w → List (Nat × BitVec w)
  | [], a, v => [(a, v)]
  | (k, u) :: rest, a, v =>
    if a < k then (a, v) :: (k, u) :: rest
    else if a = k then (a, v) :: rest
    else (k, u) :: insertCell rest a v

/-- The cells holding `vs` at the addresses from `a` up. -/
def cellsFrom {w : Nat} : Nat → List (BitVec w) → List (Nat × BitVec w)
  | _, [] => []
  | a, v :: vs => (a, v) :: cellsFrom (a + 1) vs

/-- `IN[i]`: the byte the host wrote, else a draw of the last hardware reset (10_state R41, 93 U1). -/
def inByte (s : State) (i : Nat) : Byte :=
  match lookupCell s.inMem.cells i with
  | some b => b
  | none => Config.freeInByte s.inMem.epoch i

/-- `COMP[i]`: the element written by the last DECODE, else a draw (10_state R40, 93 U2, U3). -/
def compElem (s : State) (i : Nat) : Elem :=
  match lookupCell s.comp.cells i with
  | some e => e
  | none => Config.freeCompElem s.comp.epoch i

/-- `OUT[i]`: the byte written by the last command that writes OUT, else a draw (10_state R42, 93 U2, U3). -/
def outByte (s : State) (i : Nat) : Byte :=
  match lookupCell s.out.cells i with
  | some b => b
  | none => Config.freeOutByte s.out.epoch i

/-- A host write of one IN byte (20_memory R62). -/
def writeInByte (s : State) (i : Nat) (b : Byte) : State :=
  { s with inMem := { s.inMem with cells := insertCell s.inMem.cells i b } }

/-- Host writes of the IN bytes from `i` up. -/
def writeInBytes : State → Nat → List Byte → State
  | s, _, [] => s
  | s, i, b :: bs => writeInBytes (writeInByte s i b) (i + 1) bs

/-- Accept the command word `w` (40_commands R120): PENDING <- w, so BUSY = 1, and DONE, ERR and ERRCODE are cleared. The
completion's delay is drawn (70_reset R350; log 5). -/
def accept (s : State) (w : Word) : State :=
  { s with
    pending := some w
    status := s.status.onAccept
    latency := Config.freeLatency s.draws
    draws := s.draws + 1 }

/-- Fault entry (60_exceptions R303), the one way a command ends with a fault: ERR <- 1, ERRCODE <- code, NONE <- 0,
BUSY <- 0, PENDING <- empty, and nothing else changes. -/
def faultEntry (s : State) (c : FaultCode) : State :=
  { s with pending := none, latency := 0, status := s.status.onFault c }

/-- The return from a fault (60_exceptions R305): the host's write to STATUS, which clears what its bits name
(10_state R26). -/
def clearStatus (s : State) (v : Word) : State := { s with status := s.status.writeOneToClear v }

/-- Completion without a fault (40_commands R120): all of the command's writes at once, NONE written, DONE <- 1,
PENDING <- empty. A memory the command writes holds exactly what it wrote; its other cells are draws made now (93 U2). -/
def commit (s : State) (e : Effects) : State :=
  { s with
    pending := none
    latency := 0
    status := s.status.onSuccess e.none
    results := e.results
    img := match e.decoded with
      | some (i, _) => some i
      | none => s.img
    comp := match e.decoded with
      | some (_, elems) => { cells := cellsFrom 0 elems, epoch := s.draws }
      | none => s.comp
    out := match e.outBytes with
      | some bytes => { cells := cellsFrom 0 bytes, epoch := s.draws }
      | none => s.out
    draws := s.draws + 1 }

/-- The completion step of a command from what it evaluates to (40_commands R120): a set of effects or a fault. -/
def complete (s : State) (r : Except FaultCode Effects) : State :=
  match r with
  | .ok e => commit s e
  | .error c => faultEntry s c

/-- Soft reset (70_reset R332): every register takes its reset value, PENDING becomes empty, IMG.valid <- 0; the memories
keep their contents and no new draw is made (93 U3). -/
def softReset (s : State) : State :=
  { s with
    regs := .reset
    status := .reset
    results := .reset
    pending := none
    latency := 0
    img := none }

/-- Hardware reset (70_reset R330, R331): the registers as after a soft reset, and every cell of the three memories is a
new draw (93 U3; log 13). -/
def hardwareReset (s : State) : State :=
  { softReset s with
    inMem := { cells := [], epoch := s.draws }
    comp := { cells := [], epoch := s.draws }
    out := { cells := [], epoch := s.draws }
    draws := s.draws + 1 }

/-- A host write that BUSY = 1 turns away (70_reset R341): nothing but WWB changes. -/
def turnAway (s : State) : State := { s with status := s.status.onBusyWrite }

/-- The host's next action is the polling loop WAIT. -/
def hostWaits (s : State) : Bool :=
  match s.host with
  | .wait :: _ => true
  | _ => false

/-- The pending command completes now: the host has nothing to do but wait, or the host steps drawn at acceptance have
passed (70_reset R350, R351; log 5, 12). -/
def engineTurn (s : State) : Bool := s.host.isEmpty || hostWaits s || s.latency == 0

/-- The command word the engine executes at this step, if it is the engine's turn (40_commands R120, R121). -/
def fetch (s : State) : Option Word :=
  match s.pending with
  | some w => if engineTurn s then some w else none
  | none => none

/-- An accepted command word whose completion is the very next step. -/
def placeCommand (s : State) (w : Word) : State :=
  { s with pending := some w, status := s.status.onAccept, latency := 0 }

end Sys2Proof.Machine
end

