-- ==== Sys2Proof/Machine/Bus.lean ====
section
/-! DEFINITION. The host's accesses (spec/20_memory.md R60–R69, 70_reset R341, R342, R352): the aperture's regions, what is
refused, MemRead, MemWrite, and one step of the host. -/

namespace Sys2Proof.Machine

/-- The aperture's regions (20_memory R61), by the 256 MiB part an offset lies in: 0 registers, 1 IN, 2 OUT, 3 COMP. -/
def regionOf (off : Nat) : Nat := off / 2 ^ 28

/-- The offset inside a region. -/
def offsetIn (off : Nat) : Nat := off % 2 ^ 28

/-- Why an access of `n` units at offset `i` of a region is refused, if it is: a width the region does not list, a 32-bit
access that is not aligned, or a byte at or beyond the region's size (20_memory R65, R68). -/
def refusalIn (widths : List Nat) (size i n : Nat) : Option Refusal :=
  if n ∉ widths then some .accessWidth
  else if n = 4 ∧ i % 4 ≠ 0 then some .misalignedAccess
  else if size < i + n then some .accessBeyondMemory
  else none

/-- Why the host access of width `n` at aperture offset `off` is refused, if it is (20_memory R61, R65). Registers and COMP
take 32-bit accesses, IN and OUT 8-bit and 32-bit ones. -/
def refusal (s : State) (off n : Nat) : Option Refusal :=
  match regionOf off with
  | 0 => if off < 0x1000 then refusalIn [4] 0x1000 off n else some .unmappedAccess
  | 1 => refusalIn [1, 4] s.impl.inMemBytes (offsetIn off) n
  | 2 => refusalIn [1, 4] s.impl.outMemBytes (offsetIn off) n
  | 3 => refusalIn [4] (4 * s.impl.compMemWords) (offsetIn off) n
  | _ => some .unmappedAccess

/-- Four bytes as the little-endian bus reads them: the byte at the lowest offset is bits [7:0] (20_memory R67). -/
def busWord (b0 b1 b2 b3 : Byte) : Word := b3 ++ b2 ++ b1 ++ b0

/-- The `n` bytes of `v` in bus order, `n` being 1 or 4; an 8-bit write takes bits [7:0] (20_memory R62, R67; log 19). -/
def busBytes (v : Word) (n : Nat) : List Byte :=
  if n = 1 then [v.extractLsb' 0 8] else [v.extractLsb' 0 8, v.extractLsb' 8 8, v.extractLsb' 16 8, v.extractLsb' 24 8]

/-- An `n`-byte little-endian read through `byte`, `n` being 1 or 4 (20_memory R62, R64, R67). -/
def busRead (byte : Nat → Byte) (i n : Nat) : Word :=
  if n = 1 then (byte i).setWidth 32 else busWord (byte i) (byte (i + 1)) (byte (i + 2)) (byte (i + 3))

/-- The value of an access that is not refused, while its read is specified (20_memory R62–R64, 10_state R22). -/
def readValue (s : State) (off n : Nat) : Word :=
  match regionOf off with
  | 0 => match regAt off with
    | some r => readReg s r
    | none => 0
  | 1 => busRead (inByte s) (offsetIn off) n
  | 2 => busRead (outByte s) (offsetIn off) n
  | _ => (compElem s (offsetIn off / 4)).setWidth 32

/-- The reads that return any value while BUSY = 1: the result registers and the OUT and COMP windows (70_reset R342). -/
def readsResult (off : Nat) : Bool :=
  match regionOf off with
  | 0 => match regAt off with
    | some r => r.isResult
    | none => false
  | 1 => false
  | _ => true

/-- A draw of the access's width (93 U4). -/
def freeRead (s : State) (n : Nat) : Word :=
  if n = 1 then ((Config.freeBusRead s.draws).extractLsb' 0 8).setWidth 32 else Config.freeBusRead s.draws

/-- MemRead (20_memory R66): the value, and the state with the draw counted where one was made. -/
def memRead (s : State) (off n : Nat) : Except Refusal (Word × State) :=
  match refusal s off n with
  | some r => .error r
  | none =>
    if s.busy && readsResult off then .ok (freeRead s n, { s with draws := s.draws + 1 })
    else .ok (readValue s off n, s)

/-- A register write (10_state R22–R27, 70_reset R341): CTRL and STATUS have their effect whatever BUSY is, every other
register is turned away while BUSY = 1. -/
def writeReg (s : State) (r : Reg) (v : Word) : State :=
  match r with
  | .ctrl => if v.getLsbD 0 then softReset s else s
  | .status => clearStatus s v
  | .command => if s.busy then turnAway s else accept s v
  | r => if s.busy then turnAway s else { s with regs := s.regs.store r v }

/-- The effect of a write that is not refused: a register, IN, or nothing for a reserved offset and for the OUT and COMP
windows (10_state R22, 20_memory R62–R64, 70_reset R341). -/
def writeValue (s : State) (off n : Nat) (v : Word) : State :=
  match regionOf off with
  | 0 => match regAt off with
    | some r => writeReg s r v
    | none => s
  | 1 => if s.busy then turnAway s else writeInBytes s (offsetIn off) (busBytes v n)
  | _ => s

/-- MemWrite (20_memory R66). -/
def memWrite (s : State) (off n : Nat) (v : Word) : Except Refusal State :=
  match refusal s off n with
  | some r => .error r
  | none => .ok (writeValue s off n v)

/-- A host-bus address as an aperture offset; below BASE it is no address of this engine (20_memory R61). -/
def apertureOffset (s : State) (addr : Nat) : Option Nat :=
  if s.impl.base ≤ addr then some (addr - s.impl.base) else none

/-- The host's next action is taken off its program, and the pending command, if any, is one host step nearer. -/
def hostMoves (s : State) : State := { s with host := s.host.tail, latency := s.latency - 1 }

/-- A value returned to the host (20_memory R66; log 8). -/
def returnValue (s : State) (v : Word) : State := { s with reads := v :: s.reads }

/-- One action of the host (70_reset R352). A refused access is no step (20_memory R65, 93 U7). WAIT reads STATUS until
BUSY = 0 and returns that last value (30_encoding R107; log 12); while BUSY = 1 it stays. -/
def hostAct (s : State) (a : HostAct) : Except Refusal State :=
  match a with
  | .read addr n => match apertureOffset s addr with
    | none => .error .unmappedAccess
    | some off => match memRead (hostMoves s) off n with
      | .error r => .error r
      | .ok (v, s') => .ok (returnValue s' v)
  | .write addr n v => match apertureOffset s addr with
    | none => .error .unmappedAccess
    | some off => memWrite (hostMoves s) off n v
  | .wait => if s.busy then .ok s else .ok (returnValue (hostMoves s) (statusWord s))
  | .hardwareReset => .ok (hardwareReset (hostMoves s))

/-- A step of the host: its next action, or, when it has none, nothing changes (60_exceptions R314, 70_reset R353). -/
def hostStep (s : State) : Host.Outcome State Fault Refusal :=
  match s.host with
  | [] => .next s
  | a :: _ => match hostAct s a with
    | .ok s' => .next s'
    | .error r => .refused r

end Sys2Proof.Machine
end

