-- ==== Sys2Proof/Machine/Unpack.lean ====
section
/-! DEFINITION. The bit-unpacking datapath and its inverse (spec/41_unpack.md R150–R168, 20_memory R71), over lists of
naturals: raw bytes, components and elements are numbers (00_scope R7, R11). -/

namespace Sys2Proof.Machine

/-- The `k` values from index `a` of a list, 0 past its end. -/
def window (xs : List Nat) (a k : Nat) : List Nat := (List.range k).map fun t => xs.getD (a + t) 0

/-- `NumE`: the number a lane or chunk of bytes stands for (20_memory R71). -/
def numE : Endian → List Nat → Nat
  | .big, bs => bs.foldl (fun acc b => acc * 256 + b) 0
  | .little, bs => bs.foldr (fun b acc => b + 256 * acc) 0

/-- `LaneEncode(v, k, E)`: the `k`-byte sequence whose `NumE` is `v` (41_unpack R164). -/
def laneEncode (v k : Nat) : Endian → List Nat
  | .big => (List.range k).map fun j => (v >>> (8 * (k - 1 - j))) % 256
  | .little => (List.range k).map fun j => (v >>> (8 * j)) % 256

/-- `ByteReverse(A, g)` (41_unpack R156): whole groups of `g` bytes are reversed, the last `N mod g` bytes are unchanged,
and `g ≤ 1` is a no-op. -/
def byteReverse (a : List Nat) (g : Nat) : List Nat :=
  if g ≤ 1 then a
  else (List.range a.length).map fun i =>
    if i < g * (a.length / g) then a.getD (i / g * g + (g - 1 - i % g)) 0 else a.getD i 0

/-- `P`: the present slots in increasing order (41_unpack R157). -/
def Descriptor.present (d : Descriptor) : List Nat := [0, 1, 2, 3].filter fun i => decide (0 < d.width i)

/-- `w_0, …, w_(n−1)`: the widths of the present components (41_unpack R157). -/
def Descriptor.widths (d : Descriptor) : List Nat := d.present.map d.width

/-- `n`: how many components are present (41_unpack R157). -/
def Descriptor.compCount (d : Descriptor) : Nat := d.present.length

/-- `S`: the sum of the widths (41_unpack R157). -/
def Descriptor.widthSum (d : Descriptor) : Nat := d.bpc0 + d.bpc1 + d.bpc2 + d.bpc3

/-- `wmax`: the widest component (41_unpack R157). -/
def Descriptor.widthMax (d : Descriptor) : Nat := max (max d.bpc0 d.bpc1) (max d.bpc2 d.bpc3)

/-- The unpacking path (41_unpack R155): lanes of `lb` bytes, or sub-byte chunks. -/
inductive Path
  | lane (lb : Nat)
  | subbyte
  deriving DecidableEq, Repr

/-- `SelectPath` (41_unpack R155, R166). `single` says the family is GRAY or BAYER; otherwise it is RGB. -/
def selectPath (single : Bool) (d : Descriptor) : Path :=
  if d.subbyte then .subbyte
  else if single then .lane (ceilDiv (d.bpc0 + d.shift) 8)
  else if d.widths.all (· == 8) then .lane 1
  else if d.widths.all (· == 16) then .lane 2
  else .subbyte

/-- `IMG.subbyte` (41_unpack R155). -/
def Path.isSubbyte : Path → Bool
  | .lane _ => false
  | .subbyte => true

/-- `T`: the bytes of a chunk, `lcm(S, 8) / 8` (41_unpack R160). DEDUCED: at `S = 64` R160's formula gives 8 and its closing
remark says 64; the model follows the formula (log 25). -/
def chunkBytes (d : Descriptor) : Nat := Nat.lcm d.widthSum 8 / 8

/-- `G`: the pixel-groups of a chunk (41_unpack R160). -/
def chunkGroups (d : Descriptor) : Nat := 8 * chunkBytes d / d.widthSum

/-- `NG`: the pixel-groups in `n` bytes, the buffer padded with zero bytes to whole groups or chunks
(41_unpack R158, R160, R163). -/
def groupCount (p : Path) (d : Descriptor) (n : Nat) : Nat :=
  match p with
  | .lane lb => ceilDiv n (d.compCount * lb)
  | .subbyte => ceilDiv n (chunkBytes d) * chunkGroups d

/-- `o(q, j) + w_j` subtracted from the chunk's width: how far component `j` of group `q` lies above the chunk's least
significant bit (41_unpack R161). -/
def bitsBelow (d : Descriptor) (q j : Nat) : Nat :=
  8 * chunkBytes d - (q * d.widthSum + (d.widths.take (j + 1)).sum)

/-- Component `j` of group `g` on the lane path (41_unpack R158); GRAY and BAYER shift right and drop the bits above the
declared width (R159). Bytes past the buffer's end are its zero padding. -/
def laneComp (single : Bool) (d : Descriptor) (e : Endian) (lb : Nat) (b : List Nat) (g j : Nat) : Nat :=
  let lane := numE e (window b (g * (d.compCount * lb) + j * lb) lb)
  if single then (lane >>> d.shift) % 2 ^ d.bpc0 else lane

/-- Component `j` of group `g` on the sub-byte path (41_unpack R161): group `g` is group `g mod G` of chunk `g div G`, and
the most significant bits come first. -/
def subbyteComp (d : Descriptor) (e : Endian) (b : List Nat) (g j : Nat) : Nat :=
  let x := numE e (window b (g / chunkGroups d * chunkBytes d) (chunkBytes d))
  (x >>> bitsBelow d (g % chunkGroups d) j) % 2 ^ d.widths.getD j 0

/-- Component `j` of group `g` of the bytes `b` on a path. -/
def groupComp (p : Path) (single : Bool) (d : Descriptor) (e : Endian) (b : List Nat) (g j : Nat) : Nat :=
  match p with
  | .lane lb => laneComp single d e lb b g j
  | .subbyte => subbyteComp d e b g j

/-- The `NG` groups of the bytes `b`, each a list of `n` components (41_unpack R158, R160, R161). -/
def extractGroups (single : Bool) (d : Descriptor) (e : Endian) (b : List Nat) : List (List Nat) :=
  let p := selectPath single d
  (List.range (groupCount p d b.length)).map fun g => (List.range d.compCount).map fun j => groupComp p single d e b g j

/-- `H` of `n` bytes at width `w`: the groups padded to whole rows (41_unpack R162). -/
def unpackHeight (single : Bool) (d : Descriptor) (n w : Nat) : Nat :=
  ceilDiv (groupCount (selectPath single d) d n) w

/-- `Unpack` (41_unpack R162): the groups, then groups of zeros up to a whole number of rows of `w`. -/
def unpack (single : Bool) (d : Descriptor) (e : Endian) (b : List Nat) (w : Nat) : List (List Nat) :=
  let groups := extractGroups single d e b
  groups ++ List.replicate (w * unpackHeight single d b.length w - groups.length) (List.replicate d.compCount 0)

/-- One chunk of `SubbyteEncode` (41_unpack R165): the components of the groups `c*G .. c*G + G − 1` that exist, each at
the place R161 reads it from. -/
def encodeChunk (d : Descriptor) (groups : List (List Nat)) (c : Nat) : Nat :=
  ((List.range (chunkGroups d)).map fun q =>
    match groups[c * chunkGroups d + q]? with
    | some comps => ((List.range d.compCount).map fun j => comps.getD j 0 <<< bitsBelow d q j).sum
    | none => 0).sum

/-- `SubbyteEncode(groups, E)` (41_unpack R165). -/
def subbyteEncode (d : Descriptor) (e : Endian) (groups : List (List Nat)) : List Nat :=
  (List.range (ceilDiv groups.length (chunkGroups d))).flatMap fun c =>
    laneEncode (encodeChunk d groups c) (chunkBytes d) e

/-- The groups of an image re-encoded in its layout (41_unpack R164, R165): lanes hold a GRAY or BAYER sample shifted left
again. -/
def encodeGroups (single : Bool) (d : Descriptor) (e : Endian) (groups : List (List Nat)) : List Nat :=
  match selectPath single d with
  | .lane lb => groups.flatMap fun comps => comps.flatMap fun v =>
      laneEncode (if single then v <<< d.shift else v) lb e
  | .subbyte => subbyteEncode d e groups

/-- The general descriptor checks, in order (41_unpack R152). -/
def generalFault (d : Descriptor) : Bool :=
  (d.subH == 0 || d.subV == 0) ||
    (decide (16 < d.bpc0) || decide (16 < d.bpc1) || decide (16 < d.bpc2) || decide (16 < d.bpc3)) || d.widthSum == 0

/-- The slots of the canonical channels R, G, B and A (42_rgb R190). -/
def rgbSlots : RgbOrder → Nat × Nat × Nat × Nat
  | .rgb => (0, 1, 2, 3)
  | .bgr => (2, 1, 0, 3)
  | .rgba => (0, 1, 2, 3)
  | .bgra => (2, 1, 0, 3)
  | .argb => (1, 2, 3, 0)
  | .abgr => (3, 2, 1, 0)

/-- The 3-letter orders (30_encoding R96). -/
def threeLetter : RgbOrder → Bool
  | .rgb | .bgr => true
  | .rgba | .bgra | .argb | .abgr => false

/-- The presence checks of an RGB descriptor (41_unpack R154): a colour slot without a width, a fourth width with a
3-letter order, or a shift. -/
def rgbFault (o : RgbOrder) (d : Descriptor) : Bool :=
  let (r, g, b, _) := rgbSlots o
  (d.width r == 0 || d.width g == 0 || d.width b == 0) || (threeLetter o && d.bpc3 != 0) || d.shift != 0

/-- The presence checks of a GRAY or BAYER descriptor (41_unpack R154). -/
def singleFault (d : Descriptor) : Bool :=
  (d.bpc0 == 0 || d.bpc1 != 0 || d.bpc2 != 0 || d.bpc3 != 0) ||
    (if d.subbyte then d.shift != 0 else decide (16 < d.bpc0 + d.shift))

/-- The YUV codecs' requirements on widths, path and shift (30_encoding R105 (1), (2)). -/
def yuvFault (d : Descriptor) : Bool :=
  (d.bpc0 != 8 || d.bpc1 != 8 || d.bpc2 != 8 || d.bpc3 != 0) || (d.subbyte || d.shift != 0)

/-- The fault of the codec's own checks, if any: InvalidPixelFormat for RGB, GRAY and BAYER (41_unpack R154),
UnsupportedFormat for the YUV codecs (30_encoding R105 (1), (2)). -/
def codecFault (c : Codec) (d : Descriptor) : Option FaultCode :=
  match c with
  | .rgb o => if rgbFault o d then some .invalidPixelFormat else none
  | .gray => if singleFault d then some .invalidPixelFormat else none
  | .bayer _ => if singleFault d then some .invalidPixelFormat else none
  | .yuvPacked _ => if yuvFault d then some .unsupportedFormat else none
  | .yuvSemi _ => if yuvFault d then some .unsupportedFormat else none
  | .yuvPlanar _ => if yuvFault d then some .unsupportedFormat else none

/-- `CheckDescriptor` and `FamilyOf` (40_commands R122) in the order of 60_exceptions R302 (3), (4): the general checks,
then the codec's own; a YUV codec with no family for the subsampling pair is unsupported (30_encoding R105 (3)). -/
def checkDescriptor (c : Codec) (d : Descriptor) : Except FaultCode Family :=
  if generalFault d then .error .invalidPixelFormat
  else match codecFault c d with
    | some f => .error f
    | none => match familyOf c d.subH d.subV with
      | some fam => .ok fam
      | none => .error .unsupportedFormat

end Sys2Proof.Machine
end

