-- ==== Sys2Proof/Machine/Pixel.lean ====
section
/-! DEFINITION. What the families share: the rescaling helpers (spec/00_scope.md R9), pixels and rasters (40_commands R128),
frames (R127), and slices of an element array. -/

namespace Sys2Proof.Machine

/-- `round255(v, b)` (00_scope R9). -/
def round255 (v b : Nat) : Nat := (2 * v * 255 + (2 ^ b - 1)) / (2 * (2 ^ b - 1))

/-- `floor255(v, b)` (00_scope R9). -/
def floor255 (v b : Nat) : Nat := v * 255 / (2 ^ b - 1)

/-- One pixel of a raster: 8-bit R, G, B, A (40_commands R128). -/
structure Pixel where
  r : Nat
  g : Nat
  b : Nat
  a : Nat
  deriving DecidableEq, Repr

/-- The four bytes of a pixel in OUT's order (40_commands R128). -/
def Pixel.bytes (p : Pixel) : List Nat := [p.r, p.g, p.b, p.a]

/-- The raster of `k` frames of `rows` rows of `w` pixels, row-major, frame after frame (40_commands R126, R128). -/
def raster (k rows w : Nat) (px : Nat → Nat → Nat → Pixel) : List Nat :=
  (List.range k).flatMap fun f => (List.range rows).flatMap fun r => (List.range w).flatMap fun c => (px f r c).bytes

/-- The pixels of a region, rows `r0 .. r1 − 1` and columns `c0 .. c1 − 1`, row-major (40_commands R135). -/
def region {α : Type} (r0 r1 c0 c1 : Nat) (f : Nat → Nat → α) : List α :=
  (List.range (r1 - r0)).flatMap fun i => (List.range (c1 - c0)).map fun j => f (r0 + i) (c0 + j)

/-- The bytes of a list of numbers. -/
def toBytes (xs : List Nat) : List Byte := xs.map (BitVec.ofNat 8)

/-- How a RENDER splits the image: `K` frames of `Fh` rows, each `len` elements of COMP (40_commands R127, 43_yuv R223). -/
structure Frames where
  count : Nat
  rows : Nat
  len : Nat
  deriving DecidableEq, Repr

/-- Frames of the RGB, GRAY and BAYER families, with `cpp` elements a pixel (40_commands R127). -/
def plainFrames (img : Image) (cpp f : Nat) : Frames :=
  if f = 0 then { count := 1, rows := img.h, len := img.l }
  else { count := ceilDiv img.h f, rows := f, len := f * img.w * cpp }

/-- Frame `k`: its elements, those past the image's end being the 0 of a padding row (40_commands R127, 43_yuv R223). -/
def frameData (data : List Nat) (fr : Frames) (k : Nat) : List Nat := window data (k * fr.len) fr.len

end Sys2Proof.Machine
end

