-- ==== Sys2Proof/Machine/Bayer.lean ====
section
/-! DEFINITION. The Bayer family (spec/44_bayer.md R260–R271). -/

namespace Sys2Proof.Machine

/-- `BayerDecode`: one element a pixel, the sample itself (44_bayer R260). -/
def bayerDecode (d : Descriptor) (e : Endian) (b : List Nat) (w : Nat) : List Nat :=
  (unpack true d e b w).map fun comps => comps.getD 0 0

/-- The colours of the 2×2 tile, read row-major (44_bayer R261). -/
def cfaTile : BayerOrder → Channel × Channel × Channel × Channel
  | .rggb => (.r, .g, .g, .b)
  | .bggr => (.b, .g, .g, .r)
  | .gbrg => (.g, .b, .r, .g)
  | .grbg => (.g, .r, .b, .g)

/-- `k(r, c)`: the tile position of a cell (44_bayer R261). -/
def tilePos (r c : Nat) : Nat := r % 2 * 2 + c % 2

/-- `CfaColor(order, r, c)` (44_bayer R261). -/
def cfaColor (o : BayerOrder) (r c : Nat) : Channel :=
  let (p0, p1, p2, p3) := cfaTile o
  match tilePos r c with
  | 0 => p0
  | 1 => p1
  | 2 => p2
  | _ => p3

/-- The colour index of a channel (44_bayer R263). -/
def Channel.index : Channel → Nat
  | .r => 0
  | .g => 1
  | .b => 2

/-- The masked 8-bit mosaic of a frame, row-major (44_bayer R262, R263). -/
def mosaic (o : BayerOrder) (bpc : Nat) (rows w : Nat) (fb : List Nat) (m : Nat → Bool) : List Byte :=
  region 0 rows 0 w fun r c =>
    if m (Channel.index (cfaColor o r c)) then BitVec.ofNat 8 (floor255 (fb.getD (r * w + c) 0) bpc) else 0

/-- `s'(r, c)` of a mosaic. -/
def mosaicAt (s : List Byte) (w r c : Nat) : Nat := (s.getD (r * w + c) 0).toNat

/-- The cells of a colour among the 3×3 around `(r, c)` that lie in the frame: `S` (44_bayer R268). -/
def neighbours (o : BayerOrder) (rows w r c : Nat) (x : Channel) : List (Nat × Nat) :=
  (region 0 3 0 3 fun i j => (r + i, c + j)).filterMap fun (r1, c1) =>
    if 1 ≤ r1 ∧ r1 - 1 < rows ∧ 1 ≤ c1 ∧ c1 - 1 < w ∧ cfaColor o (r1 - 1) (c1 - 1) = x then some (r1 - 1, c1 - 1) else none

/-- One channel of `DEMOSAIC_BILINEAR` (44_bayer R268): the cell's own sample, or the mean of its neighbours of that
colour, rounded half up, 0 without one. -/
def bilinearChannel (o : BayerOrder) (s : List Byte) (rows w r c : Nat) (x : Channel) : Nat :=
  if cfaColor o r c = x then mosaicAt s w r c
  else
    let ns := neighbours o rows w r c x
    if ns.length = 0 then 0
    else ((ns.map fun q => mosaicAt s w q.1 q.2).sum + ns.length / 2) / ns.length

/-- `DEMOSAIC_BILINEAR(order, s', Fh, W)[r][c]` (44_bayer R268). -/
def demosaicBilinear (o : BayerOrder) (s : List Byte) (rows w r c : Nat) : Nat × Nat × Nat :=
  (bilinearChannel o s rows w r c .r, bilinearChannel o s rows w r c .g, bilinearChannel o s rows w r c .b)

/-- Any routine with the properties P1 to P3 of 44_bayer R265: a free triple at each position, but for the cell's own
channel, which is its sample (P1), and the all-zero mosaic, which gives zeros (P3); it depends on its arguments alone (P2).
Log 11. -/
def demosaicPlatform (o : BayerOrder) (s : List Byte) (rows w r c : Nat) : Nat × Nat × Nat :=
  if s.all (· == 0) then (0, 0, 0)
  else
    let (fr, fg, fb) := Config.freeDemosaic o s rows w r c
    (if cfaColor o r c = .r then mosaicAt s w r c else fr.toNat,
     if cfaColor o r c = .g then mosaicAt s w r c else fg.toNat,
     if cfaColor o r c = .b then mosaicAt s w r c else fb.toNat)

/-- The DEMOSAIC parameter (00_scope R6, 44_bayer R265). -/
def demosaic (p : DemosaicChoice) (o : BayerOrder) (s : List Byte) (rows w r c : Nat) : Nat × Nat × Nat :=
  match p with
  | .reference => demosaicBilinear o s rows w r c
  | .platform => demosaicPlatform o s rows w r c

/-- `BayerPixel` of a masked mosaic (44_bayer R266). -/
def bayerPixel (p : DemosaicChoice) (o : BayerOrder) (rows w : Nat) (s : List Byte) (r c : Nat) : Pixel :=
  let (cr, cg, cb) := demosaic p o s rows w r c
  { r := cr, g := cg, b := cb, a := 255 }

/-- `e(r, c)` of an image (44_bayer). -/
def sampleAt (w : Nat) (data : List Nat) (r c : Nat) : Nat := data.getD (r * w + c) 0

/-- `BayerRawPixel` (44_bayer R269). -/
def bayerRawPixel (img : Image) (data : List Nat) (r c : Nat) : Pixel :=
  let v := floor255 (sampleAt img.w data r c) img.desc.bpc0
  let t := img.desc.tint (tilePos r c)
  { r := v * t.r / 255, g := v * t.g / 255, b := v * t.b / 255, a := 255 }

/-- `BayerCrop` (44_bayer R270). -/
def bayerCrop (img : Image) (data : List Nat) (r0 r1 c0 c1 : Nat) : List Nat :=
  encodeGroups true img.desc img.desc.endian (region r0 r1 c0 c1 fun r c => [sampleAt img.w data r c])

/-- `BayerLookup` (44_bayer R271): the four samples of the tile that contains the pixel, 0 outside the image. -/
def bayerLookup (img : Image) (data : List Nat) (r c : Nat) : List Nat :=
  let tr := 2 * (r / 2)
  let tc := 2 * (c / 2)
  let x := fun a b => if a < img.h ∧ b < img.w then sampleAt img.w data a b else 0
  [x tr tc, x tr (tc + 1), x (tr + 1) tc, x (tr + 1) (tc + 1)]

end Sys2Proof.Machine
end

