-- ==== Sys2Proof/Machine/Gray.lean ====
section
/-! DEFINITION. The grayscale family (spec/45_gray.md R290–R295). -/

namespace Sys2Proof.Machine

/-- `GrayDecode` (45_gray R290). -/
def grayDecode (d : Descriptor) (e : Endian) (b : List Nat) (w : Nat) : List Nat := bayerDecode d e b w

/-- `GrayPixel` (45_gray R291): the truncated sample in three channels; the mask is not read. -/
def grayPixel (d : Descriptor) (w : Nat) (fb : List Nat) (r c : Nat) : Pixel :=
  let g := floor255 (sampleAt w fb r c) d.bpc0
  { r := g, g := g, b := g, a := 255 }

/-- `GrayCrop` (45_gray R294). -/
def grayCrop (img : Image) (data : List Nat) (r0 r1 c0 c1 : Nat) : List Nat := bayerCrop img data r0 r1 c0 c1

/-- `GrayLookup` (45_gray R295). -/
def grayLookup (img : Image) (data : List Nat) (r c : Nat) : List Nat := [sampleAt img.w data r c]

end Sys2Proof.Machine
end

