-- ==== Sys2Proof/Machine/Rgb.lean ====
section
/-! DEFINITION. The RGB/RGBA family (spec/42_rgb.md R190–R201). -/

namespace Sys2Proof.Machine

/-- `SYN`, stored in every absent slot (42_rgb R192). -/
def synValue (d : Descriptor) : Nat := 2 ^ d.widthMax - 1

/-- The four elements of a pixel from its present components, in slot order (42_rgb R191). -/
def rgbElems (d : Descriptor) (comps : List Nat) : List Nat :=
  (List.range 4).map fun i => if 0 < d.width i then comps.getD (d.present.idxOf i) 0 else synValue d

/-- `RgbDecode`: the element array (42_rgb R191). -/
def rgbDecode (d : Descriptor) (e : Endian) (b : List Nat) (w : Nat) : List Nat :=
  (unpack false d e b w).flatMap (rgbElems d)

/-- The rescaled component of slot `i` of pixel `(r, c)` of a frame (42_rgb R194). -/
def rgbSample (d : Descriptor) (w : Nat) (fb : List Nat) (r c i : Nat) : Nat :=
  round255 (fb.getD (4 * (r * w + c) + i) 0) (d.width i)

/-- `RgbPixel` (42_rgb R194–R196): rescale, reorder, force alpha to 255 without an alpha component, then mask; a masked
alpha is 255. -/
def rgbPixel (d : Descriptor) (o : RgbOrder) (w : Nat) (fb : List Nat) (m : Nat → Bool) (r c : Nat) : Pixel :=
  let (sr, sg, sb, sa) := rgbSlots o
  { r := if m 0 then rgbSample d w fb r c sr else 0
    g := if m 1 then rgbSample d w fb r c sg else 0
    b := if m 2 then rgbSample d w fb r c sb else 0
    a := if m 3 && decide (0 < d.width sa) then rgbSample d w fb r c sa else 255 }

/-- The present components of pixel `(r, c)` in slot order (42_rgb R198, R199). -/
def rgbComps (d : Descriptor) (w : Nat) (data : List Nat) (r c : Nat) : List Nat :=
  d.present.map fun i => data.getD (4 * (r * w + c) + i) 0

/-- `RgbCrop` (42_rgb R198). -/
def rgbCrop (img : Image) (data : List Nat) (r0 r1 c0 c1 : Nat) : List Nat :=
  encodeGroups false img.desc img.desc.endian (region r0 r1 c0 c1 (rgbComps img.desc img.w data))

/-- `RgbLookup` (42_rgb R199). -/
def rgbLookup (img : Image) (data : List Nat) (r c : Nat) : List Nat := rgbComps img.desc img.w data r c

end Sys2Proof.Machine
end

