-- ==== Sys2Proof/Machine/Yuv.lean ====
section
/-! DEFINITION. The YUV family (spec/43_yuv.md R220–R242). -/

namespace Sys2Proof.Machine

/-- The two 4:2:0 families (43_yuv R220). -/
def is420 : YuvFamily → Bool
  | .packed422 _ => false
  | .semi420 _ => true
  | .planar420 _ => true
  | .planar422 _ => false

/-- `H` and `L` of `n` bytes at width `w` (43_yuv R220–R222). -/
def yuvSize (y : YuvFamily) (n w : Nat) : Nat × Nat :=
  if is420 y then
    let nr := ceilDiv n w
    (ceilDiv (2 * nr) 3, w * nr)
  else
    let h := ceilDiv n (2 * w)
    (h, 2 * w * h)

/-- `YuvDecode`: the element array, the bytes then zeros (43_yuv R220). -/
def yuvDecode (y : YuvFamily) (b : List Nat) (w : Nat) : List Nat := window b 0 (yuvSize y b.length w).2

/-- `YuvFrames` (43_yuv R223); a 4:2:0 frame of odd height is rejected. -/
def yuvFrames (y : YuvFamily) (img : Image) (f : Nat) : Except FaultCode Frames :=
  if f = 0 then .ok { count := 1, rows := img.h, len := img.l }
  else if is420 y then
    if f % 2 = 1 then .error .invalidGeometry
    else .ok { count := ceilDiv img.l (3 * f * img.w / 2), rows := f, len := 3 * f * img.w / 2 }
  else .ok { count := ceilDiv img.l (2 * f * img.w), rows := f, len := 2 * f * img.w }

/-- `Wp` (and `Hp` of a height): the even number at or above (43_yuv R224). -/
def padEven (x : Nat) : Nat := x + x % 2

/-- `V(i)`: the padded view of a frame's bytes (43_yuv R224). -/
def paddedView (fb : List Nat) (w i : Nat) : Nat :=
  let row := i / padEven w
  let col := i % padEven w
  if col < w ∧ row * w + col < fb.length then fb.getD (row * w + col) 0 else 0

/-- `V2(r, j)`: the padded view of a packed 4:2:2 row (43_yuv R224). -/
def packedView (fb : List Nat) (w r j : Nat) : Nat :=
  if j < 2 * w ∧ r * (2 * w) + j < fb.length then fb.getD (r * (2 * w) + j) 0 else 0

/-- The places of Y0, U, Y1 and V in a packed 4-byte group (43_yuv R229). -/
def packedPlaces : PackedOrder → Nat × Nat × Nat × Nat
  | .yuyv => (0, 1, 2, 3)
  | .uyvy => (1, 0, 3, 2)
  | .yvyu => (0, 3, 2, 1)
  | .vyuy => (1, 2, 3, 0)

/-- The planes in the order of U and V from the order of storage (43_yuv R230). -/
def planeUV (o : PlaneOrder) (ch : Nat × Nat) : Nat × Nat :=
  match o with
  | .yuv => (ch.1, ch.2)
  | .yvu => (ch.2, ch.1)

/-- `Ch0` and `Ch1` of a planar or semiplanar frame of `hf` rows (43_yuv R226–R228), 0 for the packed family, which has no
chroma plane. -/
def chroma (y : YuvFamily) (fb : List Nat) (hf w r c : Nat) : Nat × Nat :=
  let wp := padEven w
  let hp := padEven hf
  match y with
  | .semi420 _ =>
    let base := hp * wp + r / 2 * wp + 2 * (c / 2)
    (paddedView fb w base, paddedView fb w (base + 1))
  | .planar420 _ =>
    let q := hp / 2 * (wp / 2)
    let idx := r / 2 * (wp / 2) + c / 2
    (paddedView fb w (hp * wp + idx), paddedView fb w (hp * wp + q + idx))
  | .planar422 _ =>
    let q := hf * (wp / 2)
    let idx := r * (wp / 2) + c / 2
    (paddedView fb w (hf * wp + idx), paddedView fb w (hf * wp + q + idx))
  | .packed422 _ => (0, 0)

/-- `Y(r, c)` (43_yuv R225, R229). -/
def lumaAt (y : YuvFamily) (fb : List Nat) (w r c : Nat) : Nat :=
  match y with
  | .packed422 o =>
    let (p0, _, p1, _) := packedPlaces o
    packedView fb w r (4 * (c / 2) + if c % 2 = 0 then p0 else p1)
  | _ => paddedView fb w (r * padEven w + c)

/-- `(U(r, c), V(r, c))` (43_yuv R226–R230). -/
def chromaAt (y : YuvFamily) (fb : List Nat) (hf w r c : Nat) : Nat × Nat :=
  match y with
  | .packed422 o =>
    let (_, pu, _, pv) := packedPlaces o
    (packedView fb w r (4 * (c / 2) + pu), packedView fb w r (4 * (c / 2) + pv))
  | .semi420 o => planeUV o (chroma y fb hf w r c)
  | .planar420 o => planeUV o (chroma y fb hf w r c)
  | .planar422 o => planeUV o (chroma y fb hf w r c)

/-- `CSC_BT601(y, u, v)`, the reference conversion (43_yuv R236). `/` on integers is floor division here, the divisor
being positive. -/
def cscBt601 (y u v : Byte) : Byte × Byte × Byte :=
  let yy : Int := max 0 ((y.toNat : Int) - 16) * 1220542
  let uu : Int := (u.toNat : Int) - 128
  let vv : Int := (v.toNat : Int) - 128
  (BitVec.ofNat 8 (clamp255 ((yy + 1673527 * vv + 524288) / 1048576)),
   BitVec.ofNat 8 (clamp255 ((yy + -852492 * vv + -409993 * uu + 524288) / 1048576)),
   BitVec.ofNat 8 (clamp255 ((yy + 2116026 * uu + 524288) / 1048576)))

/-- The CSC parameter (00_scope R6, 43_yuv R234; log 10). -/
def csc (p : CscChoice) (y u v : Byte) : Byte × Byte × Byte :=
  match p with
  | .reference => cscBt601 y u v
  | .platform => Config.freeCsc y u v

/-- `YuvPixel` (43_yuv R232–R234): luma alone is replicated; otherwise a masked chroma plane is 0 and CSC converts. -/
def yuvPixel (p : CscChoice) (y : YuvFamily) (hf w : Nat) (fb : List Nat) (m : Nat → Bool) (r c : Nat) : Pixel :=
  let l := lumaAt y fb w r c
  if !m 1 && !m 2 then { r := l, g := l, b := l, a := 255 }
  else
    let (u, v) := chromaAt y fb hf w r c
    let u' := if m 1 then u else 0
    let v' := if m 2 then v else 0
    let (cr, cg, cb) := csc p (BitVec.ofNat 8 l) (BitVec.ofNat 8 u') (BitVec.ofNat 8 v')
    { r := cr.toNat, g := cg.toNat, b := cb.toNat, a := 255 }

/-- One channel of the tinted composite (43_yuv R237). -/
def tintSum (y u v ty tu tv : Nat) : Nat := min 255 ((y * ty + u * tu + v * tv) / 255)

/-- `YuvRawPixel` (43_yuv R237). -/
def yuvRawPixel (y : YuvFamily) (img : Image) (data : List Nat) (r c : Nat) : Pixel :=
  let l := lumaAt y data img.w r c
  let (u, v) := chromaAt y data img.h img.w r c
  let d := img.desc
  { r := tintSum l u v d.pal0.r d.pal1.r d.pal2.r
    g := tintSum l u v d.pal0.g d.pal1.g d.pal2.g
    b := tintSum l u v d.pal0.b d.pal1.b d.pal2.b
    a := 255 }

/-- The luma samples of a region, row-major: `Yp` (43_yuv R238). -/
def lumaPlane (y : YuvFamily) (img : Image) (data : List Nat) (r0 r1 c0 c1 : Nat) : List Nat :=
  region r0 r1 c0 c1 (lumaAt y data img.w)

/-- `Yuv420Crop` (43_yuv R238): luma, then the chroma at every second row and column from the region's first. -/
def yuv420Crop (y : YuvFamily) (img : Image) (data : List Nat) (r0 r1 c0 c1 : Nat) : List Nat :=
  let cells := region 0 (ceilDiv (r1 - r0) 2) 0 (ceilDiv (c1 - c0) 2) fun i j =>
    chroma y data img.h img.w (r0 + 2 * i) (c0 + 2 * j)
  lumaPlane y img data r0 r1 c0 c1 ++
    match y with
    | .semi420 _ => cells.flatMap fun ch => [ch.1, ch.2]
    | _ => cells.map (·.1) ++ cells.map (·.2)

/-- `Yuv422PlanarCrop` (43_yuv R239). -/
def yuv422PlanarCrop (y : YuvFamily) (img : Image) (data : List Nat) (r0 r1 c0 c1 : Nat) : List Nat :=
  let cells := region 0 (r1 - r0) 0 (ceilDiv (c1 - c0) 2) fun i j =>
    chroma y data img.h img.w (r0 + i) (c0 + 2 * j)
  lumaPlane y img data r0 r1 c0 c1 ++ cells.map (·.1) ++ cells.map (·.2)

/-- The 4 bytes of a packed pair with each sample at its place (43_yuv R229, R240). -/
def packedGroup (o : PackedOrder) (y0 u y1 v : Nat) : List Nat :=
  match o with
  | .yuyv => [y0, u, y1, v]
  | .uyvy => [u, y0, v, y1]
  | .yvyu => [y0, v, y1, u]
  | .vyuy => [v, y0, u, y1]

/-- `Yuv422PackedCrop` (43_yuv R240): an odd region width leaves the last pair's second luma 0. -/
def yuv422PackedCrop (o : PackedOrder) (img : Image) (data : List Nat) (r0 r1 c0 c1 : Nat) : List Nat :=
  let y := YuvFamily.packed422 o
  (region 0 (r1 - r0) 0 (ceilDiv (c1 - c0) 2) fun i j =>
    let x := c0 + 2 * j
    let (u, v) := chromaAt y data img.h img.w (r0 + i) x
    packedGroup o (lumaAt y data img.w (r0 + i) x) u
      (if x + 1 < c1 then lumaAt y data img.w (r0 + i) (x + 1) else 0) v).flatten

/-- The crop of a YUV image (40_commands R134). -/
def yuvCrop (y : YuvFamily) (img : Image) (data : List Nat) (r0 r1 c0 c1 : Nat) : List Nat :=
  match y with
  | .semi420 _ => yuv420Crop y img data r0 r1 c0 c1
  | .planar420 _ => yuv420Crop y img data r0 r1 c0 c1
  | .planar422 _ => yuv422PlanarCrop y img data r0 r1 c0 c1
  | .packed422 o => yuv422PackedCrop o img data r0 r1 c0 c1

/-- `YuvLookup` (43_yuv R241): Y, U, V whatever the storage order. -/
def yuvLookup (y : YuvFamily) (img : Image) (data : List Nat) (r c : Nat) : List Nat :=
  let (u, v) := chromaAt y data img.h img.w r c
  [lumaAt y data img.w r c, u, v]

end Sys2Proof.Machine
end

