-- ==== Sys2Proof/Machine/Commands.lean ====
section
/-! DEFINITION. The five commands (spec/40_commands.md R122–R139): what each evaluates to, a set of effects or a fault, with
its checks in the order of 60_exceptions R302, and the meanings `exec` calls. -/

namespace Sys2Proof.Machine

/-- `COMP[0 .. IMG.L − 1]`: the processed data of the latched image (10_state R45). -/
def imageData (s : State) (img : Image) : List Nat := (List.range img.l).map fun i => (compElem s i).toNat

/-- The raw bytes `IN[0 .. N − 1]` (10_state R33). -/
def rawBytes (s : State) (n : Nat) : List Nat := (List.range n).map fun i => (inByte s i).toNat

/-- `H`, `L` and the path of a DECODE of `n` bytes at width `w` (42_rgb R191, 43_yuv R220, 44_bayer R260, 45_gray R290). -/
def decodedSize (fam : Family) (d : Descriptor) (n w : Nat) : Nat × Nat × Bool :=
  match fam with
  | .rgb _ => (unpackHeight false d n w, 4 * (w * unpackHeight false d n w), (selectPath false d).isSubbyte)
  | .yuv y => ((yuvSize y n w).1, (yuvSize y n w).2, false)
  | .gray => (unpackHeight true d n w, w * unpackHeight true d n w, (selectPath true d).isSubbyte)
  | .bayer _ => (unpackHeight true d n w, w * unpackHeight true d n w, (selectPath true d).isSubbyte)

/-- The element array of a DECODE (40_commands R122). -/
def decodedElems (fam : Family) (d : Descriptor) (e : Endian) (b : List Nat) (w : Nat) : List Nat :=
  match fam with
  | .rgb _ => rgbDecode d e b w
  | .yuv y => yuvDecode y b w
  | .gray => grayDecode d e b w
  | .bayer _ => bayerDecode d e b w

/-- DECODE's checks up to the input's length, in order (40_commands R122, 60_exceptions R302 (1) to (6)). -/
def decodeCheck (s : State) : Except FaultCode Family :=
  if s.regs.endianSel = 3 then .error .illegalCommand
  else match dispatch s.regs.layout s.regs.order with
    | none => .error .unsupportedFormat
    | some c => match checkDescriptor c s.regs.descriptor with
      | .error f => .error f
      | .ok fam =>
        if s.regs.width.toNat = 0 then .error .invalidGeometry
        else if s.impl.inMemBytes < s.regs.inLen.toNat then .error .capacityExceeded
        else .ok fam

/-- The image a DECODE of family `fam` latches (40_commands R123): the descriptor with the effective byte order, the
family, the path and the sizes. -/
def decodedImage (s : State) (fam : Family) : Image :=
  let d := s.regs.descriptor
  let (h, l, sub) := decodedSize fam d s.regs.inLen.toNat s.regs.width.toNat
  { desc := { d with endian := effectiveOrder d.endian s.regs.endianSel }
    family := fam
    subbyte := sub
    w := s.regs.width.toNat
    h := h
    l := l }

/-- The elements a DECODE of family `fam` writes to COMP (40_commands R122, R123). -/
def decodedComp (s : State) (fam : Family) : List Nat :=
  let d := s.regs.descriptor
  decodedElems fam d (effectiveOrder d.endian s.regs.endianSel)
    (byteReverse (rawBytes s s.regs.inLen.toNat) s.regs.reverseGroup.toNat) s.regs.width.toNat

/-- DECODE (40_commands R122, R123). -/
def decodeEffects (s : State) : Except FaultCode Effects :=
  match decodeCheck s with
  | .error f => .error f
  | .ok fam =>
    if s.impl.compMemWords < (decodedImage s fam).l then .error .capacityExceeded
    else .ok
      { decoded := some (decodedImage s fam, (decodedComp s fam).map (BitVec.ofNat 16))
        outBytes := none
        results := s.results
        none := false }

/-- The frames of a RENDER, with the family's own checks: a YUV image needs its luma flag (43_yuv R231), and a 4:2:0 one an
even frame height (43_yuv R223). -/
def renderFrames (img : Image) (m : Nat → Bool) (f : Nat) : Except FaultCode Frames :=
  match img.family with
  | .rgb _ => .ok (plainFrames img 4 f)
  | .gray => .ok (plainFrames img 1 f)
  | .bayer _ => .ok (plainFrames img 1 f)
  | .yuv y => if !m 0 then .error .invalidChannelMask else yuvFrames y img f

/-- The pixels of one frame `fb` of a RENDER (40_commands R126). -/
def framePixel (p : Impl) (img : Image) (fr : Frames) (m : Nat → Bool) (fb : List Nat) : Nat → Nat → Pixel :=
  match img.family with
  | .rgb o => rgbPixel img.desc o img.w fb m
  | .yuv y => yuvPixel p.csc y fr.rows img.w fb m
  | .bayer o => bayerPixel p.demosaic o fr.rows img.w (mosaic o img.desc.bpc0 fr.rows img.w fb m)
  | .gray => grayPixel img.desc img.w fb

/-- The bytes a RENDER of the latched image writes (40_commands R126, R128). -/
def renderBytes (s : State) (img : Image) (fr : Frames) : List Nat :=
  raster fr.count fr.rows img.w fun k =>
    framePixel s.impl img fr s.regs.maskBit (frameData (imageData s img) fr k)

/-- The result registers after a command that wrote a raster or a region (10_state R44). -/
def Results.withOut (r : Results) (len count rows : Nat) : Results :=
  { r with
    outLen := BitVec.ofNat 32 len
    frameCount := BitVec.ofNat 32 count
    frameRows := BitVec.ofNat 32 rows }

/-- RENDER (40_commands R126). -/
def renderEffects (s : State) : Except FaultCode Effects :=
  match s.img with
  | none => .error .notDecoded
  | some img => match renderFrames img s.regs.maskBit s.regs.frameHeight.toNat with
    | .error f => .error f
    | .ok fr =>
      if s.impl.outMemBytes < fr.count * fr.rows * img.w * 4 then .error .capacityExceeded
      else .ok
        { decoded := none
          outBytes := some (toBytes (renderBytes s img fr))
          results := s.results.withOut (fr.count * fr.rows * img.w * 4) fr.count fr.rows
          none := false }

/-- The pixels of a RAW_COLOR raster, for an image that has one: not RGB, not GRAY, with a palette (40_commands R130,
42_rgb R200, 45_gray R293). -/
def rawPixel (s : State) (img : Image) : Option (Nat → Nat → Pixel) :=
  if img.desc.palEn then
    match img.family with
    | .rgb _ => none
    | .gray => none
    | .yuv y => some (yuvRawPixel y img (imageData s img))
    | .bayer _ => some (bayerRawPixel img (imageData s img))
  else none

/-- RAW_COLOR (40_commands R130, R131). -/
def rawColorEffects (s : State) : Except FaultCode Effects :=
  match s.img with
  | none => .error .notDecoded
  | some img => match rawPixel s img with
    | none => .ok { decoded := none, outBytes := none, results := s.results.withOut 0 0 0, none := true }
    | some px =>
      if s.impl.outMemBytes < img.h * img.w * 4 then .error .capacityExceeded
      else .ok
        { decoded := none
          outBytes := some (toBytes (raster 1 img.h img.w fun _ => px))
          results := s.results.withOut (img.h * img.w * 4) 1 img.h
          none := false }

/-- The bytes of a region in the latched layout (40_commands R134). -/
def cropBytes (img : Image) (data : List Nat) (r0 r1 c0 c1 : Nat) : List Nat :=
  match img.family with
  | .rgb _ => rgbCrop img data r0 r1 c0 c1
  | .yuv y => yuvCrop y img data r0 r1 c0 c1
  | .bayer _ => bayerCrop img data r0 r1 c0 c1
  | .gray => grayCrop img data r0 r1 c0 c1

/-- The bytes of the region ROW0, ROW1, COL0, COL1 of the latched image. -/
def regionBytes (s : State) (img : Image) : List Nat :=
  cropBytes img (imageData s img) s.regs.row0.toNat s.regs.row1.toNat s.regs.col0.toNat s.regs.col1.toNat

/-- The region lies in the image (40_commands R135). -/
def regionOk (g : Regs) (img : Image) : Bool :=
  decide (g.row0.toNat ≤ g.row1.toNat ∧ g.row1.toNat ≤ img.h ∧ g.col0.toNat ≤ g.col1.toNat ∧ g.col1.toNat ≤ img.w)

/-- CROP_TO_RAW (40_commands R134, R135). -/
def cropEffects (s : State) : Except FaultCode Effects :=
  match s.img with
  | none => .error .notDecoded
  | some img =>
    if !regionOk s.regs img then .error .invalidGeometry
    else if s.impl.outMemBytes < (regionBytes s img).length then .error .capacityExceeded
    else .ok
      { decoded := none
        outBytes := some (toBytes (regionBytes s img))
        results := s.results.withOut (regionBytes s img).length 0 0
        none := false }

/-- The raw component values at a pixel (40_commands R138). -/
def lookupVals (img : Image) (data : List Nat) (r c : Nat) : List Nat :=
  match img.family with
  | .rgb _ => rgbLookup img data r c
  | .yuv y => yuvLookup y img data r c
  | .bayer _ => bayerLookup img data r c
  | .gray => grayLookup img data r c

/-- PIX_COUNT and PIX_VAL0..3, the unused ones 0 (10_state R44, 40_commands R138). -/
def Results.withPix (r : Results) (vals : List Nat) : Results :=
  { r with
    pixCount := BitVec.ofNat 3 vals.length
    pixVal0 := BitVec.ofNat 16 (vals.getD 0 0)
    pixVal1 := BitVec.ofNat 16 (vals.getD 1 0)
    pixVal2 := BitVec.ofNat 16 (vals.getD 2 0)
    pixVal3 := BitVec.ofNat 16 (vals.getD 3 0) }

/-- PIXEL_COMPONENTS (40_commands R138, R139): the pixel is `(PIX_ROW, PIX_COL)`; no flat index is read. -/
def pixelEffects (s : State) : Except FaultCode Effects :=
  match s.img with
  | none => .error .notDecoded
  | some img =>
    if img.h ≤ s.regs.pixRow.toNat ∨ img.w ≤ s.regs.pixCol.toNat then .error .invalidGeometry
    else .ok
      { decoded := none
        outBytes := none
        results := s.results.withPix
          (lookupVals img (imageData s img) s.regs.pixRow.toNat s.regs.pixCol.toNat)
        none := false }

/-- The meaning of DECODE (40_commands R122). -/
def execDecode (s : State) : Host.Outcome State Fault Refusal := .next (complete s (decodeEffects s))

/-- The meaning of RENDER (40_commands R126). -/
def execRender (s : State) : Host.Outcome State Fault Refusal := .next (complete s (renderEffects s))

/-- The meaning of RAW_COLOR (40_commands R130). -/
def execRawColor (s : State) : Host.Outcome State Fault Refusal := .next (complete s (rawColorEffects s))

/-- The meaning of CROP_TO_RAW (40_commands R134). -/
def execCropToRaw (s : State) : Host.Outcome State Fault Refusal := .next (complete s (cropEffects s))

/-- The meaning of PIXEL_COMPONENTS (40_commands R138). -/
def execPixelComponents (s : State) : Host.Outcome State Fault Refusal := .next (complete s (pixelEffects s))

/-- An illegal command word completes with fault IllegalCommand and no other effect (30_encoding R92, 40_commands R121). -/
def illegalWord (s : State) : Host.Outcome State Fault Refusal := .next (complete s (.error .illegalCommand))

end Sys2Proof.Machine
end

