-- ==== Sys2Proof/Machine/Dispatch.lean ====
section
/-! DEFINITION. One arm per command: its meaning (spec/40_commands.md R121). -/

namespace Sys2Proof.Machine

/-- The executing command's rule (40_commands R121). -/
def exec (i : Instr) (s : State) : Host.Outcome State Fault Refusal :=
  match i with
  | .decode => Sys2Proof.Machine.execDecode s
  | .render => Sys2Proof.Machine.execRender s
  | .rawColor => Sys2Proof.Machine.execRawColor s
  | .cropToRaw => Sys2Proof.Machine.execCropToRaw s
  | .pixelComponents => Sys2Proof.Machine.execPixelComponents s

end Sys2Proof.Machine
end

