-- ==== Sys2Proof/Machine/Step.lean ====
section
/-! DEFINITION. One step of the machine: the engine's completion of the pending command, or one action of the host
(spec/70_reset_and_hazards.md R350–R352, 40_commands R120, R121). -/

namespace Sys2Proof.Machine

/-- One step. When it is the engine's turn the pending word is decoded and its command executed; every other word
completes with IllegalCommand (40_commands R121). Otherwise the host moves. -/
def step (s : State) : Host.Outcome State Fault Refusal :=
  match fetch s with
  | some w => match decode w with
    | some i => exec i s
    | none => illegalWord s
  | none => hostStep s

/-- The command word `w`, accepted with its completion the very next step: PENDING <- w and the flags an acceptance clears
(40_commands R120). It stands for a host's COMMAND write (log 7). -/
def State.withFetchWord (s : State) (nbits w : Nat) : State := placeCommand s (BitVec.ofNat 32 (w % 2 ^ nbits))

end Sys2Proof.Machine
end

