-- ==== Sys2Proof/Machine/Assembler.lean ====
section
/-! DEFINITION. The host assembler: the bus operations of its statements and the expansions of its pseudo-instructions
(spec/30_encoding.md R106, R107). Addresses are host-bus addresses, BASE plus the aperture offset (20_memory R61). -/

namespace Sys2Proof.Machine

/-- `WR <REG>, v` (30_encoding R106). -/
def wrReg (base : Nat) (r : Reg) (v : Word) : HostAct := .write (base + r.offset) 4 v

/-- `WRB IN[i], b` (30_encoding R106). -/
def wrbIn (base i : Nat) (b : Byte) : HostAct := .write (base + 0x10000000 + i) 1 (b.setWidth 32)

/-- `LOAD IN[i], (b0, …, bk)` = one WRB per byte (30_encoding R107). -/
def loadIn (base : Nat) : Nat → List Byte → List HostAct
  | _, [] => []
  | i, b :: bs => wrbIn base i b :: loadIn base (i + 1) bs

/-- What a statement has the host do (30_encoding R106, R107). -/
def expand (base : Nat) : HostStmt → List HostAct
  | .wr r v => [wrReg base r v]
  | .rd r => [.read (base + r.offset) 4]
  | .wrb i b => [wrbIn base i b]
  | .wrw i w => [.write (base + 0x10000000 + i) 4 w]
  | .rdb i => [.read (base + 0x20000000 + i) 1]
  | .rdw i => [.read (base + 0x20000000 + i) 4]
  | .rdc i => [.read (base + 0x30000000 + 4 * i) 4]
  | .cmd i => [wrReg base .command (encode i)]
  | .wait => [.wait]
  | .load i bs => loadIn base i bs
  | .clr => [wrReg base .status 0x00000026]
  | .srst => [wrReg base .ctrl 0x00000001]

/-- The state with the host about to run a program after what it has left to do (log 7). -/
def loadProgram (s : State) (p : List HostStmt) : State := { s with host := s.host ++ p.flatMap (expand s.impl.base) }

end Sys2Proof.Machine
end

