-- ==== Sys2Proof/Safety.lean ====
section
/-! DEFINITION. What holds of every state a run reaches: the canonical memories, the reserved bits, the status flags and the
latched image. Each is kept by every step and holds after reset (Certificates/Slice0/Obligations.lean states it). -/

namespace Sys2Proof.Machine

/-- The memories are in canonical form, every written cell inside its memory (10_state R40–R42; log 16). -/
abbrev memInv (s : State) : Prop :=
  s.inMem.wf s.impl.inMemBytes = true ∧ s.comp.wf s.impl.compMemWords = true ∧ s.out.wf s.impl.outMemBytes = true

/-- The reserved bits of the operand registers are 0 (10_state R22, R23). -/
abbrev regInv (g : Regs) : Prop :=
  g.fmt &&& 0xFFF08CE0 = 0 ∧ g.bpc &&& 0xE0E0E0E0 = 0 ∧ g.sub &&& 0xFFFFF0F0 = 0 ∧
    (g.pal0 &&& 0xFF000000 = 0 ∧ g.pal1 &&& 0xFF000000 = 0 ∧ g.pal2 &&& 0xFF000000 = 0 ∧ g.pal3 &&& 0xFF000000 = 0) ∧
    g.decOpts &&& 0xFFFFFFFC = 0 ∧ g.chMask &&& 0xFFFFFFF0 = 0

/-- STATUS agrees with itself: ERRCODE is 0 exactly when ERR is 0 and never above 7 (10_state R25, 60_exceptions R300);
while BUSY = 1 neither DONE nor ERR is set (40_commands R120); they are never both set (60_exceptions R316). -/
abbrev statusInv (s : State) : Prop :=
  (s.status.err = false ↔ s.status.errcode = 0) ∧ s.status.errcode.toNat ≤ 7 ∧
    (s.busy = true → s.status.done = false ∧ s.status.err = false) ∧ ¬(s.status.done = true ∧ s.status.err = true)

/-- The sizes of an image of a family (41_unpack R167, 43_yuv R220, R242). -/
abbrev sizesOk (img : Image) : Prop :=
  match img.family with
  | .rgb _ => img.l = 4 * (img.w * img.h)
  | .gray => img.l = img.w * img.h
  | .bayer _ => img.l = img.w * img.h
  | .yuv y =>
    if is420 y then img.l % img.w = 0 ∧ img.h = ceilDiv (2 * (img.l / img.w)) 3 else img.l = 2 * img.w * img.h

/-- The path an image of a family was unpacked by (41_unpack R155, 43_yuv R220). -/
abbrev pathOk (img : Image) : Prop :=
  match img.family with
  | .rgb _ => img.subbyte = (selectPath false img.desc).isSubbyte
  | .gray => img.subbyte = (selectPath true img.desc).isSubbyte
  | .bayer _ => img.subbyte = (selectPath true img.desc).isSubbyte
  | .yuv _ => img.subbyte = false

/-- An image a DECODE can latch: a descriptor that passes its checks, a width of at least 1, and the family's sizes. -/
abbrev imageOk (img : Image) : Prop :=
  checkDescriptor img.family.codec img.desc = .ok img.family ∧ 1 ≤ img.w ∧ sizesOk img ∧ pathOk img

/-- The width in bits of element `i` of an image's array: a slot's width for RGB, with the widest width for an absent slot,
BPC0 for GRAY and BAYER, 8 for YUV (42_rgb R191, R192, 44_bayer R260, 43_yuv R220). -/
def elemWidth (img : Image) (i : Nat) : Nat :=
  match img.family with
  | .rgb _ => if 0 < img.desc.width (i % 4) then img.desc.width (i % 4) else img.desc.widthMax
  | .gray => img.desc.bpc0
  | .bayer _ => img.desc.bpc0
  | .yuv _ => 8

/-- What the latched image says of COMP (10_state R40, R45): it fits the memory, its elements are all written, and each
fits its component's width. -/
abbrev imageInv (s : State) : Prop :=
  ∀ img, s.img = some img → imageOk img ∧ img.l ≤ s.impl.compMemWords ∧
    ∀ i, i < img.l → ∃ e, lookupCell s.comp.cells i = some e ∧ e.toNat < 2 ^ elemWidth img i

end Sys2Proof.Machine
end

