-- ==== Sys2Proof/Certificates/Slice0/Obligations.lean ====
section
/-! DEFINITION. The statements for the provers. First the words they are written in: what a fault and a completion leave,
and the spec's own formulas over the registers and memories; then one definition per statement. -/

namespace Sys2Proof.Claims

open Sys2Proof.Machine

/-- What fault entry leaves (60_exceptions R303): ERR, ERRCODE, NONE, PENDING (so BUSY), and nothing else. -/
def faulted (s : State) (code : BitVec 4) : State :=
  { s with pending := none, latency := 0, status := { s.status with err := true, errcode := code, none := false } }

/-- A completion without a fault (40_commands R120): PENDING is empty, DONE is 1, NONE is written, no other flag changes. -/
def completed (s t : State) (noneFlag : Bool) : Prop :=
  t.pending = none ∧ t.status = { s.status with done := true, none := noneFlag }

/-- The registers, IN, and the model's own fields but the count of draws, that no command writes. -/
def keepsHostSide (s t : State) : Prop :=
  t.regs = s.regs ∧ (∀ a, inByte t a = inByte s a) ∧ t.impl = s.impl ∧ t.host = s.host ∧ t.reads = s.reads

/-- The latched image, COMP and the image registers are as before. -/
def keepsImage (s t : State) : Prop := t.img = s.img ∧ ∀ a, compElem t a = compElem s a

/-- OUT holds the `len` bytes `f`, and every byte from `len` up is a draw made at this completion (93 U2). -/
def outIs (s t : State) (len : Nat) (f : Nat → Nat) : Prop :=
  (∀ a, a < len → outByte t a = BitVec.ofNat 8 (f a)) ∧ ∀ a, len ≤ a → outByte t a = Config.freeOutByte s.draws a

/-- OUT_LEN, FRAME_COUNT and FRAME_ROWS are written, and PIX_COUNT and PIX_VAL0..3 are as before. -/
def outRegs (s t : State) (len count rows : Nat) : Prop :=
  t.results = { s.results with outLen := BitVec.ofNat 32 len, frameCount := BitVec.ofNat 32 count,
                               frameRows := BitVec.ofNat 32 rows }

/-- `E` of a DECODE (41_unpack R151). -/
def order (s : State) : Endian := effectiveOrder s.regs.descriptor.endian s.regs.endianSel

/-- Byte `i` of the buffer after the byte-reverse pre-pass (41_unpack R156), 0 past its end. -/
def bufByte (s : State) (i : Nat) : Nat :=
  let n := s.regs.inLen.toNat
  let g := s.regs.reverseGroup.toNat
  if n ≤ i then 0
  else if 2 ≤ g ∧ i < g * (n / g) then (inByte s (i / g * g + (g - 1 - i % g))).toNat
  else (inByte s i).toNat

/-- The number `k` bytes stand for: `Σ b_j·256^(k−1−j)` when BIG, `Σ b_j·256^j` when LITTLE (20_memory R71). -/
def bytesNum (e : Endian) (k : Nat) (b : Nat → Nat) : Nat :=
  match e with
  | .big => ((List.range k).map fun j => b j * 256 ^ (k - 1 - j)).sum
  | .little => ((List.range k).map fun j => b j * 256 ^ j).sum

/-- The `w` bits of a number of `8·t` bits that start `lo` bits below its most significant bit (41_unpack R161). -/
def bitsAt (x t lo w : Nat) : Nat := x / 2 ^ (8 * t - lo - w) % 2 ^ w

/-- How many slots below `i` are present (41_unpack R157). -/
def presentBelow (d : Descriptor) (i : Nat) : Nat := ((List.range i).filter fun k => decide (0 < d.width k)).length

/-- The widths of the slots below `i` added up (41_unpack R161). -/
def widthBelow (d : Descriptor) (i : Nat) : Nat := ((List.range i).map d.width).sum

/-- The read-write registers of 10_state R23. -/
def readWrite (r : Reg) : Bool :=
  r ∉ [Reg.ctrl, .status, .command, .imgWidth, .imgHeight, .imgLen, .imgFamily, .outLen, .frameCount, .frameRows,
    .pixCount, .pixVal0, .pixVal1, .pixVal2, .pixVal3]

/-- The four commands that read the latched image. -/
def readsImage (i : Instr) : Bool := i ≠ .decode

/-- Row `r` of frame `k` is an image row, and not padding (40_commands R127). -/
def elemOf (s : State) (img : Image) (cpp rows k r c i : Nat) : Nat :=
  if k * rows + r < img.h then (compElem s (((k * rows + r) * img.w + c) * cpp + i)).toNat else 0

/-- `K` and `Fh` of an RGB, GRAY or BAYER image at frame height `f` (40_commands R127). -/
def frameCountOf (img : Image) (f : Nat) : Nat := if f = 0 then 1 else ceilDiv img.h f

def frameRowsOf (img : Image) (f : Nat) : Nat := if f = 0 then img.h else f

/-- The OUT offset of byte `ch` of pixel `(r, c)` of frame `k` (40_commands R128). -/
def outAt (rows w k r c ch : Nat) : Nat := ((k * rows + r) * w + c) * 4 + ch

/-- A RENDER's raster: its result registers, the bytes of each pixel, and the draws beyond it (40_commands R126, R128). -/
def rastered (s t : State) (count rows w : Nat) (px : Nat → Nat → Nat → Nat × Nat × Nat × Nat) : Prop :=
  outRegs s t (count * rows * w * 4) count rows ∧
    (∀ k r c, k < count → r < rows → c < w →
      outByte t (outAt rows w k r c 0) = BitVec.ofNat 8 (px k r c).1 ∧
      outByte t (outAt rows w k r c 1) = BitVec.ofNat 8 (px k r c).2.1 ∧
      outByte t (outAt rows w k r c 2) = BitVec.ofNat 8 (px k r c).2.2.1 ∧
      outByte t (outAt rows w k r c 3) = BitVec.ofNat 8 (px k r c).2.2.2) ∧
    ∀ a, count * rows * w * 4 ≤ a → outByte t a = Config.freeOutByte s.draws a

end Sys2Proof.Claims

open Sys2Proof Sys2Proof.Machine Sys2Proof.Claims

/-! ## Encoding -/

/-- The words of the opcode table, and three that no command has. -/
def Obligations.OpcodeTableWordsDecode : Prop :=
  decode 0x00000001 = some .decode ∧ decode 0x00000002 = some .render ∧ decode 0x00000003 = some .rawColor ∧
    decode 0x00000004 = some .cropToRaw ∧ decode 0x00000005 = some .pixelComponents ∧
    decode 0x00000000 = none ∧ decode 0x00000006 = none ∧ decode 0x00000101 = none ∧
    decodeTableWord 32 3 = some .rawColor ∧ decodeTableWord 32 0x80000001 = none

/-- 30_encoding R91: a command is selected by its one word and by no other. -/
def Obligations.WordSelectsCommandExactly : Prop :=
  (∀ (w : Word) (i : Instr), decode w = some i ↔ w = encode i) ∧
    encode .decode = 0x01 ∧ encode .render = 0x02 ∧ encode .rawColor = 0x03 ∧ encode .cropToRaw = 0x04 ∧
    encode .pixelComponents = 0x05

/-- 30_encoding R104: the dispatcher's table, both ways: each family's (LAYOUT, ORDER) selects its codec, and a pair that
selects a codec is a family's pair. -/
def Obligations.DispatcherTableRoundTrip : Prop :=
  (∀ f : Family, dispatch f.layout.code f.order.code = some f.codec) ∧
    ∀ l o c, l < 4 → o < 32 → dispatch l o = some c →
      ∃ f : Family, f.codec = c ∧ f.layout.code = l ∧ f.order.code = o

/-- 41_unpack R165: the encoded chunks, read back by R161, are the groups and then zero groups. A chunk's length at a width
sum of 64 is the model's reading of R160 (log 25), here and in the other statements of the sub-byte path. -/
def Obligations.SubbyteEncodingReadsBack : Prop :=
  ∀ (d : Descriptor) (e : Endian) (groups : List (List Nat)), 1 ≤ d.widthSum →
    (∀ g ∈ groups, g.length = d.compCount ∧ ∀ j, j < d.compCount → g.getD j 0 < 2 ^ d.widths.getD j 0) →
    let t := Nat.lcm d.widthSum 8 / 8
    let gs := 8 * t / d.widthSum
    let bytes := subbyteEncode d e groups
    bytes.length = ceilDiv groups.length gs * t ∧
      ∀ g j, g < ceilDiv groups.length gs * gs → j < d.compCount →
        subbyteComp d e bytes g j = if g < groups.length then (groups.getD g []).getD j 0 else 0

/-! ## Reset and the invariants -/

/-- 70_reset R330: every register reads its reset value, PENDING is empty, there is no image; the memories' bytes are the
draws of the first epoch, unspecified as R331 says (log 2, 3). -/
def Obligations.ResetLeavesResetValues : Prop :=
  (∀ r : Reg, readReg State.reset r = if r = .sub then 0x00000101 else if r = .chMask then 0x0000000F else 0) ∧
    State.reset.pending = none ∧ State.reset.img = none ∧ State.reset.busy = false ∧
    (∀ a, inByte State.reset a = Config.freeInByte 0 a) ∧ (∀ a, compElem State.reset a = Config.freeCompElem 0 a) ∧
    ∀ a, outByte State.reset a = Config.freeOutByte 0 a

/-- The invariants hold after reset; the parameters at reset are the model's choice (log 1). -/
def Obligations.ResetMeetsInvariants : Prop :=
  memInv State.reset ∧ regInv State.reset.regs ∧ statusInv State.reset ∧ imageInv State.reset ∧ State.reset.impl.wf

/-- Every step keeps the memories canonical, with every written cell inside its memory; the canonical form is the model's
(log 16). -/
def Obligations.StepKeepsMemoriesCanonical : Prop := ∀ s t : State, memInv s → step s = .next t → memInv t

/-- Every step keeps the reserved bits of the operand registers 0 (10_state R22). -/
def Obligations.StepKeepsReservedBitsZero : Prop := ∀ s t : State, regInv s.regs → step s = .next t → regInv t.regs

/-- Every step keeps STATUS consistent: ERRCODE goes with ERR, neither DONE nor ERR is set while BUSY, never both. -/
def Obligations.StepKeepsStatusConsistent : Prop := ∀ s t : State, statusInv s → step s = .next t → statusInv t

/-- Every step keeps the latched image a decodable one whose elements are all in COMP and fit their widths. -/
def Obligations.StepKeepsImageInvariant : Prop := ∀ s t : State, imageInv s → step s = .next t → imageInv t

/-! ## Steps and the command life cycle -/

/-- When PENDING holds a command's word and it is the engine's turn, the step is that command, and moves nothing else; so it
is for the word `withFetchWord` places. Whose turn it is, is the model's (log 5, 7). -/
def Obligations.StepRunsDecodedCommand : Prop :=
  (∀ (s : State) (w : Word) (i : Instr), s.pending = some w → engineTurn s = true → decode w = some i →
      step s = exec i s) ∧
    ∀ (s : State) (w : Nat) (i : Instr), decodeTableWord 32 w = some i →
      step (s.withFetchWord 32 w) = exec i (s.withFetchWord 32 w)

/-- 30_encoding R92: an illegal word is accepted and completes with IllegalCommand, code 6, and no other effect. -/
def Obligations.IllegalWordCompletesWithFault : Prop :=
  ∀ (s : State) (w : Word), (w.extractLsb' 0 8 = 0 ∨ 6 ≤ (w.extractLsb' 0 8).toNat ∨ w.extractLsb' 8 24 ≠ 0) →
    (s.busy = false → (writeReg s .command w).pending = some w ∧ (writeReg s .command w).busy = true) ∧
      (s.pending = some w → engineTurn s = true → step s = .next (faulted s 6))

/-- When it is not the engine's turn the host's next action is the step, and with nothing to do the state stays. The queue and
the idle step are the model's (log 5, 7, 9, 23). -/
def Obligations.OtherwiseTheHostMoves : Prop :=
  ∀ s : State, (s.pending = none ∨ engineTurn s = false) →
    (s.host = [] → step s = .next s) ∧
      ∀ a rest, s.host = a :: rest →
        (∀ t, hostAct s a = .ok t → step s = .next t) ∧ ∀ r, hostAct s a = .error r → step s = .refused r

/-- 70_reset R351: a pending command completes, or is abandoned by a reset, after finitely many steps, at most the drawn
number of host steps and one; the only other end is a refused host access. The bound is the model's draw (log 5, 9). -/
def Obligations.PendingCommandCompletes : Prop :=
  ∀ (s : State) (w : Word), s.pending = some w →
    ∃ k, k ≤ min s.latency s.host.length + 1 ∧
      match Host.Core.run Sys2Proof.core k s with
      | .next t => State.pending t = none
      | .refused _ => True
      | .fault _ => False

/-- 10_state R27: an idle COMMAND write starts a command and clears DONE, ERR and ERRCODE; a busy one only sets WWB; a
read returns 0. The draw and the latency are the model's own fields (log 5, 6). -/
def Obligations.CommandWriteStartsCommand : Prop :=
  ∀ (s : State) (w : Word),
    (s.busy = false → ∃ t, memWrite s 0x008 4 w = .ok t ∧ t.pending = some w ∧ t.busy = true ∧
      t.status = { s.status with done := false, err := false, errcode := 0 } ∧
      { t with pending := s.pending, status := s.status, latency := s.latency, draws := s.draws } = s) ∧
      (s.busy = true → memWrite s 0x008 4 w = .ok { s with status := { s.status with wwb := true } }) ∧
      memRead s 0x008 4 = .ok (0, s)

/-- 60_exceptions R316: after a completion exactly one of DONE and ERR is set, ERRCODE being non-zero only with ERR, and
BUSY is 0. -/
def Obligations.CompletionSetsDoneOrErr : Prop :=
  ∀ s : State, statusInv s → s.busy = true → engineTurn s = true →
    ∃ t, step s = .next t ∧ t.busy = false ∧
      ((t.status.done = true ∧ t.status.err = false ∧ t.status.errcode = 0) ∨
        (t.status.done = false ∧ t.status.err = true ∧ t.status.errcode ≠ 0))

/-- 60_exceptions R303, R304: a command that faults changes STATUS and PENDING and nothing else. -/
def Obligations.FaultChangesOnlyStatus : Prop :=
  ∀ (i : Instr) (s t : State), exec i s = .next t → s.status.err = false → t.status.err = true →
    t = faulted s t.status.errcode ∧ 1 ≤ t.status.errcode.toNat ∧ t.status.errcode.toNat ≤ 7

/-! ## Faults -/

/-- 70_reset R335: without a latched image the four commands that read it fault NotDecoded, code 3. -/
def Obligations.NotDecodedBeforeFirstDecode : Prop :=
  (∀ (i : Instr) (s : State), readsImage i = true → s.img = none → exec i s = .next (faulted s 3)) ∧
    State.reset.img = none ∧ ∀ s : State, (softReset s).img = none

/-- 60_exceptions R302, DECODE: each check in order, the earlier ones having passed. -/
def Obligations.DecodeFaultsInOrder : Prop :=
  ∀ s : State,
    let d := s.regs.descriptor
    (s.regs.endianSel = 3 → exec .decode s = .next (faulted s 6)) ∧
      (s.regs.endianSel ≠ 3 →
        (dispatch s.regs.layout s.regs.order = none → exec .decode s = .next (faulted s 1)) ∧
        ∀ c, dispatch s.regs.layout s.regs.order = some c →
          let general := d.subH = 0 ∨ d.subV = 0 ∨ 16 < d.bpc0 ∨ 16 < d.bpc1 ∨ 16 < d.bpc2 ∨ 16 < d.bpc3 ∨
            d.bpc0 + d.bpc1 + d.bpc2 + d.bpc3 = 0
          (general → exec .decode s = .next (faulted s 2)) ∧
          (¬general →
            (∀ o, c = .rgb o →
              (d.width (rgbSlots o).1 = 0 ∨ d.width (rgbSlots o).2.1 = 0 ∨ d.width (rgbSlots o).2.2.1 = 0 ∨
                ((o = .rgb ∨ o = .bgr) ∧ d.bpc3 ≠ 0) ∨ d.shift ≠ 0) → exec .decode s = .next (faulted s 2)) ∧
            ((c = .gray ∨ ∃ o, c = .bayer o) →
              (d.bpc0 = 0 ∨ d.bpc1 ≠ 0 ∨ d.bpc2 ≠ 0 ∨ d.bpc3 ≠ 0 ∨ (d.subbyte = false ∧ 16 < d.bpc0 + d.shift) ∨
                (d.subbyte = true ∧ d.shift ≠ 0)) → exec .decode s = .next (faulted s 2)) ∧
            (((∃ o, c = .yuvPacked o) ∨ (∃ o, c = .yuvSemi o) ∨ ∃ o, c = .yuvPlanar o) →
              (¬(d.bpc0 = 8 ∧ d.bpc1 = 8 ∧ d.bpc2 = 8 ∧ d.bpc3 = 0) ∨ d.subbyte = true ∨ d.shift ≠ 0 ∨
                familyOf c d.subH d.subV = none) → exec .decode s = .next (faulted s 1))) ∧
          ∀ fam, checkDescriptor c d = .ok fam →
            (s.regs.width.toNat = 0 → exec .decode s = .next (faulted s 5)) ∧
            (s.regs.width.toNat ≠ 0 →
              (s.impl.inMemBytes < s.regs.inLen.toNat → exec .decode s = .next (faulted s 7)) ∧
              (s.regs.inLen.toNat ≤ s.impl.inMemBytes → s.impl.compMemWords < (decodedImage s fam).l →
                exec .decode s = .next (faulted s 7))))

/-- 60_exceptions R302, RENDER: InvalidChannelMask for a YUV image with the Y flag 0 (43_yuv R231), then InvalidGeometry for
an odd 4:2:0 frame height (R223), then CapacityExceeded. -/
def Obligations.RenderFaultsInOrder : Prop :=
  ∀ (s : State) (img : Image), s.img = some img →
    (∀ y, img.family = .yuv y →
      (s.regs.maskBit 0 = false → exec .render s = .next (faulted s 4)) ∧
      (s.regs.maskBit 0 = true → is420 y = true → s.regs.frameHeight.toNat % 2 = 1 →
        exec .render s = .next (faulted s 5))) ∧
      ∀ fr, renderFrames img s.regs.maskBit s.regs.frameHeight.toNat = .ok fr →
        s.impl.outMemBytes < fr.count * fr.rows * img.w * 4 → exec .render s = .next (faulted s 7)

/-- 40_commands R135, R138 and 60_exceptions R302: RAW_COLOR, CROP_TO_RAW and PIXEL_COMPONENTS of a latched image. -/
def Obligations.ReadersFaultInOrder : Prop :=
  ∀ (s : State) (img : Image), s.img = some img →
    (((∃ y, img.family = .yuv y) ∨ ∃ o, img.family = .bayer o) → img.desc.palEn = true →
        s.impl.outMemBytes < img.h * img.w * 4 → exec .rawColor s = .next (faulted s 7)) ∧
      ((s.regs.row1.toNat < s.regs.row0.toNat ∨ s.regs.col1.toNat < s.regs.col0.toNat ∨ img.h < s.regs.row1.toNat ∨
          img.w < s.regs.col1.toNat) → exec .cropToRaw s = .next (faulted s 5)) ∧
      (s.regs.row0.toNat ≤ s.regs.row1.toNat → s.regs.row1.toNat ≤ img.h → s.regs.col0.toNat ≤ s.regs.col1.toNat →
        s.regs.col1.toNat ≤ img.w → s.impl.outMemBytes < (regionBytes s img).length →
        exec .cropToRaw s = .next (faulted s 7)) ∧
      ((img.h ≤ s.regs.pixRow.toNat ∨ img.w ≤ s.regs.pixCol.toNat) →
        exec .pixelComponents s = .next (faulted s 5))

/-! ## DECODE -/

/-- 40_commands R123: a DECODE that passes its checks and fits COMP replaces the image as a whole; OUT, the other result
registers, IN and the operand registers stay, and COMP from IMG_LEN up is a draw (93 U2; log 3). -/
def Obligations.DecodeCommitsImage : Prop :=
  ∀ (s : State) (fam : Family), decodeCheck s = .ok fam → (decodedImage s fam).l ≤ s.impl.compMemWords →
    ∃ t img, exec .decode s = .next t ∧ completed s t false ∧ keepsHostSide s t ∧ t.results = s.results ∧
      (∀ a, outByte t a = outByte s a) ∧ t.img = some img ∧ t.imgValid = true ∧ img = decodedImage s fam ∧
      img.desc = { s.regs.descriptor with endian := order s } ∧ img.family = fam ∧ img.w = s.regs.width.toNat ∧
      (∀ i, i < img.l → compElem t i = BitVec.ofNat 16 ((decodedComp s fam).getD i 0)) ∧
      (∀ i, img.l ≤ i → compElem t i = Config.freeCompElem s.draws i) ∧
      readReg t .imgWidth = s.regs.width ∧ readReg t .imgHeight = BitVec.ofNat 32 img.h ∧
      readReg t .imgLen = BitVec.ofNat 32 img.l ∧
      readReg t .imgFamily = BitVec.ofNat 32 (fam.code + if img.subbyte then 2 ^ 8 else 0)

/-- 43_yuv R220–R222: a YUV DECODE stores its bytes, then zeros, with the family's height. -/
def Obligations.DecodeYuvStoresBytes : Prop :=
  ∀ (s : State) (y : YuvFamily), decodeCheck s = .ok (.yuv y) →
    let n := s.regs.inLen.toNat
    let w := s.regs.width.toNat
    let h := if is420 y then ceilDiv (2 * ceilDiv n w) 3 else ceilDiv n (2 * w)
    let l := if is420 y then w * ceilDiv n w else 2 * w * ceilDiv n (2 * w)
    l ≤ s.impl.compMemWords →
    ∃ t img, exec .decode s = .next t ∧ t.img = some img ∧ img.h = h ∧ img.l = l ∧ img.subbyte = false ∧
      ∀ i, i < l → compElem t i = BitVec.ofNat 16 (bufByte s i)

/-- 41_unpack R158, R159, 44_bayer R260, 45_gray R290: a GRAY or BAYER DECODE on the lane path. -/
def Obligations.DecodeSingleLaneSamples : Prop :=
  ∀ (s : State) (fam : Family), (fam = .gray ∨ ∃ o, fam = .bayer o) → decodeCheck s = .ok fam →
    s.regs.descriptor.subbyte = false →
    let d := s.regs.descriptor
    let lb := ceilDiv (d.bpc0 + d.shift) 8
    let ng := ceilDiv s.regs.inLen.toNat lb
    let w := s.regs.width.toNat
    let h := ceilDiv ng w
    w * h ≤ s.impl.compMemWords →
    ∃ t img, exec .decode s = .next t ∧ t.img = some img ∧ img.h = h ∧ img.l = w * h ∧ img.subbyte = false ∧
      ∀ p, p < w * h → compElem t p = BitVec.ofNat 16
        (if p < ng then bytesNum (order s) lb (fun j => bufByte s (p * lb + j)) / 2 ^ d.shift % 2 ^ d.bpc0 else 0)

/-- 41_unpack R155, R158, 42_rgb R191, R192: an RGB DECODE with one common width of 8 or 16: four elements a pixel in slot
order, SYN in an absent slot. -/
def Obligations.DecodeRgbLaneElements : Prop :=
  ∀ (s : State) (o : RgbOrder) (lb : Nat), decodeCheck s = .ok (.rgb o) → s.regs.descriptor.subbyte = false →
    (lb = 1 ∨ lb = 2) →
    let d := s.regs.descriptor
    (∀ i, i < 4 → d.width i = 0 ∨ d.width i = 8 * lb) →
    let n := presentBelow d 4
    let ng := ceilDiv s.regs.inLen.toNat (n * lb)
    let w := s.regs.width.toNat
    let h := ceilDiv ng w
    4 * (w * h) ≤ s.impl.compMemWords →
    ∃ t img, exec .decode s = .next t ∧ t.img = some img ∧ img.h = h ∧ img.l = 4 * (w * h) ∧ img.subbyte = false ∧
      ∀ p i, p < w * h → i < 4 → compElem t (4 * p + i) = BitVec.ofNat 16
        (if d.width i = 0 then 2 ^ (8 * lb) - 1
          else if p < ng then
            bytesNum (order s) lb (fun j => bufByte s (p * (n * lb) + presentBelow d i * lb + j))
          else 0)

/-- 41_unpack R160, R161: a DECODE on the sub-byte path: group `g` is group `g mod G` of chunk `g div G`, most significant
bits first, for the RGB, GRAY and BAYER families. `T` at a width sum of 64 is the model's reading (log 25). -/
def Obligations.DecodeSubbyteComponents : Prop :=
  ∀ (s : State) (fam : Family), decodeCheck s = .ok fam → (decodedImage s fam).subbyte = true →
    let d := s.regs.descriptor
    let t8 := Nat.lcm d.widthSum 8 / 8
    let gs := 8 * t8 / d.widthSum
    let ng := ceilDiv s.regs.inLen.toNat t8 * gs
    let w := s.regs.width.toNat
    let h := ceilDiv ng w
    let value := fun g i => if g < ng then
        bitsAt (bytesNum (order s) t8 fun j => bufByte s (g / gs * t8 + j)) t8
          (g % gs * d.widthSum + widthBelow d i) (d.width i)
      else 0
    (decodedImage s fam).l ≤ s.impl.compMemWords →
    ∃ t img, exec .decode s = .next t ∧ t.img = some img ∧ img.h = h ∧ img.subbyte = true ∧
      (∀ o, fam = .rgb o → img.l = 4 * (w * h) ∧
        ∀ p i, p < w * h → i < 4 → compElem t (4 * p + i) = BitVec.ofNat 16
          (if d.width i = 0 then 2 ^ d.widthMax - 1 else value p i)) ∧
      ((fam = .gray ∨ ∃ o, fam = .bayer o) → img.l = w * h ∧
        ∀ p, p < w * h → compElem t p = BitVec.ofNat 16 (value p 0))

/-- 41_unpack R167 and 43_yuv R242: the sizes of a decoded image, for every family and width. -/
def Obligations.DecodedSizeInvariant : Prop :=
  ∀ (s t : State) (img : Image), exec .decode s = .next t → s.status.err = false → t.status.err = false →
    t.img = some img →
      img.w = s.regs.width.toNat ∧ 1 ≤ img.w ∧
      match img.family with
      | .rgb _ => img.l % (img.w * 4) = 0 ∧ img.h = img.l / (img.w * 4)
      | .gray => img.l % img.w = 0 ∧ img.h = img.l / img.w
      | .bayer _ => img.l % img.w = 0 ∧ img.h = img.l / img.w
      | .yuv y => if is420 y then img.l % img.w = 0 ∧ img.h = ceilDiv (2 * (img.l / img.w)) 3
          else img.l % (2 * img.w) = 0 ∧ img.h = img.l / (2 * img.w)

/-- 40_commands R122 ("Idempotence"): a DECODE repeated with the same operands latches the same image and writes the same
elements. -/
def Obligations.DecodeTwiceIsIdentical : Prop :=
  ∀ (s t : State) (p : Option Word), exec .decode s = .next t → s.status.err = false → t.status.err = false →
    ∃ u, exec .decode { t with pending := p } = .next u ∧ u.img = t.img ∧ u.comp.cells = t.comp.cells ∧
      u.status.done = true

/-! ## RENDER -/

/-- 45_gray R291: the truncated sample in three channels, alpha 255, whatever the mask; for every frame height (R127). -/
def Obligations.RenderGrayTruncates : Prop :=
  ∀ (s : State) (img : Image), s.img = some img → img.family = .gray → imageOk img →
    let f := s.regs.frameHeight.toNat
    let rows := frameRowsOf img f
    frameCountOf img f * rows * img.w * 4 ≤ s.impl.outMemBytes →
    ∃ t, exec .render s = .next t ∧ completed s t false ∧ keepsHostSide s t ∧ keepsImage s t ∧
      rastered s t (frameCountOf img f) rows img.w fun k r c =>
        let g := elemOf s img 1 rows k r c 0 * 255 / (2 ^ img.desc.bpc0 - 1)
        (g, g, g, 255)

/-- 42_rgb R194–R197: rescale with rounding, reorder, force alpha, mask; for every frame height (R127). -/
def Obligations.RenderRgbRescalesAndMasks : Prop :=
  ∀ (s : State) (img : Image) (o : RgbOrder), s.img = some img → img.family = .rgb o → imageOk img →
    let f := s.regs.frameHeight.toNat
    let rows := frameRowsOf img f
    let d := img.desc
    frameCountOf img f * rows * img.w * 4 ≤ s.impl.outMemBytes →
    ∃ t, exec .render s = .next t ∧ completed s t false ∧ keepsHostSide s t ∧ keepsImage s t ∧
      rastered s t (frameCountOf img f) rows img.w fun k r c =>
        let v8 := fun i => (2 * elemOf s img 4 rows k r c i * 255 + (2 ^ d.width i - 1)) / (2 * (2 ^ d.width i - 1))
        (if s.regs.maskBit 0 then v8 (rgbSlots o).1 else 0, if s.regs.maskBit 1 then v8 (rgbSlots o).2.1 else 0,
          if s.regs.maskBit 2 then v8 (rgbSlots o).2.2.1 else 0,
          if s.regs.maskBit 3 = false ∨ d.width (rgbSlots o).2.2.2 = 0 then 255 else v8 (rgbSlots o).2.2.2)

/-- 43_yuv R223, R232–R235: luma alone is replicated; otherwise a masked chroma plane is 0 and the CSC parameter converts.
The frames are R223's. -/
def Obligations.RenderYuvConverts : Prop :=
  ∀ (s : State) (img : Image) (y : YuvFamily), s.img = some img → img.family = .yuv y → s.regs.maskBit 0 = true →
    let f := s.regs.frameHeight.toNat
    (is420 y = true → f % 2 = 0) →
    let flen := if f = 0 then img.l else if is420 y then 3 * f * img.w / 2 else 2 * f * img.w
    let count := if f = 0 then 1 else ceilDiv img.l flen
    let rows := if f = 0 then img.h else f
    let bytes := fun k => (List.range flen).map fun i => if k * flen + i < img.l then
      (compElem s (k * flen + i)).toNat else 0
    count * rows * img.w * 4 ≤ s.impl.outMemBytes →
    ∃ t, exec .render s = .next t ∧ completed s t false ∧ keepsHostSide s t ∧ keepsImage s t ∧
      rastered s t count rows img.w fun k r c =>
        let l := lumaAt y (bytes k) img.w r c
        let uv := chromaAt y (bytes k) rows img.w r c
        if s.regs.maskBit 1 = false ∧ s.regs.maskBit 2 = false then (l, l, l, 255)
        else
          let rgb := csc s.impl.csc (BitVec.ofNat 8 l) (BitVec.ofNat 8 (if s.regs.maskBit 1 then uv.1 else 0))
            (BitVec.ofNat 8 (if s.regs.maskBit 2 then uv.2 else 0))
          (rgb.1.toNat, rgb.2.1.toNat, rgb.2.2.toNat, 255)

/-- 43_yuv R224–R230: where the four families keep their samples, for every width, height and frame length: `v` is the
padded view of a planar or semiplanar frame and `v2` that of a packed row, both 0 in the padding and past the frame's end.
Then the same without padding, at an even width and, for 4:2:0, an even height. -/
def Obligations.YuvSamplePositions : Prop :=
  ∀ (fb : List Nat) (h w r c : Nat), r < h → c < w →
    let wp := w + w % 2
    let hp := h + h % 2
    let v := fun i => if i % wp < w then fb.getD (i / wp * w + i % wp) 0 else 0
    let v2 := fun j => if j < 2 * w then fb.getD (r * (2 * w) + j) 0 else 0
    (∀ o, lumaAt (.packed422 o) fb w r c = v2 (4 * (c / 2) +
        (if c % 2 = 0 then (packedPlaces o).1 else (packedPlaces o).2.2.1)) ∧
      chromaAt (.packed422 o) fb h w r c =
        (v2 (4 * (c / 2) + (packedPlaces o).2.1), v2 (4 * (c / 2) + (packedPlaces o).2.2.2))) ∧
    (∀ o, lumaAt (.semi420 o) fb w r c = fb.getD (r * w + c) 0 ∧ lumaAt (.planar420 o) fb w r c = fb.getD (r * w + c) 0 ∧
      lumaAt (.planar422 o) fb w r c = fb.getD (r * w + c) 0) ∧
    chromaAt (.semi420 .yuv) fb h w r c =
      (v (hp * wp + r / 2 * wp + 2 * (c / 2)), v (hp * wp + r / 2 * wp + 2 * (c / 2) + 1)) ∧
    chromaAt (.planar420 .yuv) fb h w r c =
      (v (hp * wp + (r / 2 * (wp / 2) + c / 2)), v (hp * wp + hp / 2 * (wp / 2) + (r / 2 * (wp / 2) + c / 2))) ∧
    chromaAt (.planar422 .yuv) fb h w r c =
      (v (h * wp + (r * (wp / 2) + c / 2)), v (h * wp + h * (wp / 2) + (r * (wp / 2) + c / 2))) ∧
    chromaAt (.semi420 .yvu) fb h w r c =
      ((chromaAt (.semi420 .yuv) fb h w r c).2, (chromaAt (.semi420 .yuv) fb h w r c).1) ∧
    chromaAt (.planar420 .yvu) fb h w r c =
      ((chromaAt (.planar420 .yuv) fb h w r c).2, (chromaAt (.planar420 .yuv) fb h w r c).1) ∧
    chromaAt (.planar422 .yvu) fb h w r c =
      ((chromaAt (.planar422 .yuv) fb h w r c).2, (chromaAt (.planar422 .yuv) fb h w r c).1) ∧
    (w % 2 = 0 →
      (∀ o, fb.length = 2 * w * h →
        lumaAt (.packed422 o) fb w r c = fb.getD (r * (2 * w) + 4 * (c / 2) +
          (if c % 2 = 0 then (packedPlaces o).1 else (packedPlaces o).2.2.1)) 0 ∧
        chromaAt (.packed422 o) fb h w r c =
          (fb.getD (r * (2 * w) + 4 * (c / 2) + (packedPlaces o).2.1) 0,
            fb.getD (r * (2 * w) + 4 * (c / 2) + (packedPlaces o).2.2.2) 0)) ∧
      (fb.length = 2 * w * h → chromaAt (.planar422 .yuv) fb h w r c =
        (fb.getD (h * w + (r * (w / 2) + c / 2)) 0, fb.getD (h * w + h * (w / 2) + (r * (w / 2) + c / 2)) 0)) ∧
      (h % 2 = 0 → fb.length = w * h + w * h / 2 →
        chromaAt (.semi420 .yuv) fb h w r c =
          (fb.getD (h * w + r / 2 * w + 2 * (c / 2)) 0, fb.getD (h * w + r / 2 * w + 2 * (c / 2) + 1) 0) ∧
        chromaAt (.planar420 .yuv) fb h w r c =
          (fb.getD (h * w + (r / 2 * (w / 2) + c / 2)) 0,
            fb.getD (h * w + h / 2 * (w / 2) + (r / 2 * (w / 2) + c / 2)) 0)))

/-- 43_yuv R236: the reference conversion at every luma and chroma. A channel is at least `k`, for `k` from 1 to 255, exactly
when its fixed-point sum, half a unit added, reaches `k` units of 2^20. At neutral chroma, U = V = 128, it is a grey of
R = G = B, black at and below luma 16, white from luma 235. -/
def Obligations.ReferenceCscNeutralChromaIsGrey : Prop :=
  (∀ (y u v : Byte) (k : Nat), 1 ≤ k → k ≤ 255 →
    let yy : Int := if y.toNat ≤ 16 then 0 else ((y.toNat : Int) - 16) * 1220542
    let du : Int := (u.toNat : Int) - 128
    let dv : Int := (v.toNat : Int) - 128
    (k ≤ (cscBt601 y u v).1.toNat ↔ (k : Int) * 2 ^ 20 ≤ yy + 1673527 * dv + 2 ^ 19) ∧
    (k ≤ (cscBt601 y u v).2.1.toNat ↔ (k : Int) * 2 ^ 20 ≤ yy - 852492 * dv - 409993 * du + 2 ^ 19) ∧
    (k ≤ (cscBt601 y u v).2.2.toNat ↔ (k : Int) * 2 ^ 20 ≤ yy + 2116026 * du + 2 ^ 19)) ∧
    ∀ y : Byte, (cscBt601 y 128 128).1 = (cscBt601 y 128 128).2.1 ∧
      (cscBt601 y 128 128).2.1 = (cscBt601 y 128 128).2.2 ∧
      (y.toNat ≤ 16 → (cscBt601 y 128 128).1 = 0) ∧ (235 ≤ y.toNat → (cscBt601 y 128 128).1 = 255)

/-- 44_bayer R262–R264, R266, with R265's (P1): whatever the DEMOSAIC parameter, each pixel's own channel is its masked,
truncated sample, alpha is 255, and the CFA phase is the frame's; for every frame height (R127). -/
def Obligations.RenderBayerOwnChannel : Prop :=
  ∀ (s : State) (img : Image) (o : BayerOrder), s.img = some img → img.family = .bayer o → imageInv s →
    let f := s.regs.frameHeight.toNat
    let rows := frameRowsOf img f
    let count := frameCountOf img f
    count * rows * img.w * 4 ≤ s.impl.outMemBytes →
    ∃ t, exec .render s = .next t ∧ completed s t false ∧ keepsHostSide s t ∧ keepsImage s t ∧
      outRegs s t (count * rows * img.w * 4) count rows ∧
      (∀ a, count * rows * img.w * 4 ≤ a → outByte t a = Config.freeOutByte s.draws a) ∧
      ∀ k r c, k < count → r < rows → c < img.w →
        let ch := match cfaColor o r c with
          | .r => 0
          | .g => 1
          | .b => 2
        outByte t (outAt rows img.w k r c ch) = BitVec.ofNat 8
          (if s.regs.maskBit ch then elemOf s img 1 rows k r c 0 * 255 / (2 ^ img.desc.bpc0 - 1) else 0) ∧
        outByte t (outAt rows img.w k r c 3) = 255

/-- 44_bayer R262–R264, R266: a Bayer RENDER is the DEMOSAIC parameter on the frame's masked, truncated mosaic, with alpha
255; for every frame height (R127). -/
def Obligations.RenderBayerDemosaics : Prop :=
  ∀ (s : State) (img : Image) (o : BayerOrder), s.img = some img → img.family = .bayer o → imageOk img →
    let f := s.regs.frameHeight.toNat
    let rows := frameRowsOf img f
    let sample := fun k r c =>
      let ch := match cfaColor o r c with
        | .r => 0
        | .g => 1
        | .b => 2
      if s.regs.maskBit ch then elemOf s img 1 rows k r c 0 * 255 / (2 ^ img.desc.bpc0 - 1) else 0
    let mosaicOf := fun k => (List.range (rows * img.w)).map fun i => BitVec.ofNat 8 (sample k (i / img.w) (i % img.w))
    frameCountOf img f * rows * img.w * 4 ≤ s.impl.outMemBytes →
    ∃ t, exec .render s = .next t ∧ completed s t false ∧ keepsHostSide s t ∧ keepsImage s t ∧
      rastered s t (frameCountOf img f) rows img.w fun k r c =>
        let rgb := demosaic s.impl.demosaic o (mosaicOf k) rows img.w r c
        (rgb.1, rgb.2.1, rgb.2.2, 255)

/-- 44_bayer R265: both choices of the DEMOSAIC parameter have the properties P1 and P3 (P2, that it is a function of its
arguments, is their type). The platform's choice has them by the model's construction (log 11). -/
def Obligations.DemosaicMeetsItsProperties : Prop :=
  ∀ (p : DemosaicChoice) (o : BayerOrder) (m : List Byte) (rows w r c : Nat), r < rows → c < w →
    (cfaColor o r c = .r → (demosaic p o m rows w r c).1 = (m.getD (r * w + c) 0).toNat) ∧
    (cfaColor o r c = .g → (demosaic p o m rows w r c).2.1 = (m.getD (r * w + c) 0).toNat) ∧
    (cfaColor o r c = .b → (demosaic p o m rows w r c).2.2 = (m.getD (r * w + c) 0).toNat) ∧
    ((∀ x ∈ m, x = 0) → demosaic p o m rows w r c = (0, 0, 0))

/-- 44_bayer R268: the reference demosaic at every cell of the frame. The cell's own channel is its sample; another is the
mean, rounded half up, of the cells of that colour among the eight around it that lie in the frame, 0 without one. With all
eight in the frame it is ordinary bilinear interpolation: at a red or blue cell green is the mean of the four edge
neighbours and the opposite colour that of the four diagonal ones; at a green cell red and blue are the means of the two
neighbours in the row or column that holds them. -/
def Obligations.BilinearInsideTheFrame : Prop :=
  ∀ (o : BayerOrder) (m : List Byte) (rows w r c : Nat), r < rows → c < w →
    let s := fun a b => (m.getD (a * w + b) 0).toNat
    let out := demosaicBilinear o m rows w r c
    let chan := fun x => match x with
      | Channel.r => out.1
      | Channel.g => out.2.1
      | Channel.b => out.2.2
    (∀ x, cfaColor o r c = x → chan x = s r c) ∧
    (∀ x, cfaColor o r c ≠ x →
      let cells := (List.range rows).flatMap fun a => ((List.range w).filter fun b =>
        decide (a ≤ r + 1 ∧ r ≤ a + 1 ∧ b ≤ c + 1 ∧ c ≤ b + 1 ∧ cfaColor o a b = x)).map fun b => s a b
      chan x = if cells.length = 0 then 0 else (cells.sum + cells.length / 2) / cells.length) ∧
    (1 ≤ r → r + 1 < rows → 1 ≤ c → c + 1 < w →
      let edges := (s (r - 1) c + s r (c - 1) + s r (c + 1) + s (r + 1) c + 2) / 4
      let diag := (s (r - 1) (c - 1) + s (r - 1) (c + 1) + s (r + 1) (c - 1) + s (r + 1) (c + 1) + 2) / 4
      let inRow := (s r (c - 1) + s r (c + 1) + 1) / 2
      let inCol := (s (r - 1) c + s (r + 1) c + 1) / 2
      match cfaColor o r c with
      | .r => out.2.1 = edges ∧ out.2.2 = diag
      | .b => out.2.1 = edges ∧ out.1 = diag
      | .g => if cfaColor o r (c - 1) = .r then out.1 = inRow ∧ out.2.2 = inCol
          else out.1 = inCol ∧ out.2.2 = inRow)

/-! ## RAW_COLOR -/

/-- 40_commands R131, 42_rgb R200, 45_gray R293: RGB, GRAY, and an image without a palette give "none": DONE = 1, NONE = 1,
the three registers 0, OUT as before. -/
def Obligations.RawColorGivesNone : Prop :=
  ∀ (s : State) (img : Image), s.img = some img →
    ((∃ o, img.family = .rgb o) ∨ img.family = .gray ∨ img.desc.palEn = false) →
    ∃ t, exec .rawColor s = .next t ∧ completed s t true ∧ keepsHostSide s t ∧ keepsImage s t ∧ outRegs s t 0 0 0 ∧
      ∀ a, outByte t a = outByte s a

/-- 43_yuv R237: the saturating sum of the three tinted planes, over the whole image as one frame. -/
def Obligations.RawColorYuvTints : Prop :=
  ∀ (s : State) (img : Image) (y : YuvFamily), s.img = some img → img.family = .yuv y → img.desc.palEn = true →
    img.h * img.w * 4 ≤ s.impl.outMemBytes →
    let data := (List.range img.l).map fun i => (compElem s i).toNat
    let d := img.desc
    ∃ t, exec .rawColor s = .next t ∧ completed s t false ∧ keepsHostSide s t ∧ keepsImage s t ∧
      rastered s t 1 img.h img.w fun _ r c =>
        let l := lumaAt y data img.w r c
        let uv := chromaAt y data img.h img.w r c
        (min 255 ((l * d.pal0.r + uv.1 * d.pal1.r + uv.2 * d.pal2.r) / 255),
          min 255 ((l * d.pal0.g + uv.1 * d.pal1.g + uv.2 * d.pal2.g) / 255),
          min 255 ((l * d.pal0.b + uv.1 * d.pal1.b + uv.2 * d.pal2.b) / 255), 255)

/-- 44_bayer R269, 30_encoding R102: each sample times the tint of its tile position, over 255. -/
def Obligations.RawColorBayerTints : Prop :=
  ∀ (s : State) (img : Image) (o : BayerOrder), s.img = some img → img.family = .bayer o → img.desc.palEn = true →
    imageOk img → img.h * img.w * 4 ≤ s.impl.outMemBytes →
    let d := img.desc
    ∃ t, exec .rawColor s = .next t ∧ completed s t false ∧ keepsHostSide s t ∧ keepsImage s t ∧
      rastered s t 1 img.h img.w fun _ r c =>
        let v := (compElem s (r * img.w + c)).toNat * 255 / (2 ^ d.bpc0 - 1)
        let tint := if r % 2 = 0 then (if c % 2 = 0 then d.pal0 else d.pal1)
          else (if c % 2 = 0 then d.pal2 else d.pal3)
        (v * tint.r / 255, v * tint.g / 255, v * tint.b / 255, 255)

/-! ## CROP_TO_RAW -/

/-- 42_rgb R198 on the lane path: byte `b` of component `q` of the region's pixel `(i, j)` stands at
`((i·w + j)·n + q)·LB + b`, in the latched byte order. -/
def Obligations.CropRgbLaneBytes : Prop :=
  ∀ (s : State) (img : Image) (o : RgbOrder) (lb : Nat), s.img = some img → img.family = .rgb o → imageOk img →
    selectPath false img.desc = .lane lb → regionOk s.regs img = true →
    let r0 := s.regs.row0.toNat
    let c0 := s.regs.col0.toNat
    let h := s.regs.row1.toNat - r0
    let w := s.regs.col1.toNat - c0
    let n := img.desc.compCount
    h * w * n * lb ≤ s.impl.outMemBytes →
    ∃ t, exec .cropToRaw s = .next t ∧ completed s t false ∧ keepsHostSide s t ∧ keepsImage s t ∧
      outRegs s t (h * w * n * lb) 0 0 ∧
      (∀ i j q b, i < h → j < w → q < n → b < lb →
        outByte t (((i * w + j) * n + q) * lb + b) = BitVec.ofNat 8
          ((laneEncode (compElem s (4 * ((r0 + i) * img.w + (c0 + j)) + img.desc.present.getD q 0)).toNat lb
            img.desc.endian).getD b 0)) ∧
      ∀ a, h * w * n * lb ≤ a → outByte t a = Config.freeOutByte s.draws a

/-- 44_bayer R270, 45_gray R294 on the lane path: each sample shifted left by SHIFT, in the latched byte order. -/
def Obligations.CropSingleLaneBytes : Prop :=
  ∀ (s : State) (img : Image) (lb : Nat), s.img = some img → (img.family = .gray ∨ ∃ o, img.family = .bayer o) →
    imageOk img → selectPath true img.desc = .lane lb → regionOk s.regs img = true →
    let r0 := s.regs.row0.toNat
    let c0 := s.regs.col0.toNat
    let h := s.regs.row1.toNat - r0
    let w := s.regs.col1.toNat - c0
    h * w * lb ≤ s.impl.outMemBytes →
    ∃ t, exec .cropToRaw s = .next t ∧ completed s t false ∧ keepsHostSide s t ∧ keepsImage s t ∧
      outRegs s t (h * w * lb) 0 0 ∧
      (∀ i j b, i < h → j < w → b < lb →
        outByte t ((i * w + j) * lb + b) = BitVec.ofNat 8
          ((laneEncode ((compElem s ((r0 + i) * img.w + (c0 + j))).toNat * 2 ^ img.desc.shift) lb
            img.desc.endian).getD b 0)) ∧
      ∀ a, h * w * lb ≤ a → outByte t a = Config.freeOutByte s.draws a

/-- 41_unpack R165, 42_rgb R198, 44_bayer R270, 45_gray R294 on the sub-byte path: `ceil(h·w / G)·T` bytes, whose chunks
hold the components where R161 reads them, the last chunk's groups beyond the region being 0; OUT beyond is a draw (93 U2;
log 3). `T` at a width sum of 64 is the model's reading of R160 (log 25). -/
def Obligations.CropSubbyteChunks : Prop :=
  ∀ (s : State) (img : Image), s.img = some img → imageInv s → img.subbyte = true → regionOk s.regs img = true →
    let d := img.desc
    let r0 := s.regs.row0.toNat
    let c0 := s.regs.col0.toNat
    let h := s.regs.row1.toNat - r0
    let w := s.regs.col1.toNat - c0
    let t8 := Nat.lcm d.widthSum 8 / 8
    let gs := 8 * t8 / d.widthSum
    let len := ceilDiv (h * w) gs * t8
    let cpp := match img.family with
      | .rgb _ => 4
      | _ => 1
    len ≤ s.impl.outMemBytes →
    ∃ t, exec .cropToRaw s = .next t ∧ completed s t false ∧ keepsHostSide s t ∧ keepsImage s t ∧
      outRegs s t len 0 0 ∧
      let bits := fun g slot => bitsAt (bytesNum d.endian t8 fun b => (outByte t (g / gs * t8 + b)).toNat) t8
        (g % gs * d.widthSum + widthBelow d slot) (d.width slot)
      (∀ i j slot, i < h → j < w → slot < 4 → 0 < d.width slot →
        bits (i * w + j) slot = (compElem s (((r0 + i) * img.w + (c0 + j)) * cpp + slot)).toNat) ∧
      (∀ g slot, h * w ≤ g → g < ceilDiv (h * w) gs * gs → slot < 4 → bits g slot = 0) ∧
      ∀ a, len ≤ a → outByte t a = Config.freeOutByte s.draws a

/-- 43_yuv R238: a 4:2:0 region is its luma, then the chroma covering every second row and column from its first. -/
def Obligations.CropYuv420Planes : Prop :=
  ∀ (s : State) (img : Image) (y : YuvFamily), s.img = some img → img.family = .yuv y → is420 y = true →
    regionOk s.regs img = true →
    let data := (List.range img.l).map fun i => (compElem s i).toNat
    let r0 := s.regs.row0.toNat
    let c0 := s.regs.col0.toNat
    let h := s.regs.row1.toNat - r0
    let w := s.regs.col1.toNat - c0
    let hc := ceilDiv h 2
    let wc := ceilDiv w 2
    let len := h * w + 2 * (hc * wc)
    len ≤ s.impl.outMemBytes →
    ∃ t, exec .cropToRaw s = .next t ∧ completed s t false ∧ keepsHostSide s t ∧ keepsImage s t ∧
      outRegs s t len 0 0 ∧
      (∀ i j, i < h → j < w →
        outByte t (i * w + j) = BitVec.ofNat 8 (lumaAt y data img.w (r0 + i) (c0 + j))) ∧
      (∀ i j, i < hc → j < wc →
        let ch := chroma y data img.h img.w (r0 + 2 * i) (c0 + 2 * j)
        (∀ o, y = .semi420 o → outByte t (h * w + 2 * (i * wc + j)) = BitVec.ofNat 8 ch.1 ∧
          outByte t (h * w + 2 * (i * wc + j) + 1) = BitVec.ofNat 8 ch.2) ∧
        (∀ o, y = .planar420 o → outByte t (h * w + (i * wc + j)) = BitVec.ofNat 8 ch.1 ∧
          outByte t (h * w + hc * wc + (i * wc + j)) = BitVec.ofNat 8 ch.2)) ∧
      ∀ a, len ≤ a → outByte t a = Config.freeOutByte s.draws a

/-- 43_yuv R239, R240: a 4:2:2 region, planar as its luma and the two chroma planes, packed as 4-byte groups, the last
pair's second luma being 0 at an odd width; OUT beyond is a draw (93 U2; log 3). -/
def Obligations.CropYuv422Region : Prop :=
  ∀ (s : State) (img : Image), s.img = some img → regionOk s.regs img = true →
    let data := (List.range img.l).map fun i => (compElem s i).toNat
    let r0 := s.regs.row0.toNat
    let c0 := s.regs.col0.toNat
    let h := s.regs.row1.toNat - r0
    let w := s.regs.col1.toNat - c0
    let wc := ceilDiv w 2
    (∀ o, img.family = .yuv (.planar422 o) → h * w + 2 * (h * wc) ≤ s.impl.outMemBytes →
      ∃ t, exec .cropToRaw s = .next t ∧ completed s t false ∧ keepsHostSide s t ∧ keepsImage s t ∧
        outRegs s t (h * w + 2 * (h * wc)) 0 0 ∧
        (∀ i j, i < h → j < w →
          outByte t (i * w + j) = BitVec.ofNat 8 (lumaAt (.planar422 o) data img.w (r0 + i) (c0 + j))) ∧
        (∀ i j, i < h → j < wc →
          let ch := chroma (.planar422 o) data img.h img.w (r0 + i) (c0 + 2 * j)
          outByte t (h * w + (i * wc + j)) = BitVec.ofNat 8 ch.1 ∧
            outByte t (h * w + h * wc + (i * wc + j)) = BitVec.ofNat 8 ch.2) ∧
        ∀ a, h * w + 2 * (h * wc) ≤ a → outByte t a = Config.freeOutByte s.draws a) ∧
      ∀ o, img.family = .yuv (.packed422 o) → h * wc * 4 ≤ s.impl.outMemBytes →
        ∃ t, exec .cropToRaw s = .next t ∧ completed s t false ∧ keepsHostSide s t ∧ keepsImage s t ∧
          outRegs s t (h * wc * 4) 0 0 ∧
          (∀ i j, i < h → j < wc →
            let y := YuvFamily.packed422 o
            let x := c0 + 2 * j
            let uv := chromaAt y data img.h img.w (r0 + i) x
            let at4 := fun p => outByte t ((i * wc + j) * 4 + p)
            at4 (packedPlaces o).1 = BitVec.ofNat 8 (lumaAt y data img.w (r0 + i) x) ∧
            at4 (packedPlaces o).2.1 = BitVec.ofNat 8 uv.1 ∧
            at4 (packedPlaces o).2.2.1 = BitVec.ofNat 8
              (if x + 1 < s.regs.col1.toNat then lumaAt y data img.w (r0 + i) (x + 1) else 0) ∧
            at4 (packedPlaces o).2.2.2 = BitVec.ofNat 8 uv.2) ∧
          ∀ a, h * wc * 4 ≤ a → outByte t a = Config.freeOutByte s.draws a

/-- 42_rgb R201 on the lane path: CROP_TO_RAW of the whole image after an RGB DECODE without byte reversal gives the `N`
input bytes back, then the decode padding as zeros. -/
def Obligations.LaneCropRestoresInput : Prop :=
  ∀ (s t : State) (o : RgbOrder) (lb : Nat), s.impl.wf → decodeCheck s = .ok (.rgb o) →
    selectPath false s.regs.descriptor = .lane lb → s.regs.reverseGroup.toNat ≤ 1 →
    (decodedImage s (.rgb o)).l ≤ s.impl.compMemWords → exec .decode s = .next t →
    let img := decodedImage s (.rgb o)
    let len := img.desc.compCount * lb * img.w * img.h
    len ≤ s.impl.outMemBytes →
    let t' := { t with regs := { t.regs with row0 := 0, row1 := BitVec.ofNat 32 img.h, col0 := 0, col1 := t.regs.width } }
    ∃ u, exec .cropToRaw t' = .next u ∧ s.regs.inLen.toNat ≤ len ∧
      outRegs s u len 0 0 ∧
      ∀ i, i < len → outByte u i = if i < s.regs.inLen.toNat then inByte s i else 0

/-- 42_rgb R201 on the sub-byte path, where the output has `ceil(W·H / G)·T` bytes; `T` at a width sum of 64 is the model's
reading (log 25). -/
def Obligations.SubbyteCropRestoresInput : Prop :=
  ∀ (s t : State) (o : RgbOrder), s.impl.wf → decodeCheck s = .ok (.rgb o) →
    selectPath false s.regs.descriptor = .subbyte → s.regs.reverseGroup.toNat ≤ 1 →
    (decodedImage s (.rgb o)).l ≤ s.impl.compMemWords → exec .decode s = .next t →
    let img := decodedImage s (.rgb o)
    let t8 := Nat.lcm img.desc.widthSum 8 / 8
    let len := ceilDiv (img.w * img.h) (8 * t8 / img.desc.widthSum) * t8
    len ≤ s.impl.outMemBytes →
    let t' := { t with regs := { t.regs with row0 := 0, row1 := BitVec.ofNat 32 img.h, col0 := 0, col1 := t.regs.width } }
    ∃ u, exec .cropToRaw t' = .next u ∧ s.regs.inLen.toNat ≤ len ∧
      outRegs s u len 0 0 ∧
      ∀ i, i < len → outByte u i = if i < s.regs.inLen.toNat then inByte s i else 0

/-- 43_yuv R238–R240 on a whole image of even width (and, for 4:2:0, even height) without padding: CROP_TO_RAW gives the
input bytes back, for every YUV family. -/
def Obligations.YuvCropRestoresInput : Prop :=
  ∀ (s t : State) (y : YuvFamily) (h : Nat), s.impl.wf → decodeCheck s = .ok (.yuv y) → s.regs.reverseGroup.toNat ≤ 1 →
    let n := s.regs.inLen.toNat
    let w := s.regs.width.toNat
    w % 2 = 0 → (is420 y = true → h % 2 = 0 ∧ n = w * h + w * h / 2) → (is420 y = false → n = 2 * w * h) →
    n ≤ s.impl.compMemWords → n ≤ s.impl.outMemBytes → exec .decode s = .next t →
    let t' := { t with regs := { t.regs with row0 := 0, row1 := BitVec.ofNat 32 h, col0 := 0, col1 := t.regs.width } }
    ∃ u, exec .cropToRaw t' = .next u ∧ outRegs s u n 0 0 ∧ ∀ i, i < n → outByte u i = inByte s i

/-! ## PIXEL_COMPONENTS -/

/-- 40_commands R138, 42_rgb R199, 43_yuv R241, 44_bayer R271, 45_gray R295: the raw values of a pixel in the image, and
what the command leaves alone. -/
def Obligations.PixelComponentsLookUp : Prop :=
  ∀ (s : State) (img : Image), s.img = some img → imageOk img → s.regs.pixRow.toNat < img.h →
    s.regs.pixCol.toNat < img.w →
    let r := s.regs.pixRow.toNat
    let c := s.regs.pixCol.toNat
    let data := (List.range img.l).map fun i => (compElem s i).toNat
    let e := fun a b => if a < img.h ∧ b < img.w then compElem s (a * img.w + b) else 0
    ∃ t, exec .pixelComponents s = .next t ∧ completed s t false ∧ keepsHostSide s t ∧ keepsImage s t ∧
      (∀ a, outByte t a = outByte s a) ∧
      t.results.outLen = s.results.outLen ∧ t.results.frameCount = s.results.frameCount ∧
      t.results.frameRows = s.results.frameRows ∧
      match img.family with
      | .gray => t.results.pixCount = 1 ∧ t.results.pixVal0 = e r c ∧ t.results.pixVal1 = 0 ∧
          t.results.pixVal2 = 0 ∧ t.results.pixVal3 = 0
      | .bayer _ => t.results.pixCount = 4 ∧ t.results.pixVal0 = e (r / 2 * 2) (c / 2 * 2) ∧
          t.results.pixVal1 = e (r / 2 * 2) (c / 2 * 2 + 1) ∧ t.results.pixVal2 = e (r / 2 * 2 + 1) (c / 2 * 2) ∧
          t.results.pixVal3 = e (r / 2 * 2 + 1) (c / 2 * 2 + 1)
      | .yuv y => t.results.pixCount = 3 ∧ t.results.pixVal0 = BitVec.ofNat 16 (lumaAt y data img.w r c) ∧
          t.results.pixVal1 = BitVec.ofNat 16 (chromaAt y data img.h img.w r c).1 ∧
          t.results.pixVal2 = BitVec.ofNat 16 (chromaAt y data img.h img.w r c).2 ∧ t.results.pixVal3 = 0
      | .rgb _ => t.results.pixCount = BitVec.ofNat 3 (presentBelow img.desc 4) ∧
          ∀ slot, slot < 4 → 0 < img.desc.width slot →
            [t.results.pixVal0, t.results.pixVal1, t.results.pixVal2, t.results.pixVal3].getD
                (presentBelow img.desc slot) 0 = compElem s (4 * (r * img.w + c) + slot) ∧
            ∀ k, presentBelow img.desc 4 ≤ k →
              [t.results.pixVal0, t.results.pixVal1, t.results.pixVal2, t.results.pixVal3].getD k 0 = 0

/-! ## Whole-machine rules -/

/-- 70_reset R340, R344: the four readers use what DECODE latched: other FMT, BPC, SUB, PAL, WIDTH, IN_LEN, DEC_OPTS,
REVERSE_GROUP and another IN change nothing they do; and a DECODE that faults leaves the image in place. -/
def Obligations.ReadersUseLatchedImageOnly : Prop :=
  (∀ (i : Instr) (s t : State) (g : Regs) (m : Memory 8), readsImage i = true →
      g.chMask = s.regs.chMask → g.frameHeight = s.regs.frameHeight → g.row0 = s.regs.row0 → g.row1 = s.regs.row1 →
      g.col0 = s.regs.col0 → g.col1 = s.regs.col1 → g.pixRow = s.regs.pixRow → g.pixCol = s.regs.pixCol →
      exec i s = .next t → exec i { s with regs := g, inMem := m } = .next { t with regs := g, inMem := m }) ∧
    ∀ s t : State, exec .decode s = .next t → s.status.err = false → t.status.err = true →
      t.img = s.img ∧ t.comp = s.comp

/-- Only DECODE and the resets change the latched image or COMP (10_state R45, 70_reset R332), and only a host write to the
IN window or a hardware reset changes IN (R41), in any step. `fetch s` is the pending command where the engine moves, and
none where the host does: then the step was a CTRL write with bit 0 set, which keeps COMP, or a hardware reset (log 13), and
both drop the image. -/
def Obligations.OnlyDecodeAndResetsChangeImage : Prop :=
  ∀ s t : State, step s = .next t →
    ((t.img ≠ s.img ∨ t.comp ≠ s.comp) →
        (∃ w, fetch s = some w ∧ decode w = some .decode) ∨
          (fetch s = none ∧ t.img = none ∧
            ((∃ v rest, s.host = .write (s.impl.base + Reg.ctrl.offset) 4 v :: rest ∧ v.getLsbD 0 = true ∧
                t.comp = s.comp) ∨
              ∃ rest, s.host = .hardwareReset :: rest))) ∧
      (t.inMem ≠ s.inMem → fetch s = none ∧
        ((∃ i n v rest, s.host = .write (s.impl.base + 0x10000000 + i) n v :: rest ∧ i < 2 ^ 28 ∧ s.busy = false ∧
            t.comp = s.comp ∧ t.img = s.img) ∨
          ∃ rest, s.host = .hardwareReset :: rest)) ∧
      t.impl = s.impl

/-! ## The host's accesses -/

/-- 10_state R22: an idle write stores the bits of a register's fields, whatever the value, its reserved bits read 0, and
no other register changes; an idle write to a read-only register changes nothing (R23); a reserved offset reads 0 and
ignores writes, whatever BUSY is. -/
def Obligations.RegisterStoreThenRead : Prop :=
  ∀ (s : State) (v : Word),
    (∀ r, s.busy = false → readWrite r = true → ∃ t, memWrite s r.offset 4 v = .ok t ∧ memRead t r.offset 4 = .ok (v &&& r.fieldMask, t) ∧
      (∀ r', r' ≠ r → readReg t r' = readReg s r') ∧ { t with regs := s.regs } = s) ∧
      (∀ r : Reg, s.busy = false → r.isResult = true → memWrite s r.offset 4 v = .ok s) ∧
      ∀ off, off < 0x1000 → off % 4 = 0 → regAt off = none →
        memRead s off 4 = .ok (0, s) ∧ memWrite s off 4 v = .ok s

/-- 10_state R26: the STATUS write, whether or not BUSY = 1, and what a read then shows. -/
def Obligations.StatusWriteClears : Prop :=
  ∀ (s : State) (v : Word), ∃ t, memWrite s 0x004 4 v = .ok t ∧
    t.status.done = (if v.getLsbD 1 then false else s.status.done) ∧
    t.status.err = (if v.getLsbD 2 then false else s.status.err) ∧
    t.status.errcode = (if v.getLsbD 2 then 0 else s.status.errcode) ∧
    t.status.wwb = (if v.getLsbD 5 then false else s.status.wwb) ∧ t.status.none = s.status.none ∧
    { t with status := s.status } = s ∧
    memRead t 0x004 4 = .ok (BitVec.ofNat 32 (t.busy.toNat + 2 * t.status.done.toNat + 4 * t.status.err.toNat +
      8 * t.status.none.toNat + 16 * t.imgValid.toNat + 32 * t.status.wwb.toNat + 256 * t.status.errcode.toNat), t)

/-- 70_reset R332: a CTRL write with bit 0 set, busy or not, gives every register its reset value, empties PENDING and
drops the image; the memories keep their contents. With bit 0 clear it has no effect (10_state R24). -/
def Obligations.SoftResetKeepsMemories : Prop :=
  ∀ (s : State) (v : Word),
    (v.getLsbD 0 = true → ∃ t, memWrite s 0x000 4 v = .ok t ∧ t.pending = none ∧ t.img = none ∧
      (∀ r, readReg t r = if r = .sub then 0x00000101 else if r = .chMask then 0x0000000F else 0) ∧
      t.inMem = s.inMem ∧ t.comp = s.comp ∧ t.out = s.out ∧ t.draws = s.draws) ∧
      (v.getLsbD 0 = false → memWrite s 0x000 4 v = .ok s)

/-- 70_reset R341: writes while BUSY = 1. That a write to a read-only register is one of those that set WWB is the model's
reading (log 21). -/
def Obligations.BusyWritesAreTurnedAway : Prop :=
  ∀ (s : State) (v : Word),
    (s.busy = true → ∀ r : Reg, r ≠ .ctrl → r ≠ .status →
      memWrite s r.offset 4 v = .ok { s with status := { s.status with wwb := true } }) ∧
      (s.busy = true → ∀ i n, i < 2 ^ 28 → refusal s (0x10000000 + i) n = none →
        memWrite s (0x10000000 + i) n v = .ok { s with status := { s.status with wwb := true } }) ∧
      (v.getLsbD 0 = true → memWrite s 0x000 4 v = .ok (softReset s)) ∧
      (memWrite s 0x004 4 v = .ok (clearStatus s v) ∧
        (clearStatus s v).status.wwb = (if v.getLsbD 5 then false else s.status.wwb)) ∧
      (∀ off n, 0x20000000 ≤ off → off < 0x40000000 → refusal s off n = none → memWrite s off n v = .ok s) ∧
      ∀ off, off < 0x1000 → off % 4 = 0 → regAt off = none → memWrite s off 4 v = .ok s

/-- 70_reset R342: reads while BUSY = 1: the operand registers, STATUS, CTRL, COMMAND and IN as usual, with no effect; the
results and the OUT and COMP windows a fresh draw, of the access's width (log 4). Afterwards every register reads its
value. -/
def Obligations.BusyReadsDrawResults : Prop :=
  ∀ s : State,
    (s.busy = false → ∀ r : Reg, memRead s r.offset 4 = .ok (readReg s r, s)) ∧
    (s.busy = true →
      (∀ r : Reg, r.isResult = false → memRead s r.offset 4 = .ok (readReg s r, s)) ∧
      (∀ r : Reg, r.isResult = true →
        memRead s r.offset 4 = .ok (Config.freeBusRead s.draws, { s with draws := s.draws + 1 })) ∧
      (∀ i, i < 2 ^ 28 → i < s.impl.inMemBytes → memRead s (0x10000000 + i) 1 = .ok ((inByte s i).setWidth 32, s)) ∧
      (∀ i, i % 4 = 0 → i < 2 ^ 28 → i + 4 ≤ s.impl.inMemBytes → memRead s (0x10000000 + i) 4 = .ok (BitVec.ofNat 32
        ((inByte s i).toNat + (inByte s (i + 1)).toNat * 2 ^ 8 + (inByte s (i + 2)).toNat * 2 ^ 16 +
          (inByte s (i + 3)).toNat * 2 ^ 24), s)) ∧
      ∀ off n, 0x20000000 ≤ off → off < 0x40000000 → refusal s off n = none →
        memRead s off n = .ok (if n = 1 then ((Config.freeBusRead s.draws).extractLsb' 0 8).setWidth 32
          else Config.freeBusRead s.draws, { s with draws := s.draws + 1 }))

/-- 20_memory R62, R67: the IN window, idle: an 8-bit write sets one byte, a 32-bit write four in little-endian order, and
both read back; no other byte changes. That an 8-bit write takes bits [7:0] is the model's reading (log 19). -/
def Obligations.InWindowLittleEndian : Prop :=
  ∀ (s : State) (v : Word) (i : Nat), s.busy = false → s.impl.wf →
    (i < s.impl.inMemBytes → ∃ t, memWrite s (0x10000000 + i) 1 v = .ok t ∧
      memRead t (0x10000000 + i) 1 = .ok ((v.extractLsb' 0 8).setWidth 32, t) ∧
      (∀ a, inByte t a = if a = i then v.extractLsb' 0 8 else inByte s a) ∧ { t with inMem := s.inMem } = s) ∧
      (i % 4 = 0 → i + 4 ≤ s.impl.inMemBytes → ∃ t, memWrite s (0x10000000 + i) 4 v = .ok t ∧
        memRead t (0x10000000 + i) 4 = .ok (v, t) ∧ inByte t i = v.extractLsb' 0 8 ∧
        inByte t (i + 1) = v.extractLsb' 8 8 ∧ inByte t (i + 2) = v.extractLsb' 16 8 ∧
        inByte t (i + 3) = v.extractLsb' 24 8 ∧ (∀ a, a < i ∨ i + 4 ≤ a → inByte t a = inByte s a) ∧
        { t with inMem := s.inMem } = s)

/-- 20_memory R63, R64: the OUT and COMP windows: idle reads of bytes, of little-endian words and of zero-extended elements,
and writes ignored, busy or idle. After a DECODE an element from IMG_LEN up is that DECODE's draw (93 U2; log 3); after a
soft reset, when IMG_LEN reads 0, every element is still what it was, which is the model's reading (log 15). -/
def Obligations.OutAndCompWindows : Prop :=
  ∀ (s : State) (v : Word) (i : Nat), s.impl.wf →
    (i < s.impl.outMemBytes → (s.busy = false → memRead s (0x20000000 + i) 1 = .ok ((outByte s i).setWidth 32, s)) ∧
      memWrite s (0x20000000 + i) 1 v = .ok s) ∧
      (i % 4 = 0 → i + 4 ≤ s.impl.outMemBytes →
        (s.busy = false → memRead s (0x20000000 + i) 4 = .ok (BitVec.ofNat 32
          ((outByte s i).toNat + (outByte s (i + 1)).toNat * 2 ^ 8 + (outByte s (i + 2)).toNat * 2 ^ 16 +
            (outByte s (i + 3)).toNat * 2 ^ 24), s)) ∧ memWrite s (0x20000000 + i) 4 v = .ok s) ∧
      (i < s.impl.compMemWords →
        (s.busy = false → memRead s (0x30000000 + 4 * i) 4 = .ok (BitVec.ofNat 32 (compElem s i).toNat, s)) ∧
        memWrite s (0x30000000 + 4 * i) 4 v = .ok s ∧
        (∀ t img, exec .decode s = .next t → t.status.err = false → t.img = some img → img.l ≤ i →
          memRead t (0x30000000 + 4 * i) 4 = .ok (BitVec.ofNat 32 (Config.freeCompElem s.draws i).toNat, t)) ∧
        memRead (softReset s) (0x30000000 + 4 * i) 4 = .ok (BitVec.ofNat 32 (compElem s i).toNat, softReset s))

/-- 20_memory R61, R65, R68: exactly the accesses of the map are performed; every other is refused, read or write, whether
or not BUSY = 1. That an access straddling a memory's end is refused is the model's reading (log 9). -/
def Obligations.OnlyMappedAccessesArePerformed : Prop :=
  ∀ (s : State) (off n : Nat) (v : Word), s.impl.wf →
    let mapped := (off < 0x1000 ∧ n = 4 ∧ off % 4 = 0) ∨
      (0x10000000 ≤ off ∧ off + n ≤ 0x10000000 + s.impl.inMemBytes ∧ (n = 1 ∨ (n = 4 ∧ off % 4 = 0))) ∨
      (0x20000000 ≤ off ∧ off + n ≤ 0x20000000 + s.impl.outMemBytes ∧ (n = 1 ∨ (n = 4 ∧ off % 4 = 0))) ∨
      (0x30000000 ≤ off ∧ off + n ≤ 0x30000000 + 4 * s.impl.compMemWords ∧ n = 4 ∧ off % 4 = 0)
    ((∃ x, memRead s off n = .ok x) ↔ mapped) ∧ ((∃ t, memWrite s off n v = .ok t) ↔ mapped)

/-- 70_reset R330, R331: a hardware reset gives every register its reset value and draws the three memories anew, as an event
between steps (log 13). -/
def Obligations.HardwareResetDrawsMemories : Prop :=
  ∀ s : State, ∃ t, hostAct s .hardwareReset = .ok t ∧ t.pending = none ∧ t.img = none ∧
    (∀ r, readReg t r = if r = .sub then 0x00000101 else if r = .chMask then 0x0000000F else 0) ∧
    (∀ a, inByte t a = Config.freeInByte s.draws a) ∧ (∀ a, compElem t a = Config.freeCompElem s.draws a) ∧
    (∀ a, outByte t a = Config.freeOutByte s.draws a) ∧ t.host = s.host.tail ∧ t.impl = s.impl
end

