-- ==== Sys2Proof/Laws/State.lean ====
section
/-! SUPPORT. What each named update of the state does to each field, true by rfl, so that no later proof unfolds one. -/

namespace Sys2Proof.Machine

@[simp] theorem accept_regs (s : State) (w : Word) : (accept s w).regs = s.regs := rfl
@[simp] theorem accept_status (s : State) (w : Word) : (accept s w).status = s.status.onAccept := rfl
@[simp] theorem accept_results (s : State) (w : Word) : (accept s w).results = s.results := rfl
@[simp] theorem accept_pending (s : State) (w : Word) : (accept s w).pending = some w := rfl
@[simp] theorem accept_img (s : State) (w : Word) : (accept s w).img = s.img := rfl
@[simp] theorem accept_inMem (s : State) (w : Word) : (accept s w).inMem = s.inMem := rfl
@[simp] theorem accept_comp (s : State) (w : Word) : (accept s w).comp = s.comp := rfl
@[simp] theorem accept_out (s : State) (w : Word) : (accept s w).out = s.out := rfl
@[simp] theorem accept_draws (s : State) (w : Word) : (accept s w).draws = s.draws + 1 := rfl
@[simp] theorem accept_latency (s : State) (w : Word) : (accept s w).latency = Config.freeLatency s.draws := rfl
@[simp] theorem accept_host (s : State) (w : Word) : (accept s w).host = s.host := rfl
@[simp] theorem accept_reads (s : State) (w : Word) : (accept s w).reads = s.reads := rfl
@[simp] theorem accept_impl (s : State) (w : Word) : (accept s w).impl = s.impl := rfl

@[simp] theorem placeCommand_regs (s : State) (w : Word) : (placeCommand s w).regs = s.regs := rfl
@[simp] theorem placeCommand_status (s : State) (w : Word) : (placeCommand s w).status = s.status.onAccept := rfl
@[simp] theorem placeCommand_results (s : State) (w : Word) : (placeCommand s w).results = s.results := rfl
@[simp] theorem placeCommand_pending (s : State) (w : Word) : (placeCommand s w).pending = some w := rfl
@[simp] theorem placeCommand_img (s : State) (w : Word) : (placeCommand s w).img = s.img := rfl
@[simp] theorem placeCommand_inMem (s : State) (w : Word) : (placeCommand s w).inMem = s.inMem := rfl
@[simp] theorem placeCommand_comp (s : State) (w : Word) : (placeCommand s w).comp = s.comp := rfl
@[simp] theorem placeCommand_out (s : State) (w : Word) : (placeCommand s w).out = s.out := rfl
@[simp] theorem placeCommand_draws (s : State) (w : Word) : (placeCommand s w).draws = s.draws := rfl
@[simp] theorem placeCommand_latency (s : State) (w : Word) : (placeCommand s w).latency = 0 := rfl
@[simp] theorem placeCommand_host (s : State) (w : Word) : (placeCommand s w).host = s.host := rfl
@[simp] theorem placeCommand_reads (s : State) (w : Word) : (placeCommand s w).reads = s.reads := rfl
@[simp] theorem placeCommand_impl (s : State) (w : Word) : (placeCommand s w).impl = s.impl := rfl

@[simp] theorem faultEntry_regs (s : State) (c : FaultCode) : (faultEntry s c).regs = s.regs := rfl
@[simp] theorem faultEntry_status (s : State) (c : FaultCode) : (faultEntry s c).status = s.status.onFault c := rfl
@[simp] theorem faultEntry_results (s : State) (c : FaultCode) : (faultEntry s c).results = s.results := rfl
@[simp] theorem faultEntry_pending (s : State) (c : FaultCode) : (faultEntry s c).pending = none := rfl
@[simp] theorem faultEntry_img (s : State) (c : FaultCode) : (faultEntry s c).img = s.img := rfl
@[simp] theorem faultEntry_inMem (s : State) (c : FaultCode) : (faultEntry s c).inMem = s.inMem := rfl
@[simp] theorem faultEntry_comp (s : State) (c : FaultCode) : (faultEntry s c).comp = s.comp := rfl
@[simp] theorem faultEntry_out (s : State) (c : FaultCode) : (faultEntry s c).out = s.out := rfl
@[simp] theorem faultEntry_draws (s : State) (c : FaultCode) : (faultEntry s c).draws = s.draws := rfl
@[simp] theorem faultEntry_latency (s : State) (c : FaultCode) : (faultEntry s c).latency = 0 := rfl
@[simp] theorem faultEntry_host (s : State) (c : FaultCode) : (faultEntry s c).host = s.host := rfl
@[simp] theorem faultEntry_reads (s : State) (c : FaultCode) : (faultEntry s c).reads = s.reads := rfl
@[simp] theorem faultEntry_impl (s : State) (c : FaultCode) : (faultEntry s c).impl = s.impl := rfl

@[simp] theorem clearStatus_regs (s : State) (v : Word) : (clearStatus s v).regs = s.regs := rfl
@[simp] theorem clearStatus_status (s : State) (v : Word) : (clearStatus s v).status = s.status.writeOneToClear v := rfl
@[simp] theorem clearStatus_results (s : State) (v : Word) : (clearStatus s v).results = s.results := rfl
@[simp] theorem clearStatus_pending (s : State) (v : Word) : (clearStatus s v).pending = s.pending := rfl
@[simp] theorem clearStatus_img (s : State) (v : Word) : (clearStatus s v).img = s.img := rfl
@[simp] theorem clearStatus_inMem (s : State) (v : Word) : (clearStatus s v).inMem = s.inMem := rfl
@[simp] theorem clearStatus_comp (s : State) (v : Word) : (clearStatus s v).comp = s.comp := rfl
@[simp] theorem clearStatus_out (s : State) (v : Word) : (clearStatus s v).out = s.out := rfl
@[simp] theorem clearStatus_draws (s : State) (v : Word) : (clearStatus s v).draws = s.draws := rfl
@[simp] theorem clearStatus_latency (s : State) (v : Word) : (clearStatus s v).latency = s.latency := rfl
@[simp] theorem clearStatus_host (s : State) (v : Word) : (clearStatus s v).host = s.host := rfl
@[simp] theorem clearStatus_reads (s : State) (v : Word) : (clearStatus s v).reads = s.reads := rfl
@[simp] theorem clearStatus_impl (s : State) (v : Word) : (clearStatus s v).impl = s.impl := rfl

@[simp] theorem turnAway_regs (s : State) : (turnAway s).regs = s.regs := rfl
@[simp] theorem turnAway_status (s : State) : (turnAway s).status = s.status.onBusyWrite := rfl
@[simp] theorem turnAway_results (s : State) : (turnAway s).results = s.results := rfl
@[simp] theorem turnAway_pending (s : State) : (turnAway s).pending = s.pending := rfl
@[simp] theorem turnAway_img (s : State) : (turnAway s).img = s.img := rfl
@[simp] theorem turnAway_inMem (s : State) : (turnAway s).inMem = s.inMem := rfl
@[simp] theorem turnAway_comp (s : State) : (turnAway s).comp = s.comp := rfl
@[simp] theorem turnAway_out (s : State) : (turnAway s).out = s.out := rfl
@[simp] theorem turnAway_draws (s : State) : (turnAway s).draws = s.draws := rfl
@[simp] theorem turnAway_latency (s : State) : (turnAway s).latency = s.latency := rfl
@[simp] theorem turnAway_host (s : State) : (turnAway s).host = s.host := rfl
@[simp] theorem turnAway_reads (s : State) : (turnAway s).reads = s.reads := rfl
@[simp] theorem turnAway_impl (s : State) : (turnAway s).impl = s.impl := rfl

@[simp] theorem softReset_regs (s : State) : (softReset s).regs = .reset := rfl
@[simp] theorem softReset_status (s : State) : (softReset s).status = .reset := rfl
@[simp] theorem softReset_results (s : State) : (softReset s).results = .reset := rfl
@[simp] theorem softReset_pending (s : State) : (softReset s).pending = none := rfl
@[simp] theorem softReset_img (s : State) : (softReset s).img = none := rfl
@[simp] theorem softReset_inMem (s : State) : (softReset s).inMem = s.inMem := rfl
@[simp] theorem softReset_comp (s : State) : (softReset s).comp = s.comp := rfl
@[simp] theorem softReset_out (s : State) : (softReset s).out = s.out := rfl
@[simp] theorem softReset_draws (s : State) : (softReset s).draws = s.draws := rfl
@[simp] theorem softReset_latency (s : State) : (softReset s).latency = 0 := rfl
@[simp] theorem softReset_host (s : State) : (softReset s).host = s.host := rfl
@[simp] theorem softReset_reads (s : State) : (softReset s).reads = s.reads := rfl
@[simp] theorem softReset_impl (s : State) : (softReset s).impl = s.impl := rfl

@[simp] theorem hardwareReset_regs (s : State) : (hardwareReset s).regs = .reset := rfl
@[simp] theorem hardwareReset_status (s : State) : (hardwareReset s).status = .reset := rfl
@[simp] theorem hardwareReset_results (s : State) : (hardwareReset s).results = .reset := rfl
@[simp] theorem hardwareReset_pending (s : State) : (hardwareReset s).pending = none := rfl
@[simp] theorem hardwareReset_img (s : State) : (hardwareReset s).img = none := rfl
@[simp] theorem hardwareReset_inMem (s : State) : (hardwareReset s).inMem = { cells := [], epoch := s.draws } := rfl
@[simp] theorem hardwareReset_comp (s : State) : (hardwareReset s).comp = { cells := [], epoch := s.draws } := rfl
@[simp] theorem hardwareReset_out (s : State) : (hardwareReset s).out = { cells := [], epoch := s.draws } := rfl
@[simp] theorem hardwareReset_draws (s : State) : (hardwareReset s).draws = s.draws + 1 := rfl
@[simp] theorem hardwareReset_latency (s : State) : (hardwareReset s).latency = 0 := rfl
@[simp] theorem hardwareReset_host (s : State) : (hardwareReset s).host = s.host := rfl
@[simp] theorem hardwareReset_reads (s : State) : (hardwareReset s).reads = s.reads := rfl
@[simp] theorem hardwareReset_impl (s : State) : (hardwareReset s).impl = s.impl := rfl

@[simp] theorem hostMoves_regs (s : State) : (hostMoves s).regs = s.regs := rfl
@[simp] theorem hostMoves_status (s : State) : (hostMoves s).status = s.status := rfl
@[simp] theorem hostMoves_results (s : State) : (hostMoves s).results = s.results := rfl
@[simp] theorem hostMoves_pending (s : State) : (hostMoves s).pending = s.pending := rfl
@[simp] theorem hostMoves_img (s : State) : (hostMoves s).img = s.img := rfl
@[simp] theorem hostMoves_inMem (s : State) : (hostMoves s).inMem = s.inMem := rfl
@[simp] theorem hostMoves_comp (s : State) : (hostMoves s).comp = s.comp := rfl
@[simp] theorem hostMoves_out (s : State) : (hostMoves s).out = s.out := rfl
@[simp] theorem hostMoves_draws (s : State) : (hostMoves s).draws = s.draws := rfl
@[simp] theorem hostMoves_latency (s : State) : (hostMoves s).latency = s.latency - 1 := rfl
@[simp] theorem hostMoves_host (s : State) : (hostMoves s).host = s.host.tail := rfl
@[simp] theorem hostMoves_reads (s : State) : (hostMoves s).reads = s.reads := rfl
@[simp] theorem hostMoves_impl (s : State) : (hostMoves s).impl = s.impl := rfl

@[simp] theorem returnValue_regs (s : State) (v : Word) : (returnValue s v).regs = s.regs := rfl
@[simp] theorem returnValue_status (s : State) (v : Word) : (returnValue s v).status = s.status := rfl
@[simp] theorem returnValue_results (s : State) (v : Word) : (returnValue s v).results = s.results := rfl
@[simp] theorem returnValue_pending (s : State) (v : Word) : (returnValue s v).pending = s.pending := rfl
@[simp] theorem returnValue_img (s : State) (v : Word) : (returnValue s v).img = s.img := rfl
@[simp] theorem returnValue_inMem (s : State) (v : Word) : (returnValue s v).inMem = s.inMem := rfl
@[simp] theorem returnValue_comp (s : State) (v : Word) : (returnValue s v).comp = s.comp := rfl
@[simp] theorem returnValue_out (s : State) (v : Word) : (returnValue s v).out = s.out := rfl
@[simp] theorem returnValue_draws (s : State) (v : Word) : (returnValue s v).draws = s.draws := rfl
@[simp] theorem returnValue_latency (s : State) (v : Word) : (returnValue s v).latency = s.latency := rfl
@[simp] theorem returnValue_host (s : State) (v : Word) : (returnValue s v).host = s.host := rfl
@[simp] theorem returnValue_reads (s : State) (v : Word) : (returnValue s v).reads = v :: s.reads := rfl
@[simp] theorem returnValue_impl (s : State) (v : Word) : (returnValue s v).impl = s.impl := rfl

@[simp] theorem writeInByte_regs (s : State) (i : Nat) (b : Byte) : (writeInByte s i b).regs = s.regs := rfl
@[simp] theorem writeInByte_status (s : State) (i : Nat) (b : Byte) : (writeInByte s i b).status = s.status := rfl
@[simp] theorem writeInByte_results (s : State) (i : Nat) (b : Byte) : (writeInByte s i b).results = s.results := rfl
@[simp] theorem writeInByte_pending (s : State) (i : Nat) (b : Byte) : (writeInByte s i b).pending = s.pending := rfl
@[simp] theorem writeInByte_img (s : State) (i : Nat) (b : Byte) : (writeInByte s i b).img = s.img := rfl
@[simp] theorem writeInByte_inMem (s : State) (i : Nat) (b : Byte) : (writeInByte s i b).inMem = { s.inMem with cells := insertCell s.inMem.cells i b } := rfl
@[simp] theorem writeInByte_comp (s : State) (i : Nat) (b : Byte) : (writeInByte s i b).comp = s.comp := rfl
@[simp] theorem writeInByte_out (s : State) (i : Nat) (b : Byte) : (writeInByte s i b).out = s.out := rfl
@[simp] theorem writeInByte_draws (s : State) (i : Nat) (b : Byte) : (writeInByte s i b).draws = s.draws := rfl
@[simp] theorem writeInByte_latency (s : State) (i : Nat) (b : Byte) : (writeInByte s i b).latency = s.latency := rfl
@[simp] theorem writeInByte_host (s : State) (i : Nat) (b : Byte) : (writeInByte s i b).host = s.host := rfl
@[simp] theorem writeInByte_reads (s : State) (i : Nat) (b : Byte) : (writeInByte s i b).reads = s.reads := rfl
@[simp] theorem writeInByte_impl (s : State) (i : Nat) (b : Byte) : (writeInByte s i b).impl = s.impl := rfl

@[simp] theorem commit_regs (s : State) (e : Effects) : (commit s e).regs = s.regs := rfl
@[simp] theorem commit_status (s : State) (e : Effects) : (commit s e).status = s.status.onSuccess e.none := rfl
@[simp] theorem commit_results (s : State) (e : Effects) : (commit s e).results = e.results := rfl
@[simp] theorem commit_pending (s : State) (e : Effects) : (commit s e).pending = none := rfl
@[simp] theorem commit_inMem (s : State) (e : Effects) : (commit s e).inMem = s.inMem := rfl
@[simp] theorem commit_draws (s : State) (e : Effects) : (commit s e).draws = s.draws + 1 := rfl
@[simp] theorem commit_latency (s : State) (e : Effects) : (commit s e).latency = 0 := rfl
@[simp] theorem commit_host (s : State) (e : Effects) : (commit s e).host = s.host := rfl
@[simp] theorem commit_reads (s : State) (e : Effects) : (commit s e).reads = s.reads := rfl
@[simp] theorem commit_impl (s : State) (e : Effects) : (commit s e).impl = s.impl := rfl

@[simp] theorem commit_img (s : State) (e : Effects) :
    (commit s e).img = match e.decoded with
      | some (i, _) => some i
      | none => s.img := rfl
@[simp] theorem commit_comp (s : State) (e : Effects) :
    (commit s e).comp = match e.decoded with
      | some (_, elems) => { cells := cellsFrom 0 elems, epoch := s.draws }
      | none => s.comp := rfl
@[simp] theorem commit_out (s : State) (e : Effects) :
    (commit s e).out = match e.outBytes with
      | some bytes => { cells := cellsFrom 0 bytes, epoch := s.draws }
      | none => s.out := rfl

@[simp] theorem complete_ok (s : State) (e : Effects) : complete s (.ok e) = commit s e := rfl
@[simp] theorem complete_error (s : State) (c : FaultCode) : complete s (.error c) = faultEntry s c := rfl

@[simp] theorem complete_regs (s : State) (r : Except FaultCode Effects) : (complete s r).regs = s.regs := by cases r <;> rfl
@[simp] theorem complete_inMem (s : State) (r : Except FaultCode Effects) : (complete s r).inMem = s.inMem := by cases r <;> rfl
@[simp] theorem complete_host (s : State) (r : Except FaultCode Effects) : (complete s r).host = s.host := by cases r <;> rfl
@[simp] theorem complete_reads (s : State) (r : Except FaultCode Effects) : (complete s r).reads = s.reads := by cases r <;> rfl
@[simp] theorem complete_impl (s : State) (r : Except FaultCode Effects) : (complete s r).impl = s.impl := by cases r <;> rfl
@[simp] theorem complete_pending (s : State) (r : Except FaultCode Effects) : (complete s r).pending = none := by cases r <;> rfl
@[simp] theorem complete_latency (s : State) (r : Except FaultCode Effects) : (complete s r).latency = 0 := by cases r <;> rfl

@[simp] theorem Status.onAccept_done (f : Status) : f.onAccept.done = false := rfl
@[simp] theorem Status.onAccept_err (f : Status) : f.onAccept.err = false := rfl
@[simp] theorem Status.onAccept_none (f : Status) : f.onAccept.none = f.none := rfl
@[simp] theorem Status.onAccept_wwb (f : Status) : f.onAccept.wwb = f.wwb := rfl
@[simp] theorem Status.onAccept_errcode (f : Status) : f.onAccept.errcode = 0 := rfl
@[simp] theorem Status.onBusyWrite_done (f : Status) : f.onBusyWrite.done = f.done := rfl
@[simp] theorem Status.onBusyWrite_err (f : Status) : f.onBusyWrite.err = f.err := rfl
@[simp] theorem Status.onBusyWrite_none (f : Status) : f.onBusyWrite.none = f.none := rfl
@[simp] theorem Status.onBusyWrite_wwb (f : Status) : f.onBusyWrite.wwb = true := rfl
@[simp] theorem Status.onBusyWrite_errcode (f : Status) : f.onBusyWrite.errcode = f.errcode := rfl
@[simp] theorem Status.onSuccess_done (f : Status) (n : Bool) : (f.onSuccess n).done = true := rfl
@[simp] theorem Status.onSuccess_err (f : Status) (n : Bool) : (f.onSuccess n).err = f.err := rfl
@[simp] theorem Status.onSuccess_none (f : Status) (n : Bool) : (f.onSuccess n).none = n := rfl
@[simp] theorem Status.onSuccess_wwb (f : Status) (n : Bool) : (f.onSuccess n).wwb = f.wwb := rfl
@[simp] theorem Status.onSuccess_errcode (f : Status) (n : Bool) : (f.onSuccess n).errcode = f.errcode := rfl
@[simp] theorem Status.onFault_done (f : Status) (c : FaultCode) : (f.onFault c).done = f.done := rfl
@[simp] theorem Status.onFault_err (f : Status) (c : FaultCode) : (f.onFault c).err = true := rfl
@[simp] theorem Status.onFault_none (f : Status) (c : FaultCode) : (f.onFault c).none = false := rfl
@[simp] theorem Status.onFault_wwb (f : Status) (c : FaultCode) : (f.onFault c).wwb = f.wwb := rfl
@[simp] theorem Status.onFault_errcode (f : Status) (c : FaultCode) : (f.onFault c).errcode = c.code := rfl
@[simp] theorem Status.writeOneToClear_done (f : Status) (v : Word) : (f.writeOneToClear v).done = (f.done && !v.getLsbD 1) := rfl
@[simp] theorem Status.writeOneToClear_err (f : Status) (v : Word) : (f.writeOneToClear v).err = (f.err && !v.getLsbD 2) := rfl
@[simp] theorem Status.writeOneToClear_none (f : Status) (v : Word) : (f.writeOneToClear v).none = f.none := rfl
@[simp] theorem Status.writeOneToClear_wwb (f : Status) (v : Word) : (f.writeOneToClear v).wwb = (f.wwb && !v.getLsbD 5) := rfl
@[simp] theorem Status.writeOneToClear_errcode (f : Status) (v : Word) : (f.writeOneToClear v).errcode = if v.getLsbD 2 then 0 else f.errcode := rfl

@[simp] theorem Results.withOut_outLen (r : Results) (l c n : Nat) : (r.withOut l c n).outLen = BitVec.ofNat 32 l := rfl
@[simp] theorem Results.withOut_frameCount (r : Results) (l c n : Nat) : (r.withOut l c n).frameCount = BitVec.ofNat 32 c := rfl
@[simp] theorem Results.withOut_frameRows (r : Results) (l c n : Nat) : (r.withOut l c n).frameRows = BitVec.ofNat 32 n := rfl
@[simp] theorem Results.withOut_pixCount (r : Results) (l c n : Nat) : (r.withOut l c n).pixCount = r.pixCount := rfl
@[simp] theorem Results.withOut_pixVal0 (r : Results) (l c n : Nat) : (r.withOut l c n).pixVal0 = r.pixVal0 := rfl
@[simp] theorem Results.withOut_pixVal1 (r : Results) (l c n : Nat) : (r.withOut l c n).pixVal1 = r.pixVal1 := rfl
@[simp] theorem Results.withOut_pixVal2 (r : Results) (l c n : Nat) : (r.withOut l c n).pixVal2 = r.pixVal2 := rfl
@[simp] theorem Results.withOut_pixVal3 (r : Results) (l c n : Nat) : (r.withOut l c n).pixVal3 = r.pixVal3 := rfl
@[simp] theorem Results.withPix_outLen (r : Results) (vs : List Nat) : (r.withPix vs).outLen = r.outLen := rfl
@[simp] theorem Results.withPix_frameCount (r : Results) (vs : List Nat) : (r.withPix vs).frameCount = r.frameCount := rfl
@[simp] theorem Results.withPix_frameRows (r : Results) (vs : List Nat) : (r.withPix vs).frameRows = r.frameRows := rfl
@[simp] theorem Results.withPix_pixCount (r : Results) (vs : List Nat) : (r.withPix vs).pixCount = BitVec.ofNat 3 vs.length := rfl
@[simp] theorem Results.withPix_pixVal0 (r : Results) (vs : List Nat) : (r.withPix vs).pixVal0 = BitVec.ofNat 16 (vs.getD 0 0) := rfl
@[simp] theorem Results.withPix_pixVal1 (r : Results) (vs : List Nat) : (r.withPix vs).pixVal1 = BitVec.ofNat 16 (vs.getD 1 0) := rfl
@[simp] theorem Results.withPix_pixVal2 (r : Results) (vs : List Nat) : (r.withPix vs).pixVal2 = BitVec.ofNat 16 (vs.getD 2 0) := rfl
@[simp] theorem Results.withPix_pixVal3 (r : Results) (vs : List Nat) : (r.withPix vs).pixVal3 = BitVec.ofNat 16 (vs.getD 3 0) := rfl

/-! What IN's accessor sees of the updates that leave IN alone, and likewise for COMP and OUT. -/

@[simp] theorem inByte_accept (s : State) (w : Word) (a : Nat) : inByte (accept s w) a = inByte s a := rfl
@[simp] theorem inByte_placeCommand (s : State) (w : Word) (a : Nat) : inByte (placeCommand s w) a = inByte s a := rfl
@[simp] theorem inByte_faultEntry (s : State) (c : FaultCode) (a : Nat) : inByte (faultEntry s c) a = inByte s a := rfl
@[simp] theorem inByte_clearStatus (s : State) (v : Word) (a : Nat) : inByte (clearStatus s v) a = inByte s a := rfl
@[simp] theorem inByte_turnAway (s : State) (a : Nat) : inByte (turnAway s) a = inByte s a := rfl
@[simp] theorem inByte_softReset (s : State) (a : Nat) : inByte (softReset s) a = inByte s a := rfl
@[simp] theorem inByte_hostMoves (s : State) (a : Nat) : inByte (hostMoves s) a = inByte s a := rfl
@[simp] theorem inByte_returnValue (s : State) (v : Word) (a : Nat) : inByte (returnValue s v) a = inByte s a := rfl
@[simp] theorem inByte_commit (s : State) (e : Effects) (a : Nat) : inByte (commit s e) a = inByte s a := rfl
@[simp] theorem compElem_accept (s : State) (w : Word) (a : Nat) : compElem (accept s w) a = compElem s a := rfl
@[simp] theorem compElem_placeCommand (s : State) (w : Word) (a : Nat) : compElem (placeCommand s w) a = compElem s a := rfl
@[simp] theorem compElem_faultEntry (s : State) (c : FaultCode) (a : Nat) : compElem (faultEntry s c) a = compElem s a := rfl
@[simp] theorem compElem_clearStatus (s : State) (v : Word) (a : Nat) : compElem (clearStatus s v) a = compElem s a := rfl
@[simp] theorem compElem_turnAway (s : State) (a : Nat) : compElem (turnAway s) a = compElem s a := rfl
@[simp] theorem compElem_softReset (s : State) (a : Nat) : compElem (softReset s) a = compElem s a := rfl
@[simp] theorem compElem_hostMoves (s : State) (a : Nat) : compElem (hostMoves s) a = compElem s a := rfl
@[simp] theorem compElem_returnValue (s : State) (v : Word) (a : Nat) : compElem (returnValue s v) a = compElem s a := rfl
@[simp] theorem compElem_writeInByte (s : State) (i : Nat) (b : Byte) (a : Nat) : compElem (writeInByte s i b) a = compElem s a := rfl
@[simp] theorem outByte_accept (s : State) (w : Word) (a : Nat) : outByte (accept s w) a = outByte s a := rfl
@[simp] theorem outByte_placeCommand (s : State) (w : Word) (a : Nat) : outByte (placeCommand s w) a = outByte s a := rfl
@[simp] theorem outByte_faultEntry (s : State) (c : FaultCode) (a : Nat) : outByte (faultEntry s c) a = outByte s a := rfl
@[simp] theorem outByte_clearStatus (s : State) (v : Word) (a : Nat) : outByte (clearStatus s v) a = outByte s a := rfl
@[simp] theorem outByte_turnAway (s : State) (a : Nat) : outByte (turnAway s) a = outByte s a := rfl
@[simp] theorem outByte_softReset (s : State) (a : Nat) : outByte (softReset s) a = outByte s a := rfl
@[simp] theorem outByte_hostMoves (s : State) (a : Nat) : outByte (hostMoves s) a = outByte s a := rfl
@[simp] theorem outByte_returnValue (s : State) (v : Word) (a : Nat) : outByte (returnValue s v) a = outByte s a := rfl
@[simp] theorem outByte_writeInByte (s : State) (i : Nat) (b : Byte) (a : Nat) : outByte (writeInByte s i b) a = outByte s a := rfl

end Sys2Proof.Machine
end

