-- ==== Sys2Proof/Laws/Memory.lean ====
section
/-! SUPPORT. The memories: read after write, the frame of a write, the canonical form kept by every operation, and equal
reads make equal data (notes/assumptions/16.md). -/

namespace Sys2Proof.Machine

variable {w : Nat}

theorem lookupCell_insertCell_self (l : List (Nat × BitVec w)) (a : Nat) (v : BitVec w) :
    lookupCell (insertCell l a v) a = some v := by
  induction l with
  | nil => simp [insertCell, lookupCell]
  | cons c rest ih =>
    obtain ⟨k, u⟩ := c
    simp only [insertCell]
    split
    · simp [lookupCell]
    · split
      · simp [lookupCell]
      · rename_i h1 h2
        have hk : k ≠ a := fun h => h2 h.symm
        simp [lookupCell, hk, ih]

theorem lookupCell_insertCell_other (l : List (Nat × BitVec w)) (a b : Nat) (v : BitVec w) (h : b ≠ a) :
    lookupCell (insertCell l a v) b = lookupCell l b := by
  induction l with
  | nil => simp [insertCell, lookupCell, Ne.symm h]
  | cons c rest ih =>
    obtain ⟨k, u⟩ := c
    simp only [insertCell]
    split
    · simp [lookupCell, Ne.symm h]
    · split
      · rename_i h2
        subst h2
        simp [lookupCell, Ne.symm h]
      · simp [lookupCell, ih]

theorem risingBelow_mono {size lo lo' : Nat} (l : List (Nat × BitVec w)) (hle : lo' ≤ lo)
    (h : risingBelow size lo l = true) : risingBelow size lo' l = true := by
  cases l with
  | nil => rfl
  | cons c rest =>
    obtain ⟨k, u⟩ := c
    simp only [risingBelow, Bool.and_eq_true, decide_eq_true_eq] at h ⊢
    exact ⟨⟨by omega, h.1.2⟩, h.2⟩

theorem risingBelow_insertCell {size lo : Nat} (l : List (Nat × BitVec w)) (a : Nat) (v : BitVec w)
    (h : risingBelow size lo l = true) (hlo : lo ≤ a) (ha : a < size) :
    risingBelow size lo (insertCell l a v) = true := by
  induction l generalizing lo with
  | nil => simp [insertCell, risingBelow, hlo, ha]
  | cons c rest ih =>
    obtain ⟨k, u⟩ := c
    simp only [risingBelow, Bool.and_eq_true, decide_eq_true_eq] at h
    obtain ⟨⟨h1, h2⟩, h3⟩ := h
    simp only [insertCell]
    split
    · rename_i hk
      simp only [risingBelow, Bool.and_eq_true, decide_eq_true_eq]
      exact ⟨⟨hlo, ha⟩, ⟨by omega, h2⟩, h3⟩
    · split
      · rename_i hk
        subst hk
        simp only [risingBelow, Bool.and_eq_true, decide_eq_true_eq]
        exact ⟨⟨hlo, ha⟩, h3⟩
      · simp only [risingBelow, Bool.and_eq_true, decide_eq_true_eq]
        exact ⟨⟨h1, h2⟩, ih h3 (by omega)⟩

theorem lookupCell_cellsFrom (vs : List (BitVec w)) (a i : Nat) :
    lookupCell (cellsFrom a vs) i = if a ≤ i then vs[i - a]? else none := by
  induction vs generalizing a with
  | nil => simp [cellsFrom, lookupCell]
  | cons v vs ih =>
    simp only [cellsFrom, lookupCell, ih]
    by_cases h : a = i
    · subst h; simp
    · by_cases h2 : a ≤ i
      · have e : i - a = (i - (a + 1)) + 1 := by omega
        have h3 : a + 1 ≤ i := by omega
        simp [h, h2, h3, e]
      · have h3 : ¬ a + 1 ≤ i := by omega
        simp [h, h2, h3]

theorem risingBelow_cellsFrom {size lo : Nat} (vs : List (BitVec w)) (a : Nat) (hlo : lo ≤ a)
    (h : a + vs.length ≤ size) : risingBelow size lo (cellsFrom a vs) = true := by
  induction vs generalizing a lo with
  | nil => rfl
  | cons v vs ih =>
    simp only [List.length_cons] at h
    simp only [cellsFrom, risingBelow, Bool.and_eq_true, decide_eq_true_eq]
    exact ⟨⟨hlo, by omega⟩, ih (a + 1) (by omega) (by omega)⟩

theorem lookupCell_below {size lo : Nat} (l : List (Nat × BitVec w)) (h : risingBelow size lo l = true) (i : Nat)
    (hi : i < lo) : lookupCell l i = none := by
  induction l generalizing lo with
  | nil => rfl
  | cons c rest ih =>
    obtain ⟨k, u⟩ := c
    simp only [risingBelow, Bool.and_eq_true, decide_eq_true_eq] at h
    have : k ≠ i := by omega
    simp [lookupCell, this, ih h.2 (by omega)]

/-- A written cell lies inside the memory. -/
theorem lookupCell_lt_size {size lo : Nat} (l : List (Nat × BitVec w)) (h : risingBelow size lo l = true) {i : Nat}
    {v : BitVec w} (hv : lookupCell l i = some v) : i < size := by
  induction l generalizing lo with
  | nil => simp [lookupCell] at hv
  | cons c rest ih =>
    obtain ⟨k, u⟩ := c
    simp only [risingBelow, Bool.and_eq_true, decide_eq_true_eq] at h
    by_cases hk : k = i
    · omega
    · simp only [lookupCell, hk, if_false] at hv
      exact ih h.2 hv

/-- Canonical cells are determined by what is read from them. -/
theorem cells_ext {size lo : Nat} (l l' : List (Nat × BitVec w)) (h : risingBelow size lo l = true)
    (h' : risingBelow size lo l' = true) (he : ∀ i, lookupCell l i = lookupCell l' i) : l = l' := by
  induction l generalizing lo l' with
  | nil =>
    cases l' with
    | nil => rfl
    | cons c rest =>
      obtain ⟨k, u⟩ := c
      have := he k
      simp [lookupCell] at this
  | cons c rest ih =>
    obtain ⟨k, u⟩ := c
    cases l' with
    | nil =>
      have := he k
      simp [lookupCell] at this
    | cons c' rest' =>
      obtain ⟨k', u'⟩ := c'
      simp only [risingBelow, Bool.and_eq_true, decide_eq_true_eq] at h h'
      have hkk : k = k' := by
        rcases Nat.lt_trichotomy k k' with hlt | heq | hgt
        · have := he k
          have hn : k' ≠ k := by omega
          simp [lookupCell, hn, lookupCell_below rest' h'.2 k (by omega)] at this
        · exact heq
        · have := he k'
          have hn : k ≠ k' := by omega
          simp [lookupCell, hn, lookupCell_below rest h.2 k' (by omega)] at this
      subst hkk
      have hu : u = u' := by
        have := he k
        simpa [lookupCell] using this
      subst hu
      have : rest = rest' := by
        refine ih rest' h.2 h'.2 fun i => ?_
        by_cases hi : k = i
        · subst hi
          rw [lookupCell_below rest h.2 k (by omega), lookupCell_below rest' h'.2 k (by omega)]
        · have := he i
          simpa [lookupCell, hi] using this
      rw [this]

/-! The three memories. -/

theorem inByte_writeInByte_self (s : State) (i : Nat) (b : Byte) : inByte (writeInByte s i b) i = b := by
  simp [inByte, lookupCell_insertCell_self]

theorem inByte_writeInByte_other (s : State) (i a : Nat) (b : Byte) (h : a ≠ i) :
    inByte (writeInByte s i b) a = inByte s a := by
  simp [inByte, lookupCell_insertCell_other _ _ _ _ h]

theorem inByte_writeInBytes (s : State) (i a : Nat) (bs : List Byte) :
    inByte (writeInBytes s i bs) a = if i ≤ a ∧ a < i + bs.length then bs.getD (a - i) 0 else inByte s a := by
  induction bs generalizing s i with
  | nil =>
    have : ¬(i ≤ a ∧ a < i) := by omega
    simp [writeInBytes, this]
  | cons b bs ih =>
    simp only [writeInBytes, ih, List.length_cons]
    by_cases h : a = i
    · subst h
      have h2 : a ≤ a ∧ a < a + (bs.length + 1) := by omega
      simp [h2, inByte_writeInByte_self]
    · by_cases h1 : i + 1 ≤ a ∧ a < i + 1 + bs.length
      · have h2 : i ≤ a ∧ a < i + (bs.length + 1) := by omega
        have e : a - i = (a - (i + 1)) + 1 := by omega
        simp [h1, h2, e]
      · have h2 : ¬(i ≤ a ∧ a < i + (bs.length + 1)) := by omega
        simp only [if_neg h1, if_neg h2, inByte_writeInByte_other _ _ _ _ h]

/-- Writing IN changes the written cells of IN and nothing else. -/
theorem writeInBytes_eq (s : State) (i : Nat) (bs : List Byte) :
    ∃ m, writeInBytes s i bs = { s with inMem := m } ∧ m.epoch = s.inMem.epoch := by
  induction bs generalizing s i with
  | nil => exact ⟨s.inMem, rfl, rfl⟩
  | cons b bs ih =>
    obtain ⟨m, hm, he⟩ := ih (writeInByte s i b) (i + 1)
    exact ⟨m, by simp only [writeInBytes, hm]; rfl, by simpa using he⟩

theorem writeInBytes_wf (s : State) (i : Nat) (bs : List Byte) (size : Nat) (h : s.inMem.wf size = true)
    (hi : i + bs.length ≤ size) : (writeInBytes s i bs).inMem.wf size = true := by
  induction bs generalizing s i with
  | nil => exact h
  | cons b bs ih =>
    simp only [List.length_cons] at hi
    refine ih (writeInByte s i b) (i + 1) ?_ (by omega)
    exact risingBelow_insertCell _ _ _ h (Nat.zero_le _) (by omega)

theorem outByte_of_cells {s : State} {bytes : List Byte} {e : Nat}
    (h : s.out = { cells := cellsFrom 0 bytes, epoch := e }) (i : Nat) (hi : i < bytes.length) :
    outByte s i = bytes.getD i 0 := by
  simp [outByte, h, lookupCell_cellsFrom, hi]

theorem outByte_of_cells_beyond {s : State} {bytes : List Byte} {e : Nat}
    (h : s.out = { cells := cellsFrom 0 bytes, epoch := e }) (i : Nat) (hi : bytes.length ≤ i) :
    outByte s i = Config.freeOutByte e i := by
  simp [outByte, h, lookupCell_cellsFrom, hi]

theorem compElem_of_cells {s : State} {es : List Elem} {e : Nat}
    (h : s.comp = { cells := cellsFrom 0 es, epoch := e }) (i : Nat) (hi : i < es.length) :
    compElem s i = es.getD i 0 := by
  simp [compElem, h, lookupCell_cellsFrom, hi]

theorem compElem_of_cells_beyond {s : State} {es : List Elem} {e : Nat}
    (h : s.comp = { cells := cellsFrom 0 es, epoch := e }) (i : Nat) (hi : es.length ≤ i) :
    compElem s i = Config.freeCompElem e i := by
  simp [compElem, h, lookupCell_cellsFrom, hi]

end Sys2Proof.Machine
end

