-- ==== Sys2Proof/Laws/Lists.lean ====
section
/-! SUPPORT. The slices, regions and rasters of element arrays, read at one index: each list the commands build is
described by its length and its entries. -/

namespace Sys2Proof.Machine

/-- Entry `i * m + j` of a concatenation of lists of one length `m`. -/
theorem getD_flatMap_range {α : Type} (n m : Nat) (f : Nat → List α) (d : α)
    (hm : ∀ i, i < n → (f i).length = m) (i j : Nat) (hi : i < n) (hj : j < m) :
    ((List.range n).flatMap f).getD (i * m + j) d = (f i).getD j d := by
  induction n with
  | zero => omega
  | succ n ih =>
    have hlen : ((List.range n).flatMap f).length = n * m := by
      rw [List.length_flatMap]
      have : (List.range n).map (fun a => (f a).length) = List.replicate n m := by
        apply List.ext_getElem
        · simp
        · intro k h1 h2
          simp at h1
          simp [hm k (by omega)]
      rw [this]; simp
    rw [List.range_succ, List.flatMap_append]
    simp only [List.flatMap_cons, List.flatMap_nil, List.append_nil]
    by_cases h : i < n
    · have hlt : i * m + j < n * m := by
        have : (i + 1) * m ≤ n * m := Nat.mul_le_mul_right m h
        rw [Nat.add_mul] at this
        omega
      rw [List.getD_append _ _ _ _ (by omega)]
      exact ih (fun k hk => hm k (by omega)) h
    · have hin : i = n := by omega
      subst hin
      rw [List.getD_append_right _ _ _ _ (by omega), hlen]
      congr 1
      omega

theorem length_flatMap_range {α : Type} (n m : Nat) (f : Nat → List α)
    (hm : ∀ i, i < n → (f i).length = m) : ((List.range n).flatMap f).length = n * m := by
  rw [List.length_flatMap]
  have : (List.range n).map (fun a => (f a).length) = List.replicate n m := by
    apply List.ext_getElem
    · simp
    · intro k h1 h2
      simp at h1
      simp [hm k h1]
  rw [this]; simp

theorem getD_map_range {α : Type} (n : Nat) (f : Nat → α) (d : α) (i : Nat) :
    ((List.range n).map f).getD i d = if i < n then f i else d := by
  by_cases h : i < n <;> simp [List.getD_eq_getElem?_getD, h]

@[simp] theorem window_length (xs : List Nat) (a k : Nat) : (window xs a k).length = k := by simp [window]

theorem window_getD (xs : List Nat) (a k i : Nat) :
    (window xs a k).getD i 0 = if i < k then xs.getD (a + i) 0 else 0 := by
  rw [window, getD_map_range]

@[simp] theorem imageData_length (s : State) (img : Image) : (imageData s img).length = img.l := by simp [imageData]

theorem imageData_getD (s : State) (img : Image) (i : Nat) :
    (imageData s img).getD i 0 = if i < img.l then (compElem s i).toNat else 0 := by
  rw [imageData, getD_map_range]

@[simp] theorem rawBytes_length (s : State) (n : Nat) : (rawBytes s n).length = n := by simp [rawBytes]

theorem rawBytes_getD (s : State) (n i : Nat) :
    (rawBytes s n).getD i 0 = if i < n then (inByte s i).toNat else 0 := by
  rw [rawBytes, getD_map_range]

theorem frameData_getD (data : List Nat) (fr : Frames) (k i : Nat) :
    (frameData data fr k).getD i 0 = if i < fr.len then data.getD (k * fr.len + i) 0 else 0 := window_getD _ _ _ _

@[simp] theorem frameData_length (data : List Nat) (fr : Frames) (k : Nat) : (frameData data fr k).length = fr.len :=
  window_length _ _ _

theorem frameData_whole (data : List Nat) (fr : Frames) (h : fr.len = data.length) : frameData data fr 0 = data := by
  apply List.ext_getElem
  · simp [h]
  · intro i h1 h2
    have h3 := frameData_getD data fr 0 i
    simp only [Nat.zero_mul, Nat.zero_add] at h3
    rw [if_pos (by omega)] at h3
    rw [List.getD_eq_getElem?_getD, List.getD_eq_getElem?_getD, List.getElem?_eq_getElem h1,
      List.getElem?_eq_getElem h2] at h3
    exact h3

theorem region_length {α : Type} (r0 r1 c0 c1 : Nat) (f : Nat → Nat → α) :
    (region r0 r1 c0 c1 f).length = (r1 - r0) * (c1 - c0) :=
  length_flatMap_range _ _ _ fun i _ => by simp

/-- Entry `i * w + j` of a region of width `w` is the value at its row `i` and column `j`. -/
theorem region_getD {α : Type} (r0 r1 c0 c1 : Nat) (f : Nat → Nat → α) (d : α) (i j : Nat) (hi : i < r1 - r0)
    (hj : j < c1 - c0) : (region r0 r1 c0 c1 f).getD (i * (c1 - c0) + j) d = f (r0 + i) (c0 + j) := by
  rw [region, getD_flatMap_range _ (c1 - c0) _ d (fun _ _ => by simp) i j hi hj, getD_map_range, if_pos hj]

theorem raster_length (k rows w : Nat) (px : Nat → Nat → Nat → Pixel) :
    (raster k rows w px).length = k * rows * w * 4 := by
  have h1 : ∀ f r, ((List.range w).flatMap fun c => (px f r c).bytes).length = w * 4 := fun f r =>
    length_flatMap_range _ _ _ fun _ _ => rfl
  have h2 : ∀ f, ((List.range rows).flatMap fun r => (List.range w).flatMap fun c => (px f r c).bytes).length =
      rows * (w * 4) := fun f => length_flatMap_range _ _ _ fun r _ => h1 f r
  rw [raster, length_flatMap_range _ _ _ fun f _ => h2 f]
  ring

/-- Byte `ch` of pixel `(r, c)` of frame `k` stands at `((k·Fh + r)·W + c)·4 + ch` (40_commands R128). -/
theorem raster_getD (n rows w : Nat) (px : Nat → Nat → Nat → Pixel) (k r c ch : Nat) (hk : k < n) (hr : r < rows)
    (hc : c < w) (hch : ch < 4) :
    (raster n rows w px).getD (((k * rows + r) * w + c) * 4 + ch) 0 = (px k r c).bytes.getD ch 0 := by
  have h1 : ∀ f r, ((List.range w).flatMap fun c => (px f r c).bytes).length = w * 4 := fun f r =>
    length_flatMap_range _ _ _ fun _ _ => rfl
  have h2 : ∀ f, ((List.range rows).flatMap fun r => (List.range w).flatMap fun c => (px f r c).bytes).length =
      rows * (w * 4) := fun f => length_flatMap_range _ _ _ fun r _ => h1 f r
  have hcw : c * 4 + ch < w * 4 := by omega
  have hrw : r * (w * 4) + (c * 4 + ch) < rows * (w * 4) := by
    have : (r + 1) * (w * 4) ≤ rows * (w * 4) := Nat.mul_le_mul_right _ hr
    rw [Nat.add_mul] at this
    omega
  have e : ((k * rows + r) * w + c) * 4 + ch = k * (rows * (w * 4)) + (r * (w * 4) + (c * 4 + ch)) := by ring
  rw [e, raster, getD_flatMap_range _ _ _ _ (fun f _ => h2 f) k _ hk hrw,
    getD_flatMap_range _ _ _ _ (fun r _ => h1 k r) r _ hr hcw,
    getD_flatMap_range _ 4 _ _ (fun _ _ => rfl) c _ hc hch]

theorem toBytes_length (xs : List Nat) : (toBytes xs).length = xs.length := by simp [toBytes]

theorem toBytes_getD (xs : List Nat) (i : Nat) : (toBytes xs).getD i 0 = BitVec.ofNat 8 (xs.getD i 0) := by
  by_cases h : i < xs.length <;> simp [toBytes, List.getD_eq_getElem?_getD, h]

end Sys2Proof.Machine
end

