-- ==== Sys2Proof/Laws/Unpack.lean ====
section
/-! SUPPORT. The unpacking datapath: lengths of every array it builds, bounds of every component, and the byte and lane
codings as inverses (spec/41_unpack.md R156–R167). -/

namespace Sys2Proof.Machine

theorem le_mul_ceilDiv (n m : Nat) (hm : 1 ≤ m) : n ≤ m * ceilDiv n m := by
  unfold ceilDiv
  have h := Nat.div_add_mod (n + m - 1) m
  have h2 := Nat.mod_lt (n + m - 1) hm
  omega

theorem ceilDiv_eq_zero_iff (n m : Nat) (hm : 1 ≤ m) : ceilDiv n m = 0 ↔ n = 0 := by
  unfold ceilDiv
  rw [Nat.div_eq_zero_iff]
  omega

theorem mul_ceilDiv_lt (n m : Nat) (hm : 1 ≤ m) : m * ceilDiv n m < n + m := by
  unfold ceilDiv
  have h := Nat.div_mul_le_self (n + m - 1) m
  rw [Nat.mul_comm] at h
  omega

theorem ceilDiv_mul_self (k m : Nat) (hm : 1 ≤ m) : ceilDiv (m * k) m = k := by
  unfold ceilDiv
  rw [show m * k + m - 1 = m * k + (m - 1) by omega, Nat.mul_add_div (by omega), Nat.div_eq_of_lt (by omega)]
  rfl

/-! Bytes and lanes. -/

theorem numE_big_append (xs ys : List Nat) :
    numE .big (xs ++ ys) = numE .big xs * 256 ^ ys.length + numE .big ys := by
  have key : ∀ (l : List Nat) (a : Nat), l.foldl (fun acc b => acc * 256 + b) a =
      a * 256 ^ l.length + l.foldl (fun acc b => acc * 256 + b) 0 := by
    intro l
    induction l with
    | nil => intro a; simp
    | cons x l ih =>
      intro a
      simp only [List.foldl_cons, List.length_cons]
      rw [ih (a * 256 + x), ih (0 * 256 + x)]
      ring
  simp only [numE, List.foldl_append]
  exact key ys _

theorem numE_big_cons (x : Nat) (xs : List Nat) :
    numE .big (x :: xs) = x * 256 ^ xs.length + numE .big xs := by
  have := numE_big_append [x] xs
  simpa [numE] using this

theorem numE_little_cons (x : Nat) (xs : List Nat) : numE .little (x :: xs) = x + 256 * numE .little xs := rfl

/-- `NumE` of `k` bytes is below `256^k` (20_memory R71). -/
theorem numE_lt (e : Endian) (bs : List Nat) (h : ∀ b ∈ bs, b < 256) : numE e bs < 256 ^ bs.length := by
  induction bs with
  | nil => cases e <;> simp [numE]
  | cons x xs ih =>
    have hx : x < 256 := h x (by simp)
    have hxs := ih fun b hb => h b (by simp [hb])
    have hp : 0 < 256 ^ xs.length := Nat.pow_pos (by omega)
    cases e with
    | big =>
      rw [numE_big_cons, List.length_cons, Nat.pow_succ]
      have : x * 256 ^ xs.length ≤ 255 * 256 ^ xs.length := Nat.mul_le_mul_right _ (by omega)
      omega
    | little =>
      rw [numE_little_cons, List.length_cons, Nat.pow_succ]
      omega

@[simp] theorem laneEncode_length (v k : Nat) (e : Endian) : (laneEncode v k e).length = k := by
  cases e <;> simp [laneEncode]

theorem laneEncode_lt (v k : Nat) (e : Endian) : ∀ b ∈ laneEncode v k e, b < 256 := by
  intro b hb
  cases e <;> simp only [laneEncode, List.mem_map] at hb <;> obtain ⟨j, -, rfl⟩ := hb <;>
    exact Nat.mod_lt _ (by omega)

theorem laneEncode_little_succ (v k : Nat) :
    laneEncode v (k + 1) .little = v % 256 :: laneEncode (v / 256) k .little := by
  simp only [laneEncode, List.range_succ_eq_map, List.map_cons, List.map_map]
  congr 1
  apply List.map_congr_left
  intro j _
  simp only [Function.comp_apply, Nat.shiftRight_eq_div_pow, Nat.succ_eq_add_one, Nat.mul_add, Nat.pow_add,
    Nat.div_div_eq_div_mul]
  rw [Nat.mul_comm (2 ^ (8 * j))]

theorem laneEncode_big_succ (v k : Nat) :
    laneEncode v (k + 1) .big = laneEncode (v / 256) k .big ++ [v % 256] := by
  simp only [laneEncode, List.range_succ, List.map_append, List.map_cons, List.map_nil]
  congr 1
  · apply List.map_congr_left
    intro j hj
    simp only [List.mem_range] at hj
    rw [Nat.shiftRight_eq_div_pow, Nat.shiftRight_eq_div_pow, Nat.div_div_eq_div_mul,
      show 8 * (k + 1 - 1 - j) = 8 + 8 * (k - 1 - j) by omega, Nat.pow_add]
  · simp

/-- `NumE` of a lane's bytes is the lane (41_unpack R164). -/
theorem numE_laneEncode (v k : Nat) (e : Endian) (h : v < 256 ^ k) : numE e (laneEncode v k e) = v := by
  induction k generalizing v with
  | zero =>
    have : v = 0 := by simpa using h
    subst this
    cases e <;> rfl
  | succ k ih =>
    have hd : v / 256 < 256 ^ k := by
      rw [Nat.div_lt_iff_lt_mul (by omega)]
      rwa [Nat.pow_succ] at h
    cases e with
    | little =>
      rw [laneEncode_little_succ, numE_little_cons, ih _ hd]
      omega
    | big =>
      rw [laneEncode_big_succ, numE_big_append, ih _ hd]
      simp [numE]
      omega

/-- The lane of `NumE` of bytes is the bytes (41_unpack R164). -/
theorem laneEncode_numE (e : Endian) (bs : List Nat) (h : ∀ b ∈ bs, b < 256) :
    laneEncode (numE e bs) bs.length e = bs := by
  cases e with
  | little =>
    induction bs with
    | nil => rfl
    | cons x xs ih =>
      have hx : x < 256 := h x (by simp)
      rw [List.length_cons, laneEncode_little_succ, numE_little_cons]
      have h1 : (x + 256 * numE .little xs) % 256 = x := by omega
      have h2 : (x + 256 * numE .little xs) / 256 = numE .little xs := by omega
      rw [h1, h2, ih fun b hb => h b (by simp [hb])]
  | big =>
    induction bs using List.reverseRecOn with
    | nil => rfl
    | append_singleton xs x ih =>
      have hx : x < 256 := h x (by simp)
      rw [List.length_append, List.length_singleton, laneEncode_big_succ, numE_big_append]
      have hn : numE .big [x] = x := by simp [numE]
      simp only [List.length_singleton, Nat.pow_one, hn]
      have h1 : (numE .big xs * 256 + x) % 256 = x := by omega
      have h2 : (numE .big xs * 256 + x) / 256 = numE .big xs := by omega
      rw [h1, h2, ih fun b hb => h b (by simp [hb])]

/-! The pre-pass. -/

@[simp] theorem byteReverse_length (a : List Nat) (g : Nat) : (byteReverse a g).length = a.length := by
  unfold byteReverse
  split <;> simp

theorem byteReverse_small (a : List Nat) (g : Nat) (h : g ≤ 1) : byteReverse a g = a := by
  simp [byteReverse, h]

theorem getD_lt_of_forall {xs : List Nat} {m : Nat} (hm : 0 < m) (h : ∀ x ∈ xs, x < m) (i : Nat) : xs.getD i 0 < m := by
  by_cases hi : i < xs.length
  · rw [List.getD_eq_getElem?_getD, List.getElem?_eq_getElem hi]
    exact h _ (List.getElem_mem hi)
  · simpa [List.getD_eq_getElem?_getD, hi] using hm

theorem byteReverse_lt {a : List Nat} (g : Nat) (h : ∀ x ∈ a, x < 256) : ∀ x ∈ byteReverse a g, x < 256 := by
  unfold byteReverse
  split
  · exact h
  · intro x hx
    simp only [List.mem_map] at hx
    obtain ⟨i, -, rfl⟩ := hx
    split <;> exact getD_lt_of_forall (by omega) h _

theorem rawBytes_lt (s : State) (n : Nat) : ∀ x ∈ rawBytes s n, x < 256 := by
  intro x hx
  simp only [rawBytes, List.mem_map] at hx
  obtain ⟨i, -, rfl⟩ := hx
  exact (inByte s i).isLt

theorem window_lt {xs : List Nat} {m : Nat} (hm : 0 < m) (h : ∀ x ∈ xs, x < m) (a k : Nat) :
    ∀ x ∈ window xs a k, x < m := by
  intro x hx
  simp only [window, List.mem_map] at hx
  obtain ⟨i, -, rfl⟩ := hx
  exact getD_lt_of_forall hm h _

/-! The groups. -/

theorem extractGroups_length (single : Bool) (d : Descriptor) (e : Endian) (b : List Nat) :
    (extractGroups single d e b).length = groupCount (selectPath single d) d b.length := by
  simp [extractGroups]

/-- The array of groups fills whole rows (41_unpack R162, R167). -/
theorem unpack_length (single : Bool) (d : Descriptor) (e : Endian) (b : List Nat) (w : Nat) (hw : 1 ≤ w) :
    (unpack single d e b w).length = w * unpackHeight single d b.length w := by
  have := le_mul_ceilDiv (groupCount (selectPath single d) d b.length) w hw
  simp only [unpack, unpackHeight, List.length_append, List.length_replicate, extractGroups_length]
  omega

theorem unpack_group_length (single : Bool) (d : Descriptor) (e : Endian) (b : List Nat) (w : Nat) :
    ∀ g ∈ unpack single d e b w, g.length = d.compCount := by
  intro g hg
  simp only [unpack, List.mem_append, List.mem_replicate, extractGroups, List.mem_map] at hg
  rcases hg with ⟨i, -, rfl⟩ | ⟨-, rfl⟩ <;> simp

theorem unpack_getD (single : Bool) (d : Descriptor) (e : Endian) (b : List Nat) (w g j : Nat) (hj : j < d.compCount) :
    ((unpack single d e b w).getD g []).getD j 0 =
      if g < groupCount (selectPath single d) d b.length then groupComp (selectPath single d) single d e b g j else 0 := by
  by_cases hg : g < groupCount (selectPath single d) d b.length
  · rw [unpack, List.getD_append _ _ _ _ (by rw [extractGroups_length]; exact hg), extractGroups, getD_map_range,
      if_pos hg, getD_map_range, if_pos hj, if_pos hg]
  · rw [if_neg hg]
    rw [unpack, List.getD_append_right _ _ _ _ (by rw [extractGroups_length]; omega)]
    rw [List.getD_eq_getElem?_getD (l := List.replicate _ _), List.getElem?_replicate]
    split
    · simp [List.getD_eq_getElem?_getD, hj]
    · simp

theorem rgbElems_length (d : Descriptor) (comps : List Nat) : (rgbElems d comps).length = 4 := by simp [rgbElems]

theorem rgbDecode_length (d : Descriptor) (e : Endian) (b : List Nat) (w : Nat) (hw : 1 ≤ w) :
    (rgbDecode d e b w).length = 4 * (w * unpackHeight false d b.length w) := by
  rw [rgbDecode, List.length_flatMap]
  have : (unpack false d e b w).map (fun a => (rgbElems d a).length) =
      List.replicate (unpack false d e b w).length 4 := by
    apply List.ext_getElem <;> simp [rgbElems_length]
  rw [this, unpack_length _ _ _ _ _ hw]
  simp [Nat.mul_comm]

theorem bayerDecode_length (d : Descriptor) (e : Endian) (b : List Nat) (w : Nat) (hw : 1 ≤ w) :
    (bayerDecode d e b w).length = w * unpackHeight true d b.length w := by
  simp [bayerDecode, unpack_length _ _ _ _ _ hw]

/-- A DECODE's array has the length its size says (41_unpack R167, 43_yuv R220). -/
theorem decodedElems_length (fam : Family) (d : Descriptor) (e : Endian) (b : List Nat) (w : Nat) (hw : 1 ≤ w) :
    (decodedElems fam d e b w).length = (decodedSize fam d b.length w).2.1 := by
  cases fam with
  | rgb o => exact rgbDecode_length d e b w hw
  | yuv y => simp [decodedElems, decodedSize, yuvDecode]
  | gray => exact bayerDecode_length d e b w hw
  | bayer o => exact bayerDecode_length d e b w hw

/-- `len(elems) = L` (40_commands R122). -/
theorem decodedComp_length (s : State) (fam : Family) (hw : 1 ≤ s.regs.width.toNat) :
    (decodedComp s fam).length = (decodedImage s fam).l := by
  simp only [decodedComp, decodedElems_length _ _ _ _ _ hw, byteReverse_length, rawBytes_length]
  rfl

end Sys2Proof.Machine
end

