-- ==== Sys2Proof/Laws/Image.lean ====
section
/-! SUPPORT. What a DECODE that passes its checks latches: a well-formed image whose elements fit their widths
(spec/41_unpack.md R152–R162, 42_rgb R191, R192, 43_yuv R220, 44_bayer R260). -/

namespace Sys2Proof.Machine

theorem getD_flatMap {α β : Type} (l : List α) (m : Nat) (f : α → List β) (a : α) (d : β)
    (hm : ∀ x, (f x).length = m) (i j : Nat) (hi : i < l.length) (hj : j < m) :
    (l.flatMap f).getD (i * m + j) d = (f (l.getD i a)).getD j d := by
  have e : l = (List.range l.length).map fun k => l.getD k a := by
    apply List.ext_getElem
    · simp
    · intro k h1 h2
      simp [List.getD_eq_getElem?_getD, h1]
  conv_lhs => rw [e]
  rw [List.flatMap_map]
  exact getD_flatMap_range l.length m (fun k => f (l.getD k a)) d (fun _ _ => hm _) i j hi hj

/-! The descriptor checks. -/

theorem generalFault_false {d : Descriptor} (h : generalFault d = false) :
    (1 ≤ d.subH ∧ 1 ≤ d.subV) ∧ (d.bpc0 ≤ 16 ∧ d.bpc1 ≤ 16 ∧ d.bpc2 ≤ 16 ∧ d.bpc3 ≤ 16) ∧ 1 ≤ d.widthSum := by
  simp only [generalFault, Bool.or_eq_false_iff, beq_eq_false_iff_ne, decide_eq_false_iff_not, ne_eq] at h
  omega

theorem codecFault_none {c : Codec} {d : Descriptor} (h : codecFault c d = none) :
    match c with
    | .rgb o => rgbFault o d = false
    | .gray => singleFault d = false
    | .bayer _ => singleFault d = false
    | .yuvPacked _ => yuvFault d = false
    | .yuvSemi _ => yuvFault d = false
    | .yuvPlanar _ => yuvFault d = false := by
  cases c <;> simpa [codecFault] using h

/-- A descriptor that passes its checks names a family of the codec and passes the codec's own checks. -/
theorem checkDescriptor_ok {c : Codec} {d : Descriptor} {fam : Family} (h : checkDescriptor c d = .ok fam) :
    generalFault d = false ∧ familyOf c d.subH d.subV = some fam ∧ codecFault c d = none := by
  unfold checkDescriptor at h
  split at h
  · cases h
  · rename_i hg
    split at h
    · cases h
    · rename_i hc
      split at h
      · rename_i fam' hf
        cases h
        exact ⟨by simpa using hg, hf, hc⟩
      · cases h

/-- The family a codec has for a subsampling pair is one that codec serves. -/
theorem familyOf_codec {c : Codec} {h v : Nat} {fam : Family} (hf : familyOf c h v = some fam) : fam.codec = c := by
  cases c <;> simp only [familyOf] at hf <;> (repeat' split at hf) <;> simp_all <;> subst hf <;> rfl

theorem singleFault_false {d : Descriptor} (h : singleFault d = false) :
    (1 ≤ d.bpc0 ∧ d.bpc1 = 0 ∧ d.bpc2 = 0 ∧ d.bpc3 = 0) ∧ (d.subbyte = true → d.shift = 0) ∧
      (d.subbyte = false → d.bpc0 + d.shift ≤ 16) := by
  simp only [singleFault, Bool.or_eq_false_iff, beq_eq_false_iff_ne, bne_eq_false_iff_eq, ne_eq] at h
  obtain ⟨⟨⟨⟨h0, h1⟩, h2⟩, h3⟩, h4⟩ := h
  refine ⟨⟨by omega, h1, h2, h3⟩, fun hs => ?_, fun hs => ?_⟩
  · simpa [hs] using h4
  · simpa [hs] using h4

/-- The one present component of a GRAY or BAYER descriptor (41_unpack R154, R157). -/
theorem present_single {d : Descriptor} (h : singleFault d = false) :
    d.present = [0] ∧ d.widths = [d.bpc0] ∧ d.compCount = 1 ∧ d.widthSum = d.bpc0 := by
  obtain ⟨⟨h0, h1, h2, h3⟩, -, -⟩ := singleFault_false h
  have hp : d.present = [0] := by
    have : 0 < d.bpc0 := h0
    simp [Descriptor.present, Descriptor.width, h1, h2, h3, this]
  refine ⟨hp, ?_, ?_, ?_⟩
  · simp [Descriptor.widths, hp, Descriptor.width]
  · simp [Descriptor.compCount, hp]
  · simp [Descriptor.widthSum, h1, h2, h3]

theorem mem_present {d : Descriptor} {i : Nat} (hi : i < 4) : i ∈ d.present ↔ 0 < d.width i := by
  have : i = 0 ∨ i = 1 ∨ i = 2 ∨ i = 3 := by omega
  rcases this with rfl | rfl | rfl | rfl <;> simp [Descriptor.present]

/-- The width of the component a present slot holds. -/
theorem widths_getD_idxOf {d : Descriptor} {i : Nat} (h : i ∈ d.present) :
    d.widths.getD (d.present.idxOf i) 0 = d.width i := by
  have hlt := List.idxOf_lt_length_iff.2 h
  rw [List.getD_eq_getElem?_getD, Descriptor.widths, List.getElem?_map, List.getElem?_eq_getElem hlt]
  simp

theorem width_le_max (d : Descriptor) (i : Nat) : d.width i ≤ d.widthMax := by
  unfold Descriptor.width Descriptor.widthMax
  split <;> omega

/-! Components fit their widths. -/

theorem groupComp_lt {d : Descriptor} (single : Bool) (e : Endian) {b : List Nat} (hb : ∀ x ∈ b, x < 256) (g j : Nat)
    (hj : j < d.compCount) (hs : single = true → singleFault d = false) :
    groupComp (selectPath single d) single d e b g j < 2 ^ d.widths.getD j 0 := by
  have hlane : ∀ a k, numE e (window b a k) < 256 ^ k := fun a k => by
    have := numE_lt e (window b a k) (window_lt (by omega) hb a k)
    rwa [window_length] at this
  have hmem : j < d.widths.length := by simpa [Descriptor.widths, Descriptor.compCount] using hj
  unfold selectPath
  split
  · exact Nat.mod_lt _ (Nat.pow_pos (by omega))
  · split
    · rename_i h1 h2
      obtain ⟨-, hw, hc, -⟩ := present_single (hs h2)
      have : j = 0 := by omega
      subst this
      simp only [groupComp, laneComp, h2, if_true, hw]
      exact Nat.mod_lt _ (Nat.pow_pos (by omega))
    · rename_i h2
      split
      · rename_i h3
        have hw : d.widths.getD j 0 = 8 := by
          have := List.all_eq_true.1 h3 (d.widths[j]) (List.getElem_mem hmem)
          simpa [List.getD_eq_getElem?_getD, hmem] using this
        simp only [groupComp, laneComp, h2, hw]
        exact hlane _ 1
      · split
        · rename_i h3
          have hw : d.widths.getD j 0 = 16 := by
            have := List.all_eq_true.1 h3 (d.widths[j]) (List.getElem_mem hmem)
            simpa [List.getD_eq_getElem?_getD, hmem] using this
          simp only [groupComp, laneComp, h2, hw]
          exact hlane _ 2
        · exact Nat.mod_lt _ (Nat.pow_pos (by omega))

theorem unpack_getD_lt {d : Descriptor} (single : Bool) (e : Endian) {b : List Nat} (hb : ∀ x ∈ b, x < 256) (w g j : Nat)
    (hj : j < d.compCount) (hs : single = true → singleFault d = false) :
    ((unpack single d e b w).getD g []).getD j 0 < 2 ^ d.widths.getD j 0 := by
  rw [unpack_getD _ _ _ _ _ _ _ hj]
  split
  · exact groupComp_lt single e hb g j hj hs
  · exact Nat.pow_pos (by omega)

/-- Element `4·p + i` of an RGB array: the component of a present slot, SYN in an absent one (42_rgb R191, R192). -/
theorem rgbDecode_getD (d : Descriptor) (e : Endian) (b : List Nat) (w p i : Nat)
    (hp : p < (unpack false d e b w).length) (hi : i < 4) :
    (rgbDecode d e b w).getD (4 * p + i) 0 =
      if 0 < d.width i then ((unpack false d e b w).getD p []).getD (d.present.idxOf i) 0 else synValue d := by
  rw [rgbDecode, Nat.mul_comm 4 p, getD_flatMap _ 4 _ [] 0 (rgbElems_length d) p i hp hi, rgbElems,
    getD_map_range, if_pos hi]

theorem bayerDecode_getD (d : Descriptor) (e : Endian) (b : List Nat) (w p : Nat) :
    (bayerDecode d e b w).getD p 0 = ((unpack true d e b w).getD p []).getD 0 0 := by
  rw [bayerDecode]
  by_cases h : p < (unpack true d e b w).length
  · simp [List.getD_eq_getElem?_getD, h]
  · simp [List.getD_eq_getElem?_getD, h]

/-- Each element of a DECODE's array fits the width its image gives it. -/
theorem decodedElems_lt {fam : Family} {d : Descriptor} (e : Endian) {b : List Nat} (hb : ∀ x ∈ b, x < 256) {w : Nat}
    (hw : 1 ≤ w) (hok : checkDescriptor fam.codec d = .ok fam) (img : Image) (hf : img.family = fam)
    (hd : ∀ i, img.desc.width i = d.width i) (hm : img.desc.widthMax = d.widthMax) (i : Nat)
    (hi : i < (decodedElems fam d e b w).length) :
    (decodedElems fam d e b w).getD i 0 < 2 ^ elemWidth img i := by
  obtain ⟨hg, -, hc⟩ := checkDescriptor_ok hok
  replace hc := codecFault_none hc
  have h0 : img.desc.bpc0 = d.bpc0 := hd 0
  have single : singleFault d = false → (bayerDecode d e b w).getD i 0 < 2 ^ d.bpc0 := fun h => by
    obtain ⟨-, hws, hcc, -⟩ := present_single h
    rw [bayerDecode_getD]
    have := unpack_getD_lt (d := d) true e hb w i 0 (by omega) fun _ => h
    rwa [hws] at this
  cases fam with
  | rgb o =>
    simp only [decodedElems] at hi ⊢
    rw [rgbDecode_length d e b w hw, ← unpack_length false d e b w hw] at hi
    have hp : i / 4 < (unpack false d e b w).length := by omega
    have h4 : i % 4 < 4 := Nat.mod_lt _ (by omega)
    have heq := rgbDecode_getD d e b w (i / 4) (i % 4) hp h4
    rw [Nat.div_add_mod] at heq
    rw [heq]
    simp only [elemWidth, hf, hd, hm]
    split
    · rename_i hpos
      have hmem := (mem_present h4).2 hpos
      have hlt : d.present.idxOf (i % 4) < d.compCount := List.idxOf_lt_length_iff.2 hmem
      have := unpack_getD_lt (d := d) false e hb w (i / 4) _ hlt (by simp)
      rwa [widths_getD_idxOf hmem] at this
    · have : 0 < 2 ^ d.widthMax := Nat.pow_pos (by omega)
      simp only [synValue]
      omega
  | yuv y =>
    simp only [decodedElems, elemWidth, hf, yuvDecode]
    rw [window_getD]
    split
    · exact getD_lt_of_forall (by omega) hb _
    · omega
  | gray =>
    simp only [decodedElems, grayDecode, elemWidth, hf, h0]
    exact single hc
  | bayer o =>
    simp only [decodedElems, elemWidth, hf, h0]
    exact single hc

/-- Every element's width is at most 16 (41_unpack R152, 10_state R40). -/
theorem elemWidth_le {img : Image} (h : imageOk img) (i : Nat) : elemWidth img i ≤ 16 := by
  obtain ⟨hok, -⟩ := h
  obtain ⟨hg, -⟩ := checkDescriptor_ok hok
  obtain ⟨-, ⟨h0, h1, h2, h3⟩, -⟩ := generalFault_false hg
  have hmax : img.desc.widthMax ≤ 16 := by
    unfold Descriptor.widthMax
    omega
  have := width_le_max img.desc (i % 4)
  unfold elemWidth
  split
  · split <;> omega
  · exact h0
  · exact h0
  · omega

/-! DECODE's checks. -/

theorem decodeCheck_ok {s : State} {fam : Family} (h : decodeCheck s = .ok fam) :
    s.regs.endianSel ≠ 3 ∧
      (dispatch s.regs.layout s.regs.order = some fam.codec ∧
        checkDescriptor fam.codec s.regs.descriptor = .ok fam) ∧
      1 ≤ s.regs.width.toNat ∧ s.regs.inLen.toNat ≤ s.impl.inMemBytes := by
  unfold decodeCheck at h
  split at h
  · cases h
  · split at h
    · cases h
    · rename_i c hd
      split at h
      · cases h
      · rename_i fam' hc
        split at h
        · cases h
        · split at h
          · cases h
          · have : fam' = fam := by cases h; rfl
            subst this
            have := familyOf_codec (checkDescriptor_ok hc).2.1
            subst this
            exact ⟨by assumption, ⟨hd, hc⟩, by omega, by omega⟩

/-- The byte order plays no part in the checks, so the latched descriptor passes them as the registers' does. -/
theorem checkDescriptor_endian (c : Codec) (d : Descriptor) (e : Endian) :
    checkDescriptor c { d with endian := e } = checkDescriptor c d := rfl

theorem yuvSize_ok (y : YuvFamily) (n w : Nat) (hw : 1 ≤ w) :
    if is420 y then (yuvSize y n w).2 % w = 0 ∧ (yuvSize y n w).1 = ceilDiv (2 * ((yuvSize y n w).2 / w)) 3
    else (yuvSize y n w).2 = 2 * w * (yuvSize y n w).1 := by
  unfold yuvSize
  split
  · rename_i h
    simp [Nat.mul_div_cancel_left _ (show 0 < w by omega)]
  · rfl

theorem decodedImage_ok {s : State} {fam : Family} (h : decodeCheck s = .ok fam) : imageOk (decodedImage s fam) := by
  obtain ⟨-, ⟨-, hc⟩, hw, -⟩ := decodeCheck_ok h
  refine ⟨hc, hw, ?_, ?_⟩
  · cases fam with
    | rgb o => rfl
    | yuv y => exact yuvSize_ok y _ _ hw
    | gray => rfl
    | bayer o => rfl
  · cases fam <;> rfl

end Sys2Proof.Machine
end

