-- ==== Sys2Proof/Laws/Ops.lean ====
section
/-! SUPPORT. What each command can do, said once: `exec` completes with what the command evaluates to, and each evaluation
is a fault or the effects of its rule (spec/40_commands.md R120–R138). -/

namespace Sys2Proof.Machine

/-- What a command evaluates to (40_commands R120). -/
def commandResult : Instr → State → Except FaultCode Effects
  | .decode, s => decodeEffects s
  | .render, s => renderEffects s
  | .rawColor, s => rawColorEffects s
  | .cropToRaw, s => cropEffects s
  | .pixelComponents, s => pixelEffects s

/-- Every command completes, with its effects or by fault entry. -/
theorem exec_eq (i : Instr) (s : State) : exec i s = .next (complete s (commandResult i s)) := by
  cases i <;> rfl

theorem exec_next_iff (i : Instr) (s t : State) : exec i s = .next t ↔ t = complete s (commandResult i s) := by
  rw [exec_eq]
  constructor
  · intro h; cases h; rfl
  · intro h; rw [h]

theorem decodeEffects_ok {s : State} {e : Effects} (h : decodeEffects s = .ok e) :
    ∃ fam, decodeCheck s = .ok fam ∧ (decodedImage s fam).l ≤ s.impl.compMemWords ∧
      e = { decoded := some (decodedImage s fam, (decodedComp s fam).map (BitVec.ofNat 16)), outBytes := none,
            results := s.results, none := false } := by
  unfold decodeEffects at h
  split at h
  · cases h
  · rename_i fam hc
    split at h
    · cases h
    · cases h
      exact ⟨fam, hc, by omega, rfl⟩

theorem decodeEffects_of_check {s : State} {fam : Family} (hc : decodeCheck s = .ok fam)
    (hl : (decodedImage s fam).l ≤ s.impl.compMemWords) :
    decodeEffects s = .ok { decoded := some (decodedImage s fam, (decodedComp s fam).map (BitVec.ofNat 16)),
                            outBytes := none, results := s.results, none := false } := by
  have : ¬ s.impl.compMemWords < (decodedImage s fam).l := by omega
  simp [decodeEffects, hc, this]

theorem renderBytes_length (s : State) (img : Image) (fr : Frames) :
    (renderBytes s img fr).length = fr.count * fr.rows * img.w * 4 := raster_length _ _ _ _

theorem renderEffects_ok {s : State} {e : Effects} (h : renderEffects s = .ok e) :
    ∃ img fr, s.img = some img ∧ renderFrames img s.regs.maskBit s.regs.frameHeight.toNat = .ok fr ∧
      fr.count * fr.rows * img.w * 4 ≤ s.impl.outMemBytes ∧
      e = { decoded := none, outBytes := some (toBytes (renderBytes s img fr)),
            results := s.results.withOut (fr.count * fr.rows * img.w * 4) fr.count fr.rows, none := false } := by
  unfold renderEffects at h
  split at h
  · cases h
  · rename_i img hi
    split at h
    · cases h
    · rename_i fr hf
      split at h
      · cases h
      · cases h
        exact ⟨img, fr, hi, hf, by omega, rfl⟩

theorem renderEffects_of_frames {s : State} {img : Image} {fr : Frames} (hi : s.img = some img)
    (hf : renderFrames img s.regs.maskBit s.regs.frameHeight.toNat = .ok fr)
    (hl : fr.count * fr.rows * img.w * 4 ≤ s.impl.outMemBytes) :
    renderEffects s = .ok { decoded := none, outBytes := some (toBytes (renderBytes s img fr)),
                            results := s.results.withOut (fr.count * fr.rows * img.w * 4) fr.count fr.rows,
                            none := false } := by
  have : ¬ s.impl.outMemBytes < fr.count * fr.rows * img.w * 4 := by omega
  simp [renderEffects, hi, hf, this]

theorem rawColorEffects_ok {s : State} {e : Effects} (h : rawColorEffects s = .ok e) :
    ∃ img, s.img = some img ∧
      ((rawPixel s img = none ∧
          e = { decoded := none, outBytes := none, results := s.results.withOut 0 0 0, none := true }) ∨
        ∃ px, rawPixel s img = some px ∧ img.h * img.w * 4 ≤ s.impl.outMemBytes ∧
          e = { decoded := none, outBytes := some (toBytes (raster 1 img.h img.w fun _ => px)),
                results := s.results.withOut (img.h * img.w * 4) 1 img.h, none := false }) := by
  unfold rawColorEffects at h
  split at h
  · cases h
  · rename_i img hi
    refine ⟨img, hi, ?_⟩
    split at h
    · rename_i hp
      cases h
      exact .inl ⟨hp, rfl⟩
    · rename_i px hp
      split at h
      · cases h
      · cases h
        exact .inr ⟨px, hp, by omega, rfl⟩

theorem cropEffects_ok {s : State} {e : Effects} (h : cropEffects s = .ok e) :
    ∃ img, s.img = some img ∧ regionOk s.regs img = true ∧ (regionBytes s img).length ≤ s.impl.outMemBytes ∧
      e = { decoded := none, outBytes := some (toBytes (regionBytes s img)),
            results := s.results.withOut (regionBytes s img).length 0 0, none := false } := by
  unfold cropEffects at h
  split at h
  · cases h
  · rename_i img hi
    split at h
    · cases h
    · rename_i hr
      split at h
      · cases h
      · cases h
        exact ⟨img, hi, by simpa using hr, by omega, rfl⟩

theorem cropEffects_of_region {s : State} {img : Image} (hi : s.img = some img) (hr : regionOk s.regs img = true)
    (hl : (regionBytes s img).length ≤ s.impl.outMemBytes) :
    cropEffects s = .ok { decoded := none, outBytes := some (toBytes (regionBytes s img)),
                          results := s.results.withOut (regionBytes s img).length 0 0, none := false } := by
  have : ¬ s.impl.outMemBytes < (regionBytes s img).length := by omega
  simp [cropEffects, hi, hr, this]

theorem pixelEffects_ok {s : State} {e : Effects} (h : pixelEffects s = .ok e) :
    ∃ img, s.img = some img ∧ s.regs.pixRow.toNat < img.h ∧ s.regs.pixCol.toNat < img.w ∧
      e = { decoded := none, outBytes := none,
            results := s.results.withPix
              (lookupVals img (imageData s img) s.regs.pixRow.toNat s.regs.pixCol.toNat), none := false } := by
  unfold pixelEffects at h
  split at h
  · cases h
  · rename_i img hi
    split at h
    · cases h
    · cases h
      exact ⟨img, hi, by omega, by omega, rfl⟩

theorem pixelEffects_of_pixel {s : State} {img : Image} (hi : s.img = some img) (hr : s.regs.pixRow.toNat < img.h)
    (hc : s.regs.pixCol.toNat < img.w) :
    pixelEffects s = .ok { decoded := none, outBytes := none,
                           results := s.results.withPix
                             (lookupVals img (imageData s img) s.regs.pixRow.toNat s.regs.pixCol.toNat),
                           none := false } := by
  have : ¬(img.h ≤ s.regs.pixRow.toNat ∨ img.w ≤ s.regs.pixCol.toNat) := by omega
  simp [pixelEffects, hi, this]

/-- Which parts of the effects a command can have: only DECODE decodes, and then within COMP; what is written to OUT
fits it and OUT_LEN is its length (40_commands R122–R134). -/
theorem commandResult_ok {i : Instr} {s : State} {e : Effects} (h : commandResult i s = .ok e) :
    (∀ img es, e.decoded = some (img, es) → i = .decode ∧ e.outBytes = none ∧ e.results = s.results ∧
        ∃ fam, decodeCheck s = .ok fam ∧ img = decodedImage s fam ∧
          es = (decodedComp s fam).map (BitVec.ofNat 16) ∧ img.l ≤ s.impl.compMemWords) ∧
      (∀ bytes, e.outBytes = some bytes → bytes.length ≤ s.impl.outMemBytes ∧
        e.results.outLen = BitVec.ofNat 32 bytes.length) := by
  cases i with
  | decode =>
    obtain ⟨fam, hc, hl, rfl⟩ := decodeEffects_ok h
    refine ⟨fun img es he => ?_, fun _ hb => nomatch hb⟩
    cases he
    exact ⟨rfl, rfl, rfl, fam, hc, rfl, rfl, hl⟩
  | render =>
    obtain ⟨img, fr, -, -, hl, rfl⟩ := renderEffects_ok h
    refine ⟨fun _ _ he => (nomatch he), fun bytes hb => ?_⟩
    cases hb
    simp [toBytes_length, renderBytes_length, hl]
  | rawColor =>
    obtain ⟨img, -, ⟨-, rfl⟩ | ⟨px, -, hl, rfl⟩⟩ := rawColorEffects_ok h
    · exact ⟨fun _ _ he => (nomatch he), fun _ hb => nomatch hb⟩
    · refine ⟨fun _ _ he => (nomatch he), fun bytes hb => ?_⟩
      cases hb
      simp [toBytes_length, raster_length, hl]
  | cropToRaw =>
    obtain ⟨img, -, -, hl, rfl⟩ := cropEffects_ok h
    refine ⟨fun _ _ he => (nomatch he), fun bytes hb => ?_⟩
    cases hb
    simp [toBytes_length, hl]
  | pixelComponents =>
    obtain ⟨img, -, -, -, rfl⟩ := pixelEffects_ok h
    exact ⟨fun _ _ he => (nomatch he), fun _ hb => nomatch hb⟩

/-- OUT after a command that wrote `bytes` to it (40_commands R126–R134, 93 U2). -/
theorem outByte_commit (s : State) (e : Effects) (bytes : List Byte) (h : e.outBytes = some bytes) (i : Nat) :
    outByte (commit s e) i = if i < bytes.length then bytes.getD i 0 else Config.freeOutByte s.draws i := by
  have ho : (commit s e).out = { cells := cellsFrom 0 bytes, epoch := s.draws } := by simp [h]
  split
  · rename_i hi
    exact outByte_of_cells ho i hi
  · rename_i hi
    exact outByte_of_cells_beyond ho i (by omega)

/-- OUT after a command that does not write it. -/
theorem outByte_commit_none (s : State) (e : Effects) (h : e.outBytes = none) (i : Nat) :
    outByte (commit s e) i = outByte s i := by
  simp [outByte, h]

/-- COMP after a DECODE that wrote `es` to it (40_commands R123, 93 U2). -/
theorem compElem_commit (s : State) (e : Effects) (img : Image) (es : List Elem) (h : e.decoded = some (img, es))
    (i : Nat) : compElem (commit s e) i = if i < es.length then es.getD i 0 else Config.freeCompElem s.draws i := by
  have ho : (commit s e).comp = { cells := cellsFrom 0 es, epoch := s.draws } := by simp [h]
  split
  · rename_i hi
    exact compElem_of_cells ho i hi
  · rename_i hi
    exact compElem_of_cells_beyond ho i (by omega)

/-- COMP after a command other than a DECODE. -/
theorem compElem_commit_none (s : State) (e : Effects) (h : e.decoded = none) (i : Nat) :
    compElem (commit s e) i = compElem s i := by
  simp [compElem, h]

/-- The elements of a DECODE's array, read back from COMP, are the array's numbers (they fit 16 bits). -/
theorem decodedComp_toNat {s : State} {fam : Family} (hc : decodeCheck s = .ok fam) (i : Nat)
    (hi : i < (decodedImage s fam).l) :
    (decodedComp s fam).getD i 0 < 2 ^ elemWidth (decodedImage s fam) i ∧
      (BitVec.ofNat 16 ((decodedComp s fam).getD i 0)).toNat = (decodedComp s fam).getD i 0 := by
  have hok := decodedImage_ok hc
  obtain ⟨-, ⟨-, hck⟩, hw, -⟩ := decodeCheck_ok hc
  have hlen := decodedComp_length s fam hw
  have hlt : (decodedComp s fam).getD i 0 < 2 ^ elemWidth (decodedImage s fam) i :=
    decodedElems_lt (d := s.regs.descriptor) _ (byteReverse_lt _ (rawBytes_lt s _)) hw hck (decodedImage s fam) rfl
      (fun _ => rfl) rfl i (by rw [← hlen] at hi; exact hi)
  refine ⟨hlt, ?_⟩
  rw [BitVec.toNat_ofNat]
  apply Nat.mod_eq_of_lt
  exact Nat.lt_of_lt_of_le hlt (Nat.pow_le_pow_right (by omega) (elemWidth_le hok i))

theorem map_ofNat_getD (xs : List Nat) (i : Nat) :
    (xs.map (BitVec.ofNat 16)).getD i 0 = BitVec.ofNat 16 (xs.getD i 0) := by
  by_cases h : i < xs.length <;> simp [List.getD_eq_getElem?_getD, h]

/-- A DECODE that passes its checks and fits COMP is a completion that latches its image and writes its elements
(40_commands R122, R123). -/
theorem execDecode_of_check {s : State} {fam : Family} (hc : decodeCheck s = .ok fam)
    (hl : (decodedImage s fam).l ≤ s.impl.compMemWords) :
    ∃ t, exec .decode s = .next t ∧ t.img = some (decodedImage s fam) ∧ t.impl = s.impl ∧
      t.comp = { cells := cellsFrom 0 ((decodedComp s fam).map (BitVec.ofNat 16)), epoch := s.draws } := by
  refine ⟨_, rfl, ?_, ?_, ?_⟩ <;> simp [decodeEffects_of_check hc hl, complete]

/-- The elements a DECODE writes are all there and fit their widths (10_state R40). -/
theorem decodedCells_fit {s : State} {fam : Family} (hc : decodeCheck s = .ok fam) (i : Nat)
    (hi : i < (decodedImage s fam).l) :
    ∃ e, lookupCell (cellsFrom 0 ((decodedComp s fam).map (BitVec.ofNat 16))) i = some e ∧
      e.toNat < 2 ^ elemWidth (decodedImage s fam) i := by
  have hlen := decodedComp_length s fam (decodeCheck_ok hc).2.2.1
  obtain ⟨hlt, heq⟩ := decodedComp_toNat hc i hi
  refine ⟨BitVec.ofNat 16 ((decodedComp s fam).getD i 0), ?_, by rw [heq]; exact hlt⟩
  rw [lookupCell_cellsFrom]
  simp [hlen, hi]

end Sys2Proof.Machine
end

