-- ==== Sys2Proof/Laws/Bus.lean ====
section
/-! SUPPORT. What a host action can do, said once (spec/20_memory.md R60–R69, 70_reset R341, R342, R352). -/

namespace Sys2Proof.Machine

theorem refusalIn_none {ws : List Nat} {size i n : Nat} (h : refusalIn ws size i n = none) :
    n ∈ ws ∧ (n = 4 → i % 4 = 0) ∧ i + n ≤ size := by
  unfold refusalIn at h
  split at h
  · cases h
  · split at h
    · cases h
    · split at h
      · cases h
      · rename_i h1 h2 h3
        exact ⟨by simpa using h1, fun hn => by simp_all, by omega⟩

/-- An IN access that is not refused is one or four bytes inside the memory (20_memory R62, R65). -/
theorem refusal_in {s : State} {off n : Nat} (hr : regionOf off = 1) (h : refusal s off n = none) :
    (n = 1 ∨ n = 4) ∧ offsetIn off + n ≤ s.impl.inMemBytes := by
  simp only [refusal, hr] at h
  obtain ⟨h1, -, h3⟩ := refusalIn_none h
  exact ⟨by simpa using h1, h3⟩

theorem busBytes_length (v : Word) (n : Nat) (h : n = 1 ∨ n = 4) : (busBytes v n).length = n := by
  rcases h with rfl | rfl <;> rfl

/-- Everything a register write can do (10_state R22–R27, 70_reset R341). -/
theorem writeReg_cases (s : State) (r : Reg) (v : Word) :
    writeReg s r v = s ∨ writeReg s r v = softReset s ∨ writeReg s r v = clearStatus s v ∨
      (s.busy = true ∧ writeReg s r v = turnAway s) ∨ (s.busy = false ∧ writeReg s r v = accept s v) ∨
      (s.busy = false ∧ ∃ r', writeReg s r v = { s with regs := s.regs.store r' v }) := by
  by_cases hctrl : r = .ctrl
  · subst hctrl
    simp only [writeReg]
    split
    · exact .inr (.inl rfl)
    · exact .inl rfl
  · by_cases hst : r = .status
    · subst hst
      simp [writeReg]
    · by_cases hb : s.busy = true
      · have : writeReg s r v = turnAway s := by cases r <;> simp_all [writeReg]
        exact .inr (.inr (.inr (.inl ⟨hb, this⟩)))
      · have hb : s.busy = false := by simpa using hb
        by_cases hc : r = .command
        · subst hc
          exact .inr (.inr (.inr (.inr (.inl ⟨hb, by simp [writeReg, hb]⟩))))
        · have : writeReg s r v = { s with regs := s.regs.store r v } := by cases r <;> simp_all [writeReg]
          exact .inr (.inr (.inr (.inr (.inr ⟨hb, r, this⟩))))

/-- Everything a write that is not refused can do (10_state R22–R27, 20_memory R62–R64, 70_reset R341). -/
theorem writeValue_cases {s : State} {off n : Nat} (v : Word) (h : refusal s off n = none) :
    writeValue s off n v = s ∨ writeValue s off n v = softReset s ∨ writeValue s off n v = clearStatus s v ∨
      (s.busy = true ∧ writeValue s off n v = turnAway s) ∨ (s.busy = false ∧ writeValue s off n v = accept s v) ∨
      (s.busy = false ∧ ∃ r, writeValue s off n v = { s with regs := s.regs.store r v }) ∨
      (s.busy = false ∧ offsetIn off + (busBytes v n).length ≤ s.impl.inMemBytes ∧
        writeValue s off n v = writeInBytes s (offsetIn off) (busBytes v n)) := by
  by_cases h0 : regionOf off = 0
  · cases hr : regAt off with
    | none => simp [writeValue, h0, hr]
    | some r =>
      have : writeValue s off n v = writeReg s r v := by simp [writeValue, h0, hr]
      rw [this]
      rcases writeReg_cases s r v with h | h | h | h | h | h
      · exact .inl h
      · exact .inr (.inl h)
      · exact .inr (.inr (.inl h))
      · exact .inr (.inr (.inr (.inl h)))
      · exact .inr (.inr (.inr (.inr (.inl h))))
      · exact .inr (.inr (.inr (.inr (.inr (.inl h)))))
  · by_cases h1 : regionOf off = 1
    · obtain ⟨hn, hl⟩ := refusal_in h1 h
      simp only [writeValue, h1]
      by_cases hb : s.busy = true
      · simp [hb]
      · have hb : s.busy = false := by simpa using hb
        rw [busBytes_length v n hn]
        simp [hb, hl]
    · left
      unfold writeValue
      split <;> first | contradiction | rfl

/-- Everything a host action that is not refused can do: return a value, write, or reset the hardware (70_reset R352). -/
theorem hostAct_cases {s t : State} {a : HostAct} (h : hostAct s a = .ok t) :
    (∃ v d, t = { hostMoves s with reads := v :: s.reads, draws := d }) ∨
      (∃ off n v, refusal (hostMoves s) off n = none ∧ t = writeValue (hostMoves s) off n v) ∨
      (t = s ∧ s.busy = true) ∨ t = hardwareReset (hostMoves s) := by
  cases a with
  | read addr n =>
    simp only [hostAct] at h
    split at h
    · cases h
    · split at h
      · cases h
      · rename_i off v s' hm
        cases h
        left
        unfold memRead at hm
        split at hm
        · cases hm
        · split at hm <;> cases hm
          · exact ⟨_, _, rfl⟩
          · exact ⟨_, s.draws, rfl⟩
  | write addr n v =>
    simp only [hostAct] at h
    split at h
    · cases h
    · rename_i off _
      unfold memWrite at h
      split at h
      · cases h
      · rename_i hr
        cases h
        exact .inr (.inl ⟨off, n, v, hr, rfl⟩)
  | wait =>
    simp only [hostAct] at h
    split at h
    · rename_i hb
      cases h
      exact .inr (.inr (.inl ⟨rfl, hb⟩))
    · cases h
      exact .inl ⟨_, s.draws, rfl⟩
  | hardwareReset =>
    cases h
    exact .inr (.inr (.inr rfl))

/-! One register at an offset. -/

theorem regAt_offset (r : Reg) : regAt r.offset = some r := by cases r <;> rfl

theorem regionOf_offset (r : Reg) : regionOf r.offset = 0 := by cases r <;> rfl

theorem refusal_reg (s : State) (r : Reg) : refusal s r.offset 4 = none := by cases r <;> rfl

theorem memRead_reg (s : State) (r : Reg) :
    memRead s r.offset 4 = if s.busy && r.isResult then .ok (freeRead s 4, { s with draws := s.draws + 1 })
      else .ok (readReg s r, s) := by
  simp [memRead, refusal_reg, readsResult, readValue, regionOf_offset, regAt_offset]

theorem memWrite_reg (s : State) (r : Reg) (v : Word) : memWrite s r.offset 4 v = .ok (writeReg s r v) := by
  simp [memWrite, refusal_reg, writeValue, regionOf_offset, regAt_offset]

end Sys2Proof.Machine
end

