-- ==== Sys2Proof/Laws/Step.lean ====
section
/-! SUPPORT. One step, said once: the engine completes the pending command, or the host moves, or nothing happens
(spec/70_reset_and_hazards.md R350–R352). -/

namespace Sys2Proof.Machine

theorem fetch_eq_some {s : State} {w : Word} : fetch s = some w ↔ s.pending = some w ∧ engineTurn s = true := by
  unfold fetch
  cases hp : s.pending with
  | none => simp
  | some u =>
    by_cases ht : engineTurn s = true <;> simp [ht]

theorem fetch_placeCommand (s : State) (w : Word) : fetch (placeCommand s w) = some w := by
  simp [fetch_eq_some, engineTurn]

/-- Everything a step can do. -/
theorem step_cases {s t : State} (h : step s = .next t) :
    (∃ w, s.pending = some w ∧ engineTurn s = true ∧
      ((∃ i, decode w = some i ∧ t = complete s (commandResult i s)) ∨
        (decode w = none ∧ t = faultEntry s .illegalCommand))) ∨
      (fetch s = none ∧ ((s.host = [] ∧ t = s) ∨ ∃ a rest, s.host = a :: rest ∧ hostAct s a = .ok t)) := by
  unfold step at h
  cases hf : fetch s with
  | some w =>
    obtain ⟨hp, ht⟩ := fetch_eq_some.1 hf
    left
    refine ⟨w, hp, ht, ?_⟩
    simp only [hf] at h
    cases hd : decode w with
    | some i =>
      simp only [hd, exec_next_iff] at h
      exact .inl ⟨i, rfl, h⟩
    | none =>
      simp only [hd, illegalWord] at h
      cases h
      exact .inr ⟨rfl, rfl⟩
  | none =>
    right
    refine ⟨rfl, ?_⟩
    simp only [hf, hostStep] at h
    split at h
    · rename_i hh
      cases h
      exact .inl ⟨hh, rfl⟩
    · rename_i a rest hh
      split at h
      · rename_i s' ha
        cases h
        exact .inr ⟨a, rest, hh, ha⟩
      · cases h

/-- No step faults: the machine never stops but at a refused host access (93 U7). -/
theorem step_no_fault (s : State) (f : Fault) : step s ≠ .fault f := nomatch f

theorem decode_encode (i : Instr) : decode (encode i) = some i := by cases i <;> rfl

end Sys2Proof.Machine
end

