-- ==== Sys2Proof/Laws/PerInstr.lean ====
section
/-! SUPPORT. One lemma per command: its word is well formed, is a word of spec/opcode_table.json, and decodes to it
(spec/30_encoding.md R90, R91). -/

namespace Sys2Proof.Laws.RoundTrip

/-- The command's word is well formed and decodes back to the command, as a word and as a table word. -/
def Statement (i : Instr) : Prop :=
  commandWordWf (encode i) = true ∧ decode (encode i) = some i ∧ decodeTableWord 32 (encode i).toNat = some i

theorem decode : Statement .decode := by unfold Statement; decide

theorem render : Statement .render := by unfold Statement; decide

theorem rawColor : Statement .rawColor := by unfold Statement; decide

theorem cropToRaw : Statement .cropToRaw := by unfold Statement; decide

theorem pixelComponents : Statement .pixelComponents := by unfold Statement; decide

end Sys2Proof.Laws.RoundTrip
end

