-- ==== Sys2Proof/Tests/Slice0.lean ====
section
/-! SUPPORT. Tests: the smoke tests of the checks, words written out from the spec's encodings, one small step per command
with its result taken from spec/95_test_vectors.md (the row is named at the test), and, for every statement with
hypotheses, a state that meets them. -/

namespace Sys2Proof.Tests

open Sys2Proof Sys2Proof.Machine Sys2Proof.Claims

/-! ## States -/

/-- Reset, with a DECODE pending whose operands and input are given. -/
def loaded (fmt bpc sub width : Word) (bytes : List Byte) : State :=
  { State.reset with
    pending := some 1
    regs := { Regs.reset with fmt := fmt, bpc := bpc, sub := sub, width := width, inLen := BitVec.ofNat 32 bytes.length }
    inMem := { cells := cellsFrom 0 bytes, epoch := 0 } }

/-- The state a command leads to. -/
def after (i : Instr) (s : State) : State :=
  match exec i s with
  | .next t => t
  | _ => s

/-- The state after a DECODE of `s`, with `w` pending and its flags cleared. -/
def decoded (s : State) (w : Word) : State :=
  { after .decode s with pending := some w, status := Status.reset }

def setMask (s : State) (m : Word) : State := { s with regs := { s.regs with chMask := m } }

def setFrame (s : State) (f : Word) : State := { s with regs := { s.regs with frameHeight := f } }

def setRegion (s : State) (r0 r1 c0 c1 : Word) : State :=
  { s with regs := { s.regs with row0 := r0, row1 := r1, col0 := c0, col1 := c1 } }

def setPixel (s : State) (r c : Word) : State := { s with regs := { s.regs with pixRow := r, pixCol := c } }

def setOutBytes (s : State) (n : Nat) : State := { s with impl := { s.impl with outMemBytes := n } }

/-- ERRCODE. -/
def errcode (s : State) : Nat := s.status.errcode.toNat

/-- COMP up to IMG.L. -/
def comps (s : State) : List Nat :=
  match s.img with
  | some img => imageData s img
  | none => []

/-- OUT up to OUT_LEN. -/
def outs (s : State) : List Nat := (List.range s.results.outLen.toNat).map fun i => (outByte s i).toNat

/-- PIX_COUNT and PIX_VAL0..3. -/
def pix (s : State) : List Nat :=
  [s.results.pixCount.toNat, s.results.pixVal0.toNat, s.results.pixVal1.toNat, s.results.pixVal2.toNat,
    s.results.pixVal3.toNat]

/-- BAYER RGGB, 8 bits, 2 wide. -/
def bayerIn : State := loaded 0x00000014 0x00000008 0x00000101 2 [0, 255, 255, 255]

/-- MONO, 8 bits, 2 wide. -/
def grayIn : State := loaded 0x00000010 0x00000008 0x00000101 2 [0, 255]

/-- MONO, 12 bits, big-endian, 1 wide. -/
def gray12In : State := loaded 0x00001010 0x0000000C 0x00000101 1 [0, 255]

/-- MONO, 10 bits on the sub-byte path, big-endian, 4 wide. -/
def gray10In : State := loaded 0x00003010 0x0000000A 0x00000101 4 [0xFF, 0xC0, 0, 0, 1]

/-- RGB 8-8-8, 2 wide. -/
def rgbIn : State := loaded 0x00000000 0x00080808 0x00000101 2 [10, 20, 30]

/-- RGB 5-6-5, 1 wide. -/
def rgb565In : State := loaded 0x00000000 0x00050605 0x00000101 1 [0x1F, 0xF8]

/-- ARGB 8-8-8-8, 1 wide. -/
def argbIn : State := loaded 0x00000004 0x08080808 0x00000101 1 [40, 10, 20, 30]

/-- Semiplanar YUV 4:2:0, 2 wide. -/
def semiIn : State := loaded 0x0000020C 0x00080808 0x00000202 2 [16, 235, 128, 81, 90, 240]

/-- Planar YUV 4:2:0, 2 wide. -/
def planarIn : State := loaded 0x0000010C 0x00080808 0x00000202 2 [16, 235, 128, 81, 90, 240]

/-- Planar YUV 4:2:2, 2 wide. -/
def planar422In : State := loaded 0x0000010C 0x00080808 0x00000102 2 [81, 145, 90, 240]

/-- Packed YUYV 4:2:2, 2 wide. -/
def packedIn : State := loaded 0x00000008 0x00080808 0x00000102 2 [81, 90, 145, 240]

/-- A state with DISPLAY palette entries red, green and blue and PAL_EN = 1. -/
def withPalette (s : State) : State :=
  { s with regs := { s.regs with fmt := s.regs.fmt ||| 0x00004000, pal0 := 0x000000FF, pal1 := 0x0000FF00,
                                 pal2 := 0x0000FF00, pal3 := 0x00FF0000 } }

/-! ## The checks refuse ill-formed terms (30_encoding R90–R92, R106; 00_scope R6; 10_state R40) -/

theorem test_word_zero_is_ill_formed : commandWordWf 0x00000000 = false := by decide
theorem test_word_six_is_ill_formed : commandWordWf 0x00000006 = false := by decide
theorem test_word_with_rsvd_is_ill_formed : commandWordWf 0x00000101 = false := by decide
theorem test_word_five_is_well_formed : commandWordWf 0x00000005 = true := by decide
theorem test_commands_are_well_formed : ∀ i ∈ [Instr.decode, .render, .rawColor, .cropToRaw, .pixelComponents],
    i.wf = true := by decide
theorem test_unaligned_wrw_is_ill_formed : (HostStmt.wrw 2 0).wf = false := by decide
theorem test_unaligned_rdw_is_ill_formed : (HostStmt.rdw 5).wf = false := by decide
theorem test_aligned_wrw_is_well_formed : (HostStmt.wrw 4 0).wf = true := by decide
theorem test_empty_in_is_ill_formed : ¬({ Impl.suggested with inMemBytes := 0 }).wf := by decide
theorem test_oversized_comp_is_ill_formed : ¬({ Impl.suggested with compMemWords := 2 ^ 26 + 1 }).wf := by decide
theorem test_falling_cells_are_ill_formed : (Memory.wf ⟨[(3, 0#8), (2, 0#8)], 0⟩ 10) = false := by decide
theorem test_cell_beyond_memory_is_ill_formed : (Memory.wf ⟨[(10, 0#8)], 0⟩ 10) = false := by decide

/-! ## Decoding: words written out bit by bit from 30_encoding R90, R91, and FMT's tags from R96, R98, R104 -/

theorem test_decode_word_decode : decode 0b00000000000000000000000000000001 = some .decode := by decide
theorem test_decode_word_render : decode 0b00000000000000000000000000000010 = some .render := by decide
theorem test_decode_word_raw_color : decode 0b00000000000000000000000000000011 = some .rawColor := by decide
theorem test_decode_word_crop : decode 0b00000000000000000000000000000100 = some .cropToRaw := by decide
theorem test_decode_word_pixel : decode 0b00000000000000000000000000000101 = some .pixelComponents := by decide
theorem test_decode_word_reserved_bit : decode 0b10000000000000000000000000000001 = none := by decide
theorem test_dispatch_semiplanar_yvu : dispatch 0b10 0b01101 = some (.yuvSemi .yvu) := by decide
theorem test_dispatch_packed_grbg : dispatch 0b00 0b10111 = some (.bayer .grbg) := by decide
theorem test_dispatch_planar_mono_misses : dispatch 0b01 0b10000 = none := by decide
theorem test_order_reserved_code : orderOfCode 6 = none := by decide

/-! ## The host assembler (30_encoding R106, R107) -/

theorem test_clr_expands : expand 0x40000000 .clr = [.write 0x40000004 4 0x00000026] := by decide
theorem test_load_expands : expand 0 (.load 3 [7, 8]) = [.write 0x10000003 1 7, .write 0x10000004 1 8] := by decide
theorem test_cmd_expands : expand 0 (.cmd .cropToRaw) = [.write 0x008 4 4] := by decide
theorem test_rdc_expands : expand 0 (.rdc 5) = [.read 0x30000014 4] := by decide

/-! ## One step of each command (95_test_vectors) -/

/-- 95 W3: twelve bits, big-endian, `00 FF` is the one sample 255. -/
theorem test_decode_gray12 : comps (after .decode gray12In) = [255] := by decide

/-- 95, the sub-byte rows: 5-6-5 bits of `1F F8`, the absent slot being 2^6 − 1. -/
theorem test_decode_rgb565 : comps (after .decode rgb565In) = [31, 0, 31, 63] := by decide

/-- 95 W3: the 12-bit sample 255 renders as 15. -/
theorem test_render_gray12 : outs (after .render (decoded gray12In 2)) = [15, 15, 15, 255] := by decide

/-- 95 W1: red only, an RGGB tile whose red sample is 0. -/
theorem test_render_bayer_red_only : outs (after .render (setMask (decoded bayerIn 2) 1)) =
    [0, 0, 0, 255, 0, 0, 0, 255, 0, 0, 0, 255, 0, 0, 0, 255] := by decide

/-- 95, Bayer raw colour: each sample times the tint of its tile position; 40_commands R130's example. -/
theorem test_raw_color_bayer : outs (after .rawColor (decoded (withPalette bayerIn) 3)) =
    [0, 0, 0, 255, 0, 255, 0, 255, 0, 255, 0, 255, 0, 0, 255, 255] := by decide

/-- 42_rgb R200: an RGB image has no raw colouring. -/
theorem test_raw_color_rgb_is_none : (after .rawColor (decoded rgbIn 3)).status.none = true := by decide

/-- 95, packed 4:2:2 crop: columns 1 to 2 of YUYV `81 90 145 240`. -/
theorem test_crop_yuyv_odd_width : outs (after .cropToRaw (setRegion (decoded packedIn 4) 0 1 1 2)) =
    [145, 90, 0, 240] := by decide

/-- 95, the sub-byte crop of a whole image gives its bytes. -/
theorem test_crop_gray10 : outs (after .cropToRaw (setRegion (decoded gray10In 4) 0 1 0 4)) =
    [0xFF, 0xC0, 0, 0, 1] := by decide

/-- 95, ARGB lookup in slot order. -/
theorem test_pixel_argb : pix (after .pixelComponents (decoded argbIn 5)) = [4, 40, 10, 20, 30] := by decide

/-- 95, NV12 lookup: Y, U, V. -/
theorem test_pixel_semiplanar : pix (after .pixelComponents (setPixel (decoded semiIn 5) 1 1)) = [3, 81, 90, 240, 0] := by
  decide

/-- 43_yuv R236's table: pure red. -/
theorem test_csc_red : cscBt601 81 90 240 = (254, 0, 0) := by decide

/-! ## Witnesses: a state that meets a statement's hypotheses, one per clause -/

/-- The image of a decoded state meets `imageOk`. -/
theorem decoded_imageOk {s : State} {fam : Family} {img : Image} (h : decodeCheck s = .ok fam)
    (hi : img = decodedImage s fam) : imageOk img := hi ▸ decodedImage_ok h

theorem witness_DispatcherTableRoundTrip :
    (0 < 4 ∧ 0 < 32 ∧ dispatch 0 0 = some (.rgb .rgb)) ∧ (2 < 4 ∧ 13 < 32 ∧ dispatch 2 13 = some (.yuvSemi .yvu)) ∧
      (0 < 4 ∧ 23 < 32 ∧ dispatch 0 23 = some (.bayer .grbg)) := by decide

theorem witness_SubbyteEncodingReadsBack :
    let d := rgb565In.regs.descriptor
    1 ≤ d.widthSum ∧ ∀ g ∈ [[31, 63, 31], [0, 1, 2]], g.length = d.compCount ∧
      ∀ j, j < d.compCount → g.getD j 0 < 2 ^ d.widths.getD j 0 := by decide

theorem witness_StepKeepsMemoriesCanonical : memInv bayerIn ∧ step bayerIn = .next (after .decode bayerIn) :=
  ⟨by decide, rfl⟩

theorem witness_StepKeepsReservedBitsZero : regInv bayerIn.regs ∧ step bayerIn = .next (after .decode bayerIn) :=
  ⟨by decide, rfl⟩

theorem witness_StepKeepsStatusConsistent : statusInv bayerIn ∧ step bayerIn = .next (after .decode bayerIn) :=
  ⟨by decide, rfl⟩

/-- The state after a DECODE that passes its checks and fits COMP meets `imageInv`. -/
theorem decoded_imageInv {s : State} {fam : Family} (w : Word) (hc : decodeCheck s = .ok fam)
    (hl : (decodedImage s fam).l ≤ s.impl.compMemWords) : imageInv (decoded s w) := by
  obtain ⟨t, ht, himg, himpl, hcomp⟩ := execDecode_of_check hc hl
  have hd : decoded s w = { t with pending := some w, status := Status.reset } := by simp [decoded, after, ht]
  rw [hd]
  intro img hi
  obtain rfl : decodedImage s fam = img := Option.some.inj (himg.symm.trans hi)
  refine ⟨decodedImage_ok hc, himpl ▸ hl, fun i hi => ?_⟩
  rw [hcomp]
  exact decodedCells_fit hc i hi

theorem witness_StepKeepsImageInvariant :
    imageInv (decoded grayIn 2) ∧ step (decoded grayIn 2) = .next (after .render (decoded grayIn 2)) :=
  ⟨decoded_imageInv (fam := .gray) 2 (by decide) (by decide), rfl⟩

theorem witness_StepRunsDecodedCommand :
    (bayerIn.pending = some 1 ∧ engineTurn bayerIn = true ∧ decode 1 = some .decode) ∧
      decodeTableWord 32 5 = some .pixelComponents := by decide

theorem witness_IllegalWordCompletesWithFault :
    (0x00000000#32).extractLsb' 0 8 = 0 ∧ 6 ≤ ((0x00000006#32).extractLsb' 0 8).toNat ∧
      6 ≤ ((0x000000FF#32).extractLsb' 0 8).toNat ∧ (0x00000101#32).extractLsb' 8 24 ≠ 0 ∧
      State.reset.busy = false ∧ ({ bayerIn with pending := some 6 }).pending = some 6 ∧
      engineTurn { bayerIn with pending := some 6 } = true := by decide

/-- A pending command with two host actions to come first. -/
def hostFirst : State := { bayerIn with latency := 2, host := [.read 0x004 4, .read 0x001 4] }

theorem witness_OtherwiseTheHostMoves :
    (State.reset.pending = none ∧ State.reset.host = []) ∧ engineTurn hostFirst = false ∧
      hostFirst.host = .read 0x004 4 :: [.read 0x001 4] ∧
      hostAct hostFirst (.read 0x004 4) = .ok (returnValue (hostMoves hostFirst) 1) ∧
      hostAct hostFirst (.read 0x001 4) = .error .misalignedAccess :=
  ⟨by decide, by decide, rfl, by rfl, by rfl⟩

theorem witness_PendingCommandCompletes : bayerIn.pending = some 1 ∧ hostFirst.pending = some 1 := by decide

theorem witness_CommandWriteStartsCommand : State.reset.busy = false ∧ bayerIn.busy = true := by decide

theorem witness_CompletionSetsDoneOrErr :
    statusInv bayerIn ∧ bayerIn.busy = true ∧ engineTurn bayerIn = true := ⟨by decide, by decide, by decide⟩

theorem witness_FaultChangesOnlyStatus :
    exec .render State.reset = .next (after .render State.reset) ∧ State.reset.status.err = false ∧
      (after .render State.reset).status.err = true := ⟨rfl, rfl, rfl⟩

theorem witness_NotDecodedBeforeFirstDecode :
    readsImage .render = true ∧ readsImage .rawColor = true ∧ readsImage .cropToRaw = true ∧
      readsImage .pixelComponents = true ∧ State.reset.img = none := by decide

/-- The fault's code of a DECODE with these operands (95, the fault rows). -/
def decodeFault (fmt bpc sub width decOpts inLen : Word) : Nat :=
  let s := loaded fmt bpc sub width []
  errcode (after .decode { s with regs := { s.regs with decOpts := decOpts, inLen := inLen } })

theorem witness_DecodeFaultsInOrder_endianSel :
    ({ bayerIn.regs with decOpts := 3 }).endianSel = 3 ∧ decodeFault 0x300 0 0 0 3 0 = 6 := by decide

theorem witness_DecodeFaultsInOrder_dispatcher :
    (loaded 0x300 0x00080808 0x101 1 []).regs.endianSel ≠ 3 ∧
      dispatch (loaded 0x300 0 0 0 []).regs.layout (loaded 0x300 0 0 0 []).regs.order = none ∧
      decodeFault 0x300 0x00080808 0x101 1 0 0 = 1 ∧ decodeFault 6 0 0x101 0 0 0 = 1 := by decide

/-- The general checks: a zero subsampling, a width of 17, and no width at all. -/
theorem witness_DecodeFaultsInOrder_general :
    (loaded 0x20C 0x00080808 0x200 2 []).regs.descriptor.subH = 0 ∧ decodeFault 0x20C 0x00080808 0x200 2 0 0 = 2 ∧
      16 < (loaded 0 0x00080811 0x101 1 []).regs.descriptor.bpc0 ∧ decodeFault 0 0x00080811 0x101 1 0 0 = 2 ∧
      (loaded 0x10 0 0x101 1 []).regs.descriptor.widthSum = 0 ∧ decodeFault 0x10 0 0x101 1 0 0 = 2 := by decide

theorem witness_DecodeFaultsInOrder_rgb :
    (loaded 0 0x08080808 0x101 1 []).regs.descriptor.bpc3 ≠ 0 ∧ decodeFault 0 0x08080808 0x101 1 0 0 = 2 ∧
      (loaded 2 0x08080800 0x101 1 []).regs.descriptor.width (rgbSlots .rgba).1 = 0 ∧
      decodeFault 2 0x08080800 0x101 1 0 0 = 2 ∧ decodeFault 0x10000 0x00080808 0x101 1 0 0 = 2 := by decide

theorem witness_DecodeFaultsInOrder_single :
    (loaded 0x10 0x0808 0x101 1 []).regs.descriptor.bpc1 ≠ 0 ∧ decodeFault 0x10 0x0808 0x101 1 0 0 = 2 ∧
      16 < (loaded 0x50010 0x0C 0x101 1 []).regs.descriptor.bpc0 +
        (loaded 0x50010 0x0C 0x101 1 []).regs.descriptor.shift ∧
      decodeFault 0x50010 0x0C 0x101 1 0 0 = 2 ∧ decodeFault 0x12010 0x0A 0x101 1 0 0 = 2 := by decide

theorem witness_DecodeFaultsInOrder_yuv :
    decodeFault 0x20C 0x000A0A0A 0x202 2 0 0 = 1 ∧ decodeFault 8 0x00080808 0x202 2 0 0 = 1 ∧
      familyOf (.yuvPacked .yuyv) 2 2 = none ∧ familyOf (.yuvPlanar .yuv) 2 1 ≠ none := by decide

theorem witness_DecodeFaultsInOrder_geometry_and_capacity :
    checkDescriptor .gray grayIn.regs.descriptor = .ok .gray ∧ decodeFault 0x10 8 0x101 0 0 0 = 5 ∧
      decodeFault 0x10 8 0x101 1 0 0x01000001 = 7 ∧ decodeFault 0x10 8 0x101 0x01000001 0 1 = 7 := by decide

theorem witness_RenderFaultsInOrder :
    (decoded semiIn 2).img = some (decodedImage semiIn (.yuv (.semi420 .yuv))) ∧
      (decodedImage semiIn (.yuv (.semi420 .yuv))).family = .yuv (.semi420 .yuv) ∧
      (setMask (decoded semiIn 2) 14).regs.maskBit 0 = false ∧
      errcode (after .render (setMask (decoded semiIn 2) 14)) = 4 ∧
      (setFrame (decoded semiIn 2) 3).regs.maskBit 0 = true ∧ is420 (.semi420 .yuv) = true ∧
      (setFrame (decoded semiIn 2) 3).regs.frameHeight.toNat % 2 = 1 ∧
      errcode (after .render (setFrame (decoded semiIn 2) 3)) = 5 ∧
      errcode (after .render (setOutBytes (decoded semiIn 2) 15)) = 7 := by decide

theorem witness_ReadersFaultInOrder :
    errcode (after .rawColor (setOutBytes (decoded (withPalette bayerIn) 3) 15)) = 7 ∧
      errcode (after .cropToRaw (setRegion (decoded grayIn 4) 1 0 0 1)) = 5 ∧
      errcode (after .cropToRaw (setRegion (decoded grayIn 4) 0 2 0 1)) = 5 ∧
      errcode (after .cropToRaw (setRegion (decoded grayIn 4) 0 1 0 3)) = 5 ∧
      errcode (after .cropToRaw (setOutBytes (setRegion (decoded grayIn 4) 0 1 0 2) 1)) = 7 ∧
      errcode (after .pixelComponents (setPixel (decoded grayIn 5) 1 0)) = 5 ∧
      errcode (after .pixelComponents (setPixel (decoded grayIn 5) 0 2)) = 5 := by decide

theorem witness_DecodeCommitsImage :
    decodeCheck grayIn = .ok .gray ∧ (decodedImage grayIn .gray).l ≤ grayIn.impl.compMemWords := by decide

theorem witness_DecodeYuvStoresBytes :
    decodeCheck semiIn = .ok (.yuv (.semi420 .yuv)) ∧ 2 * 3 ≤ semiIn.impl.compMemWords ∧
      decodeCheck packedIn = .ok (.yuv (.packed422 .yuyv)) ∧ 2 * 2 * 1 ≤ packedIn.impl.compMemWords := by decide

theorem witness_DecodeSingleLaneSamples :
    decodeCheck gray12In = .ok .gray ∧ gray12In.regs.descriptor.subbyte = false ∧
      decodeCheck bayerIn = .ok (.bayer .rggb) ∧ bayerIn.regs.descriptor.subbyte = false ∧
      2 * 2 ≤ bayerIn.impl.compMemWords := by decide

theorem witness_DecodeRgbLaneElements :
    decodeCheck rgbIn = .ok (.rgb .rgb) ∧ rgbIn.regs.descriptor.subbyte = false ∧
      (∀ i, i < 4 → rgbIn.regs.descriptor.width i = 0 ∨ rgbIn.regs.descriptor.width i = 8 * 1) ∧
      4 * (2 * 1) ≤ rgbIn.impl.compMemWords := by decide

theorem witness_DecodeSubbyteComponents :
    decodeCheck rgb565In = .ok (.rgb .rgb) ∧ (decodedImage rgb565In (.rgb .rgb)).subbyte = true ∧
      (decodedImage rgb565In (.rgb .rgb)).l ≤ rgb565In.impl.compMemWords ∧
      decodeCheck gray10In = .ok .gray ∧ (decodedImage gray10In .gray).subbyte = true ∧
      (decodedImage gray10In .gray).l ≤ gray10In.impl.compMemWords := by decide

theorem witness_DecodedSizeInvariant :
    exec .decode semiIn = .next (after .decode semiIn) ∧ semiIn.status.err = false ∧
      (after .decode semiIn).status.err = false ∧
      (after .decode semiIn).img = some (decodedImage semiIn (.yuv (.semi420 .yuv))) :=
  ⟨rfl, rfl, by decide, by decide⟩

theorem witness_DecodeTwiceIsIdentical :
    exec .decode grayIn = .next (after .decode grayIn) ∧ grayIn.status.err = false ∧
      (after .decode grayIn).status.err = false := ⟨rfl, rfl, by decide⟩

theorem witness_RenderGrayTruncates :
    (decoded gray12In 2).img = some (decodedImage gray12In .gray) ∧ (decodedImage gray12In .gray).family = .gray ∧
      imageOk (decodedImage gray12In .gray) ∧
      frameCountOf (decodedImage gray12In .gray) 2 * 2 * 1 * 4 ≤ (decoded gray12In 2).impl.outMemBytes :=
  ⟨by decide, rfl, decoded_imageOk (s := gray12In) (by decide) rfl, by decide⟩

theorem witness_RenderRgbRescalesAndMasks :
    (decoded rgb565In 2).img = some (decodedImage rgb565In (.rgb .rgb)) ∧
      (decodedImage rgb565In (.rgb .rgb)).family = .rgb .rgb ∧ imageOk (decodedImage rgb565In (.rgb .rgb)) ∧
      frameCountOf (decodedImage rgb565In (.rgb .rgb)) 0 * 1 * 1 * 4 ≤ (decoded rgb565In 2).impl.outMemBytes :=
  ⟨by decide, rfl, decoded_imageOk (s := rgb565In) (by decide) rfl, by decide⟩

theorem witness_RenderYuvConverts :
    (decoded semiIn 2).img = some (decodedImage semiIn (.yuv (.semi420 .yuv))) ∧
      (decoded semiIn 2).regs.maskBit 0 = true ∧ (setFrame (decoded semiIn 2) 2).regs.frameHeight.toNat % 2 = 0 ∧
      1 * 2 * 2 * 4 ≤ (decoded semiIn 2).impl.outMemBytes ∧
      (decoded packedIn 2).img = some (decodedImage packedIn (.yuv (.packed422 .yuyv))) ∧
      (decoded packedIn 2).regs.maskBit 0 = true := by decide

/-- An odd frame, and an even one of either subsampling. -/
theorem witness_YuvSamplePositions :
    (2 < 3 ∧ 2 < 3) ∧ 1 < 2 ∧ 2 % 2 = 0 ∧ (List.replicate 8 7).length = 2 * 2 * 2 ∧
      (List.replicate 6 7).length = 2 * 2 + 2 * 2 / 2 := by decide

theorem witness_ReferenceCscNeutralChromaIsGrey :
    (1 ≤ 1 ∧ 255 ≤ 255) ∧ (16#8).toNat ≤ 16 ∧ (0#8).toNat ≤ 16 ∧ 235 ≤ (235#8).toNat ∧ 235 ≤ (255#8).toNat := by decide

theorem witness_RenderBayerOwnChannel :
    (decoded bayerIn 2).img = some (decodedImage bayerIn (.bayer .rggb)) ∧
      (decodedImage bayerIn (.bayer .rggb)).family = .bayer .rggb ∧ imageInv (decoded bayerIn 2) ∧
      1 * 2 * 2 * 4 ≤ (decoded bayerIn 2).impl.outMemBytes :=
  ⟨by decide, rfl, decoded_imageInv (fam := .bayer .rggb) 2 (by decide) (by decide), by decide⟩

theorem witness_RenderBayerDemosaics :
    (decoded bayerIn 2).img = some (decodedImage bayerIn (.bayer .rggb)) ∧
      (decodedImage bayerIn (.bayer .rggb)).family = .bayer .rggb ∧
      imageOk (decodedImage bayerIn (.bayer .rggb)) ∧
      frameCountOf (decodedImage bayerIn (.bayer .rggb)) 0 * 2 * 2 * 4 ≤ (decoded bayerIn 2).impl.outMemBytes :=
  ⟨by decide, rfl, decoded_imageOk (s := bayerIn) (by decide) rfl, by decide⟩

theorem witness_DemosaicMeetsItsProperties :
    0 < 1 ∧ 0 < 1 ∧ cfaColor .rggb 0 0 = .r ∧ cfaColor .rggb 0 1 = .g ∧ cfaColor .rggb 1 1 = .b ∧
      ∀ x ∈ [0#8], x = 0 := by decide

/-- A corner cell, a red, a blue and two green cells with all eight neighbours. -/
theorem witness_BilinearInsideTheFrame :
    (0 < 1 ∧ cfaColor .rggb 0 0 = .r ∧ cfaColor .rggb 0 0 ≠ .b) ∧ (1 ≤ 1 ∧ 1 + 1 < 3) ∧ (1 ≤ 2 ∧ 2 + 1 < 4) ∧
      cfaColor .bggr 1 1 = .r ∧ cfaColor .rggb 1 1 = .b ∧ (cfaColor .grbg 2 2 = .g ∧ cfaColor .grbg 2 1 = .r) ∧
      (cfaColor .rggb 1 2 = .g ∧ cfaColor .rggb 1 1 ≠ .r) := by decide

theorem witness_RawColorGivesNone :
    (decoded rgbIn 3).img = some (decodedImage rgbIn (.rgb .rgb)) ∧
      (decodedImage rgbIn (.rgb .rgb)).family = .rgb .rgb ∧
      (decoded grayIn 3).img = some (decodedImage grayIn .gray) ∧
      (decoded bayerIn 3).img = some (decodedImage bayerIn (.bayer .rggb)) ∧
      (decodedImage bayerIn (.bayer .rggb)).desc.palEn = false := by decide

theorem witness_RawColorYuvTints :
    (decoded (withPalette semiIn) 3).img = some (decodedImage (withPalette semiIn) (.yuv (.semi420 .yuv))) ∧
      (decodedImage (withPalette semiIn) (.yuv (.semi420 .yuv))).desc.palEn = true ∧
      2 * 2 * 4 ≤ (decoded (withPalette semiIn) 3).impl.outMemBytes := by decide

theorem witness_RawColorBayerTints :
    (decoded (withPalette bayerIn) 3).img = some (decodedImage (withPalette bayerIn) (.bayer .rggb)) ∧
      (decodedImage (withPalette bayerIn) (.bayer .rggb)).desc.palEn = true ∧
      imageOk (decodedImage (withPalette bayerIn) (.bayer .rggb)) ∧
      2 * 2 * 4 ≤ (decoded (withPalette bayerIn) 3).impl.outMemBytes :=
  ⟨by decide, by decide, decoded_imageOk (s := withPalette bayerIn) (by decide) rfl, by decide⟩

theorem witness_CropRgbLaneBytes :
    (decoded rgbIn 4).img = some (decodedImage rgbIn (.rgb .rgb)) ∧ imageOk (decodedImage rgbIn (.rgb .rgb)) ∧
      selectPath false (decodedImage rgbIn (.rgb .rgb)).desc = .lane 1 ∧
      regionOk (setRegion (decoded rgbIn 4) 0 1 1 2).regs (decodedImage rgbIn (.rgb .rgb)) = true ∧
      1 * 1 * 3 * 1 ≤ (decoded rgbIn 4).impl.outMemBytes :=
  ⟨by decide, decoded_imageOk (s := rgbIn) (by decide) rfl, by decide, by decide, by decide⟩

theorem witness_CropSingleLaneBytes :
    (decoded gray12In 4).img = some (decodedImage gray12In .gray) ∧ imageOk (decodedImage gray12In .gray) ∧
      selectPath true (decodedImage gray12In .gray).desc = .lane 2 ∧
      regionOk (setRegion (decoded gray12In 4) 0 1 0 1).regs (decodedImage gray12In .gray) = true ∧
      1 * 1 * 2 ≤ (decoded gray12In 4).impl.outMemBytes :=
  ⟨by decide, decoded_imageOk (s := gray12In) (by decide) rfl, by decide, by decide, by decide⟩

/-- A region of one pixel leaves three of the chunk's four groups beyond the region. -/
theorem witness_CropSubbyteChunks :
    (setRegion (decoded gray10In 4) 0 1 1 2).img = some (decodedImage gray10In .gray) ∧
      imageInv (setRegion (decoded gray10In 4) 0 1 1 2) ∧ (decodedImage gray10In .gray).subbyte = true ∧
      regionOk (setRegion (decoded gray10In 4) 0 1 1 2).regs (decodedImage gray10In .gray) = true ∧
      5 ≤ (decoded gray10In 4).impl.outMemBytes ∧
      chunkGroups (decodedImage gray10In .gray).desc = 4 ∧ 1 * 1 ≤ 3 ∧ 3 < ceilDiv (1 * 1) 4 * 4 :=
  ⟨by decide, decoded_imageInv (fam := .gray) 4 (by decide) (by decide), by decide, by decide, by decide, by decide,
    by decide, by decide⟩

theorem witness_CropYuv420Planes :
    (decoded semiIn 4).img = some (decodedImage semiIn (.yuv (.semi420 .yuv))) ∧ is420 (.semi420 .yuv) = true ∧
      regionOk (setRegion (decoded semiIn 4) 1 2 1 2).regs (decodedImage semiIn (.yuv (.semi420 .yuv))) = true ∧
      (decoded planarIn 4).img = some (decodedImage planarIn (.yuv (.planar420 .yuv))) ∧
      regionOk (setRegion (decoded planarIn 4) 0 2 0 2).regs (decodedImage planarIn (.yuv (.planar420 .yuv))) = true ∧
      2 * 2 + 2 * (1 * 1) ≤ (decoded planarIn 4).impl.outMemBytes := by decide

theorem witness_CropYuv422Region :
    (decoded planar422In 4).img = some (decodedImage planar422In (.yuv (.planar422 .yuv))) ∧
      regionOk (setRegion (decoded planar422In 4) 0 1 0 2).regs (decodedImage planar422In (.yuv (.planar422 .yuv))) =
        true ∧
      (decoded packedIn 4).img = some (decodedImage packedIn (.yuv (.packed422 .yuyv))) ∧
      regionOk (setRegion (decoded packedIn 4) 0 1 1 2).regs (decodedImage packedIn (.yuv (.packed422 .yuyv))) = true ∧
      1 * 1 * 4 ≤ (decoded packedIn 4).impl.outMemBytes := by decide

theorem witness_LaneCropRestoresInput :
    rgbIn.impl.wf ∧ decodeCheck rgbIn = .ok (.rgb .rgb) ∧ selectPath false rgbIn.regs.descriptor = .lane 1 ∧
      rgbIn.regs.reverseGroup.toNat ≤ 1 ∧ (decodedImage rgbIn (.rgb .rgb)).l ≤ rgbIn.impl.compMemWords ∧
      exec .decode rgbIn = .next (after .decode rgbIn) ∧ 3 * 1 * 2 * 1 ≤ rgbIn.impl.outMemBytes :=
  ⟨by decide, by decide, by decide, by decide, by decide, rfl, by decide⟩

theorem witness_SubbyteCropRestoresInput :
    rgb565In.impl.wf ∧ decodeCheck rgb565In = .ok (.rgb .rgb) ∧ selectPath false rgb565In.regs.descriptor = .subbyte ∧
      rgb565In.regs.reverseGroup.toNat ≤ 1 ∧
      (decodedImage rgb565In (.rgb .rgb)).l ≤ rgb565In.impl.compMemWords ∧
      exec .decode rgb565In = .next (after .decode rgb565In) ∧ 2 ≤ rgb565In.impl.outMemBytes :=
  ⟨by decide, by decide, by decide, by decide, by decide, rfl, by decide⟩

theorem witness_YuvCropRestoresInput :
    semiIn.impl.wf ∧ decodeCheck semiIn = .ok (.yuv (.semi420 .yuv)) ∧ semiIn.regs.reverseGroup.toNat ≤ 1 ∧
      semiIn.regs.width.toNat % 2 = 0 ∧ 2 % 2 = 0 ∧ semiIn.regs.inLen.toNat = 2 * 2 + 2 * 2 / 2 ∧
      exec .decode semiIn = .next (after .decode semiIn) ∧
      decodeCheck packedIn = .ok (.yuv (.packed422 .yuyv)) ∧ packedIn.regs.inLen.toNat = 2 * 2 * 1 ∧
      exec .decode packedIn = .next (after .decode packedIn) :=
  ⟨by decide, by decide, by decide, by decide, by decide, by decide, rfl, by decide, by decide, rfl⟩

theorem witness_PixelComponentsLookUp :
    (decoded bayerIn 5).img = some (decodedImage bayerIn (.bayer .rggb)) ∧
      imageOk (decodedImage bayerIn (.bayer .rggb)) ∧ (setPixel (decoded bayerIn 5) 1 1).regs.pixRow.toNat < 2 ∧
      (decodedImage bayerIn (.bayer .rggb)).h = 2 ∧ (decodedImage bayerIn (.bayer .rggb)).w = 2 ∧
      (decoded argbIn 5).img = some (decodedImage argbIn (.rgb .argb)) ∧ imageOk (decodedImage argbIn (.rgb .argb)) :=
  ⟨by decide, decoded_imageOk (s := bayerIn) (by decide) rfl, by decide, by decide, by decide,
    by decide, decoded_imageOk (s := argbIn) (by decide) rfl⟩

theorem witness_ReadersUseLatchedImageOnly :
    readsImage .render = true ∧
      exec .render (decoded grayIn 2) = .next (after .render (decoded grayIn 2)) ∧
      exec .decode (loaded 6 0 0x101 0 []) = .next (after .decode (loaded 6 0 0x101 0 [])) ∧
      (loaded 6 0 0x101 0 []).status.err = false ∧ (after .decode (loaded 6 0 0x101 0 [])).status.err = true :=
  ⟨rfl, rfl, rfl, rfl, by decide⟩

/-- An image that a DECODE, a CTRL write and a hardware reset change, and an IN byte that a host write changes. -/
theorem witness_OnlyDecodeAndResetsChangeImage :
    (step grayIn = .next (after .decode grayIn) ∧ (after .decode grayIn).img ≠ grayIn.img) ∧
      (step { after .decode grayIn with host := [.write 0 4 1] } =
          .next (softReset { after .decode grayIn with host := [] }) ∧
        (softReset { after .decode grayIn with host := [] }).img ≠ (after .decode grayIn).img) ∧
      (step { after .decode grayIn with host := [.hardwareReset] } =
          .next (hardwareReset { after .decode grayIn with host := [] }) ∧
        (hardwareReset { after .decode grayIn with host := [] }).img ≠ (after .decode grayIn).img) ∧
      step { State.reset with host := [.write 0x10000000 1 5] } = .next (writeInByte State.reset 0 5) ∧
      (writeInByte State.reset 0 5).inMem ≠ State.reset.inMem :=
  ⟨⟨rfl, by decide⟩, ⟨by rfl, by decide⟩, ⟨by rfl, by decide⟩, by rfl, by decide⟩

theorem witness_RegisterStoreThenRead :
    State.reset.busy = false ∧ readWrite .fmt = true ∧ readWrite .pixCol = true ∧ readWrite .pixVal3 = false ∧
      Reg.isResult .imgWidth = true ∧ Reg.isResult .pixVal3 = true ∧
      (0x00C < 0x1000 ∧ 0x00C % 4 = 0 ∧ regAt 0x00C = none) ∧ (0xFFC < 0x1000 ∧ 0xFFC % 4 = 0 ∧ regAt 0xFFC = none) := by
  decide

theorem witness_SoftResetKeepsMemories : (1#32).getLsbD 0 = true ∧ (2#32).getLsbD 0 = false := by decide

theorem witness_BusyWritesAreTurnedAway :
    bayerIn.busy = true ∧ (Reg.imgLen ≠ .ctrl ∧ Reg.imgLen ≠ .status) ∧ Reg.fmt ≠ .ctrl ∧ Reg.fmt ≠ .status ∧ refusal bayerIn (0x10000000 + 0xFFFFFF) 1 = none ∧
      refusal bayerIn 0x20000000 4 = none ∧ refusal bayerIn 0x33FFFFFC 4 = none ∧ regAt 0x0B0 = none := by decide

theorem witness_BusyReadsDrawResults :
    State.reset.busy = false ∧ bayerIn.busy = true ∧ Reg.isResult .pixCol = false ∧ Reg.isResult .imgWidth = true ∧
      Reg.isResult .pixVal3 = true ∧ 0xFFFFFF < bayerIn.impl.inMemBytes ∧ 0xFFFFFC + 4 ≤ bayerIn.impl.inMemBytes ∧
      refusal bayerIn 0x20000003 1 = none ∧ refusal bayerIn 0x30000000 4 = none := by decide

theorem witness_InWindowLittleEndian :
    State.reset.busy = false ∧ State.reset.impl.wf ∧ 0xFFFFFF < State.reset.impl.inMemBytes ∧
      0xFFFFFC % 4 = 0 ∧ 0xFFFFFC + 4 ≤ State.reset.impl.inMemBytes := by decide

theorem witness_OutAndCompWindows :
    (State.reset.busy = false ∧ State.reset.impl.wf ∧ 0x3FFFFFF < State.reset.impl.outMemBytes ∧
      0x3FFFFFC % 4 = 0 ∧ 0x3FFFFFC + 4 ≤ State.reset.impl.outMemBytes ∧
      0xFFFFFF < State.reset.impl.compMemWords) ∧ grayIn.impl.wf ∧ exec .decode grayIn = .next (after .decode grayIn) ∧
      (after .decode grayIn).status.err = false ∧ (after .decode grayIn).img = some (decodedImage grayIn .gray) ∧
      (decodedImage grayIn .gray).l ≤ 2 :=
  ⟨by decide, by decide, rfl, by decide, by decide, by decide⟩

theorem witness_OnlyMappedAccessesArePerformed : State.reset.impl.wf := by decide

end Sys2Proof.Tests
end

section
/-! The register space of the host's bus (10_state R22–R27): what an access to a register or to a reserved offset does,
and the obligations on COMMAND, STATUS and the read-write registers. -/

namespace Sys2Proof.Machine

open Sys2Proof.Claims

/-! One register access, case by case. -/

theorem memRead_reg_of_not_isResult (s : State) {r : Reg} (hr : r.isResult = false) :
    memRead s r.offset 4 = .ok (readReg s r, s) := by
  simp [memRead_reg, hr]

theorem isResult_eq_false_of_readWrite {r : Reg} (hr : readWrite r = true) : r.isResult = false := by
  cases r <;> simp [readWrite, Reg.isResult] at hr ⊢

theorem writeReg_command_idle {s : State} (hb : s.busy = false) (w : Word) : writeReg s .command w = accept s w := by
  simp [writeReg, hb]

theorem writeReg_command_busy {s : State} (hb : s.busy = true) (w : Word) : writeReg s .command w = turnAway s := by
  simp [writeReg, hb]

/-- Idle, a register without an effect of its own is written by `Regs.store` (10_state R22). -/
theorem writeReg_idle {s : State} {r : Reg} (hb : s.busy = false) (hr : readWrite r = true ∨ r.isResult = true)
    (v : Word) : writeReg s r v = { s with regs := s.regs.store r v } := by
  unfold writeReg
  split
  case h_1 | h_2 | h_3 => simp [readWrite, Reg.isResult] at hr
  case h_4 => simp [hb]

/-- A read-only register ignores an idle write (10_state R23). -/
theorem writeReg_idle_of_isResult {s : State} {r : Reg} (hb : s.busy = false) (hr : r.isResult = true) (v : Word) :
    writeReg s r v = s := by
  have hstore : s.regs.store r v = s.regs := by cases r <;> simp [Reg.isResult, Regs.store] at hr ⊢
  rw [writeReg_idle hb (.inr hr), hstore]

/-! Reading back what was stored. -/

theorem readReg_store_self (s : State) {r : Reg} (hr : readWrite r = true) (v : Word) :
    readReg { s with regs := s.regs.store r v } r = v &&& r.fieldMask := by
  have hwhole : v &&& 0xFFFFFFFF = v := BitVec.and_allOnes
  cases r <;> simp_all [readReg, Regs.store, Reg.fieldMask, readWrite]

/-- A store reaches a read of its own register only. -/
theorem readReg_store (s : State) (r r' : Reg) (v : Word) :
    readReg { s with regs := s.regs.store r v } r' =
      if r' = r then readReg { s with regs := s.regs.store r v } r else readReg s r' := by
  cases r <;> cases r' <;> rfl

theorem readReg_store_other (s : State) {r r' : Reg} (h : r' ≠ r) (v : Word) :
    readReg { s with regs := s.regs.store r v } r' = readReg s r' := by
  rw [readReg_store, if_neg h]

/-! Reserved offsets (10_state R22). -/

theorem regionOf_registers {off : Nat} (hlt : off < 0x1000) : regionOf off = 0 := Nat.div_eq_of_lt (by omega)

theorem refusal_registers (s : State) {off : Nat} (hlt : off < 0x1000) (halign : off % 4 = 0) :
    refusal s off 4 = none := by
  have hfits : ¬0x1000 < off + 4 := by omega
  simp [refusal, refusalIn, regionOf_registers hlt, hlt, halign, hfits]

theorem memRead_reserved (s : State) {off : Nat} (hlt : off < 0x1000) (halign : off % 4 = 0)
    (hreserved : regAt off = none) : memRead s off 4 = .ok (0, s) := by
  simp [memRead, refusal_registers s hlt halign, readsResult, readValue, regionOf_registers hlt, hreserved]

theorem memWrite_reserved (s : State) {off : Nat} (hlt : off < 0x1000) (halign : off % 4 = 0)
    (hreserved : regAt off = none) (v : Word) : memWrite s off 4 v = .ok s := by
  simp [memWrite, refusal_registers s hlt halign, writeValue, regionOf_registers hlt, hreserved]

/-! STATUS as a number (10_state R25). -/

theorem toNat_append_eq_add {m n : Nat} (x : BitVec m) (y : BitVec n) :
    (x ++ y).toNat = x.toNat * 2 ^ n + y.toNat := by
  rw [BitVec.toNat_append, ← Nat.shiftLeft_add_eq_or_of_lt y.isLt, Nat.shiftLeft_eq]

theorem Status.word_eq_ofNat (f : Status) (busy imgValid : Bool) :
    f.word busy imgValid = BitVec.ofNat 32 (busy.toNat + 2 * f.done.toNat + 4 * f.err.toNat + 8 * f.none.toNat +
      16 * imgValid.toNat + 32 * f.wwb.toNat + 256 * f.errcode.toNat) := by
  have hsum : (f.word busy imgValid).toNat = busy.toNat + 2 * f.done.toNat + 4 * f.err.toNat + 8 * f.none.toNat +
      16 * imgValid.toNat + 32 * f.wwb.toNat + 256 * f.errcode.toNat := by
    simp only [Status.word, toNat_append_eq_add, BitVec.toNat_ofBool, BitVec.toNat_ofNat]
    omega
  rw [← hsum, BitVec.ofNat_toNat, BitVec.setWidth_eq]

/-- Settles O15: COMMAND is written by `accept` when idle and by `turnAway` when busy. -/
theorem commandWriteStartsCommand : Obligations.CommandWriteStartsCommand := by
  intro s w
  have hwrite : memWrite s 0x008 4 w = .ok (writeReg s .command w) := memWrite_reg s .command w
  refine ⟨fun hidle => ?_, fun hbusy => ?_, memRead_reg_of_not_isResult s (r := .command) rfl⟩
  · rw [writeReg_command_idle hidle] at hwrite
    exact ⟨accept s w, hwrite, rfl, rfl, rfl, rfl⟩
  · rw [hwrite, writeReg_command_busy hbusy]
    rfl

/-- Settles O53: the write is `clearStatus`, and the read packs the fields it leaves. -/
theorem statusWriteClears : Obligations.StatusWriteClears := by
  intro s v
  have hread (t : State) : memRead t 0x004 4 = .ok (statusWord t, t) :=
    memRead_reg_of_not_isResult t (r := .status) rfl
  refine ⟨clearStatus s v, memWrite_reg s .status v, ?_, ?_, rfl, ?_, rfl, rfl, ?_⟩
  · simp [Bool.and_comm]
  · simp [Bool.and_comm]
  · simp [Bool.and_comm]
  · rw [hread, statusWord, Status.word_eq_ofNat]

/-- Settles O52: an idle write is `Regs.store`, which a result register ignores; a reserved offset names no register. -/
theorem registerStoreThenRead : Obligations.RegisterStoreThenRead := by
  intro s v
  refine ⟨fun r hidle hr => ?_, fun r hidle hr => ?_, fun off hlt halign hreserved => ?_⟩
  · refine ⟨{ s with regs := s.regs.store r v }, ?_, ?_, fun r' h => readReg_store_other s h v, rfl⟩
    · rw [memWrite_reg, writeReg_idle hidle (.inl hr)]
    · rw [memRead_reg_of_not_isResult _ (isResult_eq_false_of_readWrite hr), readReg_store_self s hr]
  · rw [memWrite_reg, writeReg_idle_of_isResult hidle hr]
  · exact ⟨memRead_reserved s hlt halign hreserved, memWrite_reserved s hlt halign hreserved v⟩

end Sys2Proof.Machine
end

section
/-! The command words (30_encoding R90–R92): a word is its OPCODE and RSVD fields, so each command has one word, and the
obligations on the words that select a command and on those that select none. -/

namespace Sys2Proof.Machine

open Sys2Proof.Claims

/-! The two fields determine the word. -/

theorem eq_setWidth_opcode_of_rsvd_eq_zero {w : Word} (hrsvd : w.extractLsb' 8 24 = 0) :
    w = (w.extractLsb' 0 8).setWidth 32 := by
  have hhigh : w.toNat / 2 ^ 8 % 2 ^ 24 = 0 := by
    simpa [Nat.shiftRight_eq_div_pow] using congrArg BitVec.toNat hrsvd
  apply BitVec.eq_of_toNat_eq
  simp only [BitVec.toNat_setWidth, BitVec.extractLsb'_toNat, Nat.shiftRight_zero]
  omega

theorem eq_encode_of_fields {w : Word} {i : Instr} (hrsvd : w.extractLsb' 8 24 = 0)
    (hopcode : w.extractLsb' 0 8 = i.opcode) : w = encode i := by
  rw [eq_setWidth_opcode_of_rsvd_eq_zero hrsvd, hopcode, encode]

/-! Which words decode. -/

theorem fields_of_decode_eq_some {w : Word} {i : Instr} (h : decode w = some i) :
    w.extractLsb' 8 24 = 0 ∧ w.extractLsb' 0 8 = i.opcode := by
  unfold decode at h
  split at h
  case isTrue hrsvd =>
    refine ⟨hrsvd, BitVec.eq_of_toNat_eq ?_⟩
    split at h <;> cases h <;> assumption
  case isFalse => cases h

theorem decode_eq_some_iff {w : Word} {i : Instr} : decode w = some i ↔ w = encode i := by
  constructor
  · intro h
    obtain ⟨hrsvd, hopcode⟩ := fields_of_decode_eq_some h
    exact eq_encode_of_fields hrsvd hopcode
  · rintro rfl
    exact decode_encode i

theorem opcode_toNat_bounds (i : Instr) : 1 ≤ i.opcode.toNat ∧ i.opcode.toNat ≤ 5 := by
  cases i <;> decide

/-- The words of 30_encoding R92 select no command. -/
theorem decode_eq_none_of_illegal {w : Word}
    (h : w.extractLsb' 0 8 = 0 ∨ 6 ≤ (w.extractLsb' 0 8).toNat ∨ w.extractLsb' 8 24 ≠ 0) : decode w = none := by
  rw [Option.eq_none_iff_forall_ne_some]
  intro i hi
  obtain ⟨hrsvd, hopcode⟩ := fields_of_decode_eq_some hi
  obtain ⟨hlow, hhigh⟩ := opcode_toNat_bounds i
  rw [hopcode] at h
  obtain hzero | hlarge | hset := h
  · simp [hzero] at hlow
  · omega
  · exact hset hrsvd

/-! The engine at a word that selects no command. -/

theorem faultEntry_eq_faulted (s : State) (c : FaultCode) : faultEntry s c = faulted s c.code := rfl

theorem step_eq_faultEntry_of_decode_eq_none {s : State} {w : Word} (hpending : s.pending = some w)
    (hturn : engineTurn s = true) (hnone : decode w = none) : step s = .next (faultEntry s .illegalCommand) := by
  simp [step, fetch_eq_some.2 ⟨hpending, hturn⟩, hnone, illegalWord, complete]

/-- Settles O2: a word decodes to the command whose two fields it has, and those fields are the whole word. -/
theorem wordSelectsCommandExactly : Obligations.WordSelectsCommandExactly :=
  ⟨fun _ _ => decode_eq_some_iff, rfl, rfl, rfl, rfl, rfl⟩

/-- Settles O12: COMMAND accepts any word when idle, and the engine's step on a word that decodes to nothing is fault
entry with IllegalCommand. -/
theorem illegalWordCompletesWithFault : Obligations.IllegalWordCompletesWithFault := by
  intro s w hillegal
  refine ⟨fun hidle => ?_, fun hpending hturn => ?_⟩
  · rw [writeReg_command_idle hidle]
    exact ⟨accept_pending s w, rfl⟩
  · rw [step_eq_faultEntry_of_decode_eq_none hpending hturn (decode_eq_none_of_illegal hillegal), faultEntry_eq_faulted,
      FaultCode.code]

end Sys2Proof.Machine
end

section
/-! The commands' completions (40_commands R120): a command that raises no fault commits its effects, which leaves the
host's side alone; and the obligations on DECODE's commit and on RAW_COLOR's none outcome. -/

namespace Sys2Proof.Machine

open Sys2Proof.Claims

/-! What every commit does, in the words of the statements. -/

theorem exec_eq_commit {i : Instr} {s : State} {e : Effects} (h : commandResult i s = .ok e) :
    exec i s = .next (commit s e) := by
  rw [exec_eq, h, complete_ok]

theorem commit_completed (s : State) (e : Effects) : completed s (commit s e) e.none := ⟨rfl, rfl⟩

theorem commit_keepsHostSide (s : State) (e : Effects) : keepsHostSide s (commit s e) :=
  ⟨rfl, inByte_commit s e, rfl, rfl, rfl⟩

/-- Only a DECODE touches the image or COMP (40_commands R123). -/
theorem commit_keepsImage (s : State) {e : Effects} (h : e.decoded = none) : keepsImage s (commit s e) :=
  ⟨by rw [commit_img, h], compElem_commit_none s e h⟩

theorem commit_outRegs (s : State) {e : Effects} {len count rows : Nat}
    (h : e.results = s.results.withOut len count rows) : outRegs s (commit s e) len count rows := h

/-! DECODE's commit (40_commands R123). -/

theorem commit_img_of_decoded (s : State) {e : Effects} {img : Image} {es : List Elem}
    (h : e.decoded = some (img, es)) : (commit s e).img = some img := by
  rw [commit_img, h]

theorem decodedImage_w (s : State) (fam : Family) : (decodedImage s fam).w = s.regs.width.toNat := rfl

/-- COMP holds the decoded elements below L and draws from L up. -/
theorem compElem_commit_decoded {s : State} {fam : Family} {e : Effects} (hc : decodeCheck s = .ok fam)
    (he : e.decoded = some (decodedImage s fam, (decodedComp s fam).map (BitVec.ofNat 16))) (i : Nat) :
    compElem (commit s e) i = if i < (decodedImage s fam).l then BitVec.ofNat 16 ((decodedComp s fam).getD i 0)
      else Config.freeCompElem s.draws i := by
  obtain ⟨-, -, hwidth, -⟩ := decodeCheck_ok hc
  rw [compElem_commit s e _ _ he, List.length_map, decodedComp_length s fam hwidth, map_ofNat_getD]

/-! IMG_* show the latched image (10_state R43). -/

theorem readReg_imgWidth_of_img {s : State} {img : Image} (h : s.img = some img) :
    readReg s .imgWidth = BitVec.ofNat 32 img.w := by simp [readReg, h]

theorem readReg_imgHeight_of_img {s : State} {img : Image} (h : s.img = some img) :
    readReg s .imgHeight = BitVec.ofNat 32 img.h := by simp [readReg, h]

theorem readReg_imgLen_of_img {s : State} {img : Image} (h : s.img = some img) :
    readReg s .imgLen = BitVec.ofNat 32 img.l := by simp [readReg, h]

theorem readReg_imgFamily_of_img {s : State} {img : Image} (h : s.img = some img) :
    readReg s .imgFamily = BitVec.ofNat 32 (img.family.code + if img.subbyte then 2 ^ 8 else 0) := by
  simp [readReg, imgFamilyWord, h]

/-! RAW_COLOR without a raster (40_commands R131). -/

/-- RGB and GRAY have no raw colouring (42_rgb R200, 45_gray R293), nor has an image without a palette. -/
theorem rawPixel_eq_none (s : State) {img : Image}
    (h : (∃ o, img.family = .rgb o) ∨ img.family = .gray ∨ img.desc.palEn = false) : rawPixel s img = none := by
  obtain ⟨o, hrgb⟩ | hgray | hpal := h
  · simp [rawPixel, hrgb]
  · simp [rawPixel, hgray]
  · simp [rawPixel, hpal]

theorem rawColorEffects_of_rawPixel_eq_none {s : State} {img : Image} (hi : s.img = some img)
    (hp : rawPixel s img = none) :
    rawColorEffects s =
      .ok { decoded := none, outBytes := none, results := s.results.withOut 0 0 0, none := true } := by
  simp [rawColorEffects, hi, hp]

/-- Settles O22: the effects are the decoded image and elements, no OUT bytes, and the results as before. -/
theorem decodeCommitsImage : Obligations.DecodeCommitsImage := by
  intro s fam hc hl
  obtain ⟨e, heffects, hdecoded, hout, hresults, hnone⟩ : ∃ e, decodeEffects s = .ok e ∧
      e.decoded = some (decodedImage s fam, (decodedComp s fam).map (BitVec.ofNat 16)) ∧
      e.outBytes = none ∧ e.results = s.results ∧ e.none = false :=
    ⟨_, decodeEffects_of_check hc hl, rfl, rfl, rfl, rfl⟩
  have himg : (commit s e).img = some (decodedImage s fam) := commit_img_of_decoded s hdecoded
  refine ⟨commit s e, decodedImage s fam, exec_eq_commit (i := .decode) heffects, hnone ▸ commit_completed s e,
    commit_keepsHostSide s e, hresults, outByte_commit_none s e hout, himg, by rw [State.imgValid, himg]; rfl, rfl,
    rfl, rfl, decodedImage_w s fam, fun i hi => ?_, fun i hi => ?_, ?_, readReg_imgHeight_of_img himg,
    readReg_imgLen_of_img himg, readReg_imgFamily_of_img himg⟩
  · rw [compElem_commit_decoded hc hdecoded, if_pos hi]
  · rw [compElem_commit_decoded hc hdecoded, if_neg (Nat.not_lt.2 hi)]
  · rw [readReg_imgWidth_of_img himg, decodedImage_w, BitVec.ofNat_toNat, BitVec.setWidth_eq]

/-- Settles O38: such an image has no raw pixels, so the commit writes neither OUT nor the image. -/
theorem rawColorGivesNone : Obligations.RawColorGivesNone := by
  intro s img himg hnone
  have hexec := exec_eq_commit (i := .rawColor)
    (rawColorEffects_of_rawPixel_eq_none himg (rawPixel_eq_none s hnone))
  exact ⟨_, hexec, commit_completed s _, commit_keepsHostSide s _, commit_keepsImage s rfl, commit_outRegs s rfl,
    outByte_commit_none s _ rfl⟩

end Sys2Proof.Machine
end

section
/-! RENDER's rasters (40_commands R126–R128): the index of a pixel's element in the image and in its frame, the completion
of a RENDER from the channels of its pixels, and the obligation on RGB. -/

namespace Sys2Proof.Machine

open Sys2Proof.Claims

/-! Where an element stands. -/

theorem row_mul_add_lt_iff {h w r c : Nat} (hc : c < w) : r * w + c < h * w ↔ r < h := by
  have hw : 0 < w := Nat.zero_lt_of_lt hc
  rw [← Nat.div_lt_iff_lt_mul hw, Nat.mul_comm r w, Nat.mul_add_div hw, Nat.div_eq_of_lt hc, Nat.add_zero]

/-- Element `i` of pixel `(r, c)` is one of `h` rows' elements exactly when row `r` is one of them. -/
theorem elemIndex_lt_iff {h w cpp r c i : Nat} (hc : c < w) (hi : i < cpp) :
    (r * w + c) * cpp + i < h * w * cpp ↔ r < h := by
  rw [row_mul_add_lt_iff hi, row_mul_add_lt_iff hc]

theorem imageOk_l_of_rgb {img : Image} {o : RgbOrder} (h : imageOk img) (hfam : img.family = .rgb o) :
    img.l = img.h * img.w * 4 := by
  obtain ⟨-, -, hsizes, -⟩ := h
  simp only [sizesOk, hfam] at hsizes
  rw [hsizes]
  ring

theorem rgbSlots_lt (o : RgbOrder) :
    (rgbSlots o).1 < 4 ∧ (rgbSlots o).2.1 < 4 ∧ (rgbSlots o).2.2.1 < 4 ∧ (rgbSlots o).2.2.2 < 4 := by
  cases o <;> decide

/-! The frames of the RGB, GRAY and BAYER families (40_commands R127). -/

theorem plainFrames_count (img : Image) (cpp f : Nat) : (plainFrames img cpp f).count = frameCountOf img f := by
  unfold plainFrames frameCountOf
  split <;> rfl

theorem plainFrames_rows (img : Image) (cpp f : Nat) : (plainFrames img cpp f).rows = frameRowsOf img f := by
  unfold plainFrames frameRowsOf
  split <;> rfl

theorem plainFrames_len {img : Image} {cpp : Nat} (hl : img.l = img.h * img.w * cpp) (f : Nat) :
    (plainFrames img cpp f).len = frameRowsOf img f * img.w * cpp := by
  unfold plainFrames frameRowsOf
  split
  · exact hl
  · rfl

/-- An element of frame `k` is the image's element, or the 0 of a padding row. -/
theorem frameData_plainFrames_getD (s : State) {img : Image} {cpp f k r c i : Nat} (hl : img.l = img.h * img.w * cpp)
    (hr : r < frameRowsOf img f) (hc : c < img.w) (hi : i < cpp) :
    (frameData (imageData s img) (plainFrames img cpp f) k).getD ((r * img.w + c) * cpp + i) 0 =
      elemOf s img cpp (frameRowsOf img f) k r c i := by
  have hindex : k * (frameRowsOf img f * img.w * cpp) + ((r * img.w + c) * cpp + i) =
      ((k * frameRowsOf img f + r) * img.w + c) * cpp + i := by ring
  rw [frameData_getD, plainFrames_len hl, if_pos ((elemIndex_lt_iff hc hi).2 hr), hindex, imageData_getD, hl]
  simp only [elemIndex_lt_iff hc hi, elemOf]

/-! A command that writes a raster. -/

/-- A pixel as the statements write it: red, green, blue and alpha. -/
def Pixel.channels (p : Pixel) : Nat × Nat × Nat × Nat := (p.r, p.g, p.b, p.a)

/-- A commit of a raster and its sizes leaves OUT and the result registers as `rastered` says. -/
theorem commit_rastered (s : State) {e : Effects} {count rows w : Nat} {px : Nat → Nat → Nat → Pixel}
    {channels : Nat → Nat → Nat → Nat × Nat × Nat × Nat} (hout : e.outBytes = some (toBytes (raster count rows w px)))
    (hresults : e.results = s.results.withOut (count * rows * w * 4) count rows)
    (hpx : ∀ k r c, k < count → r < rows → c < w → (px k r c).channels = channels k r c) :
    rastered s (commit s e) count rows w channels := by
  have hread := outByte_commit s e _ hout
  simp only [toBytes_length, raster_length] at hread
  refine ⟨commit_outRegs s hresults, fun k r c hk hr hc => ?_, fun a ha => ?_⟩
  · have hbyte (ch : Nat) (hch : ch < 4) :
        outByte (commit s e) (outAt rows w k r c ch) = BitVec.ofNat 8 ((px k r c).bytes.getD ch 0) := by
      have hrow : k * rows + r < count * rows := (row_mul_add_lt_iff hr).2 hk
      rw [hread, outAt, if_pos ((elemIndex_lt_iff hc hch).2 hrow), toBytes_getD,
        raster_getD count rows w px k r c ch hk hr hc hch]
    rw [← hpx k r c hk hr hc]
    exact ⟨hbyte 0 (by decide), hbyte 1 (by decide), hbyte 2 (by decide), hbyte 3 (by decide)⟩
  · rw [hread, if_neg (Nat.not_lt.2 ha)]

/-- A RENDER whose frames pass the family's checks and fit OUT completes with the raster of their pixels
(40_commands R126). -/
theorem execRender_of_frames {s : State} {img : Image} {fr : Frames}
    {channels : Nat → Nat → Nat → Nat × Nat × Nat × Nat} (himg : s.img = some img)
    (hframes : renderFrames img s.regs.maskBit s.regs.frameHeight.toNat = .ok fr)
    (hfit : fr.count * fr.rows * img.w * 4 ≤ s.impl.outMemBytes)
    (hpx : ∀ k r c, k < fr.count → r < fr.rows → c < img.w →
      (framePixel s.impl img fr s.regs.maskBit (frameData (imageData s img) fr k) r c).channels = channels k r c) :
    ∃ t, exec .render s = .next t ∧ completed s t false ∧ keepsHostSide s t ∧ keepsImage s t ∧
      rastered s t fr.count fr.rows img.w channels :=
  ⟨_, exec_eq_commit (i := .render) (renderEffects_of_frames himg hframes hfit), commit_completed s _,
    commit_keepsHostSide s _, commit_keepsImage s rfl, commit_rastered s rfl rfl hpx⟩

/-! RGB (42_rgb R194–R196). -/

/-- The channels of an RGB pixel from its frame's elements: rescale, mask, and force alpha. -/
theorem rgbPixel_channels {d : Descriptor} {o : RgbOrder} {w r c : Nat} {fb : List Nat} {elem : Nat → Nat}
    (m : Nat → Bool) (helem : ∀ i, i < 4 → fb.getD ((r * w + c) * 4 + i) 0 = elem i) :
    (rgbPixel d o w fb m r c).channels =
      let v8 := fun i => (2 * elem i * 255 + (2 ^ d.width i - 1)) / (2 * (2 ^ d.width i - 1))
      (if m 0 then v8 (rgbSlots o).1 else 0, if m 1 then v8 (rgbSlots o).2.1 else 0,
        if m 2 then v8 (rgbSlots o).2.2.1 else 0,
        if m 3 = false ∨ d.width (rgbSlots o).2.2.2 = 0 then 255 else v8 (rgbSlots o).2.2.2) := by
  have hsample (i : Nat) (hi : i < 4) : rgbSample d w fb r c i =
      (2 * elem i * 255 + (2 ^ d.width i - 1)) / (2 * (2 ^ d.width i - 1)) := by
    rw [rgbSample, Nat.mul_comm 4, helem i hi, round255]
  obtain ⟨hred, hgreen, hblue, halpha⟩ := rgbSlots_lt o
  have hforced : (m 3 && decide (0 < d.width (rgbSlots o).2.2.2)) = true ↔
      ¬(m 3 = false ∨ d.width (rgbSlots o).2.2.2 = 0) := by
    simp [Nat.pos_iff_ne_zero]
  simp only [rgbPixel, Pixel.channels, hsample _ hred, hsample _ hgreen, hsample _ hblue, hsample _ halpha, hforced,
    ite_not]

/-- Settles O30: the frames are the plain ones of four elements a pixel, and each pixel is R194 to R196's of its elements. -/
theorem renderRgbRescalesAndMasks : Obligations.RenderRgbRescalesAndMasks := by
  intro s img o himg hfam hok f rows d hfit
  have hframes : renderFrames img s.regs.maskBit f = .ok (plainFrames img 4 f) := by simp only [renderFrames, hfam]
  have hrows : (plainFrames img 4 f).rows = rows := plainFrames_rows img 4 f
  rw [← plainFrames_count img 4, ← hrows] at hfit ⊢
  refine execRender_of_frames himg hframes hfit fun k r c _ hr hc => ?_
  rw [hrows] at hr
  simp only [framePixel, hfam, hrows]
  exact rgbPixel_channels _ fun i hi => frameData_plainFrames_getD s (imageOk_l_of_rgb hok hfam) hr hc hi

end Sys2Proof.Machine
end

section
/-! PIXEL_COMPONENTS (40_commands R138): the elements of a pixel read back from COMP, each family's lookup, and the
obligation on all of them. -/

namespace Sys2Proof.Machine

open Sys2Proof.Claims

/-! The image's elements as the result registers hold them. -/

theorem ofNat_imageData_getD (s : State) {img : Image} {i : Nat} (hi : i < img.l) :
    BitVec.ofNat 16 ((imageData s img).getD i 0) = compElem s i := by
  rw [imageData_getD, if_pos hi, BitVec.ofNat_toNat, BitVec.setWidth_eq]

theorem imageOk_l_of_single {img : Image} (h : imageOk img) (hfam : img.family = .gray ∨ ∃ o, img.family = .bayer o) :
    img.l = img.h * img.w := by
  obtain ⟨-, -, hsizes, -⟩ := h
  obtain hgray | ⟨o, hbayer⟩ := hfam
  · simp only [sizesOk, hgray] at hsizes
    rw [hsizes, Nat.mul_comm]
  · simp only [sizesOk, hbayer] at hsizes
    rw [hsizes, Nat.mul_comm]

theorem ofNat_sampleAt (s : State) {img : Image} (hl : img.l = img.h * img.w) {a b : Nat} (ha : a < img.h)
    (hb : b < img.w) : BitVec.ofNat 16 (sampleAt img.w (imageData s img) a b) = compElem s (a * img.w + b) :=
  ofNat_imageData_getD s (hl ▸ (row_mul_add_lt_iff hb).2 ha)

/-- A sample of the tile, 0 outside the image (44_bayer R271). -/
theorem ofNat_sampleAt_or_zero (s : State) {img : Image} (hl : img.l = img.h * img.w) (a b : Nat) :
    BitVec.ofNat 16 (if a < img.h ∧ b < img.w then sampleAt img.w (imageData s img) a b else 0) =
      if a < img.h ∧ b < img.w then compElem s (a * img.w + b) else 0 := by
  split
  case isTrue h => exact ofNat_sampleAt s hl h.1 h.2
  case isFalse => rfl

/-! The present slots in order (41_unpack R157). -/

theorem present_eq_filter_range (d : Descriptor) :
    d.present = (List.range 4).filter fun i => decide (0 < d.width i) := rfl

theorem present_length (d : Descriptor) : d.present.length = presentBelow d 4 := rfl

theorem presentBelow_le (d : Descriptor) (n : Nat) : presentBelow d n ≤ n := by
  simpa [presentBelow] using List.length_filter_le (fun k => decide (0 < d.width k)) (List.range n)

/-- A present slot's place among the present ones is the number of those below it. -/
theorem idxOf_present {d : Descriptor} {i : Nat} (hi : i < 4) (hw : 0 < d.width i) :
    d.present.idxOf i = presentBelow d i := by
  obtain ⟨m, hm⟩ : ∃ m, 4 = i + (m + 1) := ⟨3 - i, by omega⟩
  rw [present_eq_filter_range, hm, List.range_add, List.filter_append, List.idxOf_append_of_notMem (by simp),
    List.range_succ_eq_map]
  simp [hw, presentBelow]

/-- The component of a present slot stands at its place among the present ones (42_rgb R199). -/
theorem rgbComps_getD_presentBelow {d : Descriptor} (w : Nat) (data : List Nat) (r c : Nat) {i : Nat} (hi : i < 4)
    (hw : 0 < d.width i) :
    (rgbComps d w data r c).getD (presentBelow d i) 0 = data.getD ((r * w + c) * 4 + i) 0 := by
  have hlt := List.idxOf_lt_length_iff.2 ((mem_present hi).2 hw)
  rw [← idxOf_present hi hw, rgbComps, List.getD_eq_getElem?_getD, List.getElem?_map, List.getElem?_eq_getElem hlt,
    List.getElem_idxOf, Nat.mul_comm 4]
  rfl

theorem rgbComps_length (d : Descriptor) (w : Nat) (data : List Nat) (r c : Nat) :
    (rgbComps d w data r c).length = presentBelow d 4 := by
  rw [rgbComps, List.length_map, present_length]

/-- PIX_VAL0..3 are the looked-up values, at most four, then 0 (10_state R44). -/
theorem withPix_pixVals_getD (g : Results) {vals : List Nat} (hlen : vals.length ≤ 4) (k : Nat) :
    [(g.withPix vals).pixVal0, (g.withPix vals).pixVal1, (g.withPix vals).pixVal2, (g.withPix vals).pixVal3].getD k 0 =
      BitVec.ofNat 16 (vals.getD k 0) := by
  match k with
  | 0 | 1 | 2 | 3 => rfl
  | k + 4 =>
    rw [List.getD_eq_default vals 0 (by omega)]
    rfl

/-- What the result registers hold after the lookup in an RGB image (42_rgb R199). -/
theorem withPix_rgbLookup (s : State) {img : Image} (hl : img.l = img.h * img.w * 4) {r c : Nat} (hr : r < img.h)
    (hc : c < img.w) (g : Results) :
    let t := g.withPix (rgbLookup img (imageData s img) r c)
    t.pixCount = BitVec.ofNat 3 (presentBelow img.desc 4) ∧
      ∀ slot, slot < 4 → 0 < img.desc.width slot →
        [t.pixVal0, t.pixVal1, t.pixVal2, t.pixVal3].getD (presentBelow img.desc slot) 0 =
            compElem s (4 * (r * img.w + c) + slot) ∧
          ∀ k, presentBelow img.desc 4 ≤ k → [t.pixVal0, t.pixVal1, t.pixVal2, t.pixVal3].getD k 0 = 0 := by
  have hlen := rgbComps_length img.desc img.w (imageData s img) r c
  have hvals := withPix_pixVals_getD g (hlen ▸ presentBelow_le img.desc 4)
  refine ⟨by rw [Results.withPix_pixCount, rgbLookup, hlen], fun slot hslot hw => ⟨?_, fun k hk => ?_⟩⟩
  · rw [rgbLookup, hvals, rgbComps_getD_presentBelow _ _ _ _ hslot hw,
      ofNat_imageData_getD s (hl ▸ (elemIndex_lt_iff hc hslot).2 hr), Nat.mul_comm 4]
  · rw [rgbLookup, hvals, List.getD_eq_default _ _ (hlen ▸ hk)]
    rfl

/-- Settles O49: the command commits `withPix` of the family's lookup, whose elements are COMP's. -/
theorem pixelComponentsLookUp : Obligations.PixelComponentsLookUp := by
  intro s img himg hok hr hc r c data e
  have hexec := exec_eq_commit (i := .pixelComponents) (pixelEffects_of_pixel himg hr hc)
  refine ⟨_, hexec, commit_completed s _, commit_keepsHostSide s _, commit_keepsImage s rfl,
    outByte_commit_none s _ rfl, rfl, rfl, rfl, ?_⟩
  rw [commit_results]
  cases hfam : img.family with
  | rgb o =>
    simp only [lookupVals, hfam]
    exact withPix_rgbLookup s (imageOk_l_of_rgb hok hfam) hr hc s.results
  | yuv y =>
    simp only [lookupVals, hfam]
    exact ⟨rfl, rfl, rfl, rfl, rfl⟩
  | gray =>
    have hl := imageOk_l_of_single hok (.inl hfam)
    simp only [lookupVals, hfam]
    refine ⟨rfl, ?_, rfl, rfl, rfl⟩
    exact (ofNat_sampleAt s hl hr hc).trans (if_pos ⟨hr, hc⟩).symm
  | bayer o =>
    have hl := imageOk_l_of_single hok (.inr ⟨o, hfam⟩)
    simp only [lookupVals, hfam, Nat.mul_comm _ 2]
    exact ⟨rfl, ofNat_sampleAt_or_zero s hl _ _, ofNat_sampleAt_or_zero s hl _ _, ofNat_sampleAt_or_zero s hl _ _,
      ofNat_sampleAt_or_zero s hl _ _⟩

end Sys2Proof.Machine
end

section
/-! The YUV family (43_yuv R220–R240): the bytes a DECODE stores, the pixels of RENDER and RAW_COLOR, the planes and groups
of a region, and the obligations on them. -/

namespace Sys2Proof.Machine

open Sys2Proof.Claims

/-! The pre-pass, byte by byte (41_unpack R156). -/

theorem reversed_index_lt {n g i : Nat} (hg : 2 ≤ g) (hi : i < g * (n / g)) : i / g * g + (g - 1 - i % g) < n := by
  have hgroup : i / g < n / g := Nat.div_lt_of_lt_mul hi
  calc i / g * g + (g - 1 - i % g) < i / g * g + g := by omega
    _ = (i / g + 1) * g := (Nat.succ_mul _ _).symm
    _ ≤ n / g * g := Nat.mul_le_mul_right g hgroup
    _ ≤ n := Nat.div_mul_le_self n g

theorem byteReverse_getD (a : List Nat) {g : Nat} (hg : 2 ≤ g) (i : Nat) :
    (byteReverse a g).getD i 0 = if i < a.length then
      if i < g * (a.length / g) then a.getD (i / g * g + (g - 1 - i % g)) 0 else a.getD i 0 else 0 := by
  rw [byteReverse, if_neg (by omega), getD_map_range]

/-- The buffer a DECODE unpacks holds the statements' bytes. -/
theorem byteReverse_rawBytes_getD (s : State) (i : Nat) :
    (byteReverse (rawBytes s s.regs.inLen.toNat) s.regs.reverseGroup.toNat).getD i 0 = bufByte s i := by
  unfold bufByte
  by_cases hn : s.regs.inLen.toNat ≤ i
  · rw [List.getD_eq_default _ _ (by simpa using hn), if_pos hn]
  by_cases hg : 2 ≤ s.regs.reverseGroup.toNat
  · rw [byteReverse_getD _ hg, rawBytes_length, if_pos (by omega), if_neg hn]
    by_cases hi : i < s.regs.reverseGroup.toNat * (s.regs.inLen.toNat / s.regs.reverseGroup.toNat)
    · rw [if_pos hi, if_pos ⟨hg, hi⟩, rawBytes_getD, if_pos (reversed_index_lt hg hi)]
    · rw [if_neg hi, if_neg (fun h => hi h.2), rawBytes_getD, if_pos (by omega)]
  · rw [byteReverse_small _ _ (by omega), rawBytes_getD, if_pos (by omega), if_neg hn, if_neg (fun h => hg h.1)]

/-! What a YUV DECODE latches and stores (43_yuv R220). -/

theorem decodedImage_yuv_h (s : State) (y : YuvFamily) :
    (decodedImage s (.yuv y)).h = (yuvSize y s.regs.inLen.toNat s.regs.width.toNat).1 := rfl

theorem decodedImage_yuv_l (s : State) (y : YuvFamily) :
    (decodedImage s (.yuv y)).l = (yuvSize y s.regs.inLen.toNat s.regs.width.toNat).2 := rfl

theorem yuvSize_fst (y : YuvFamily) (n w : Nat) :
    (yuvSize y n w).1 = if is420 y then ceilDiv (2 * ceilDiv n w) 3 else ceilDiv n (2 * w) := by
  unfold yuvSize
  split <;> rfl

theorem yuvSize_snd (y : YuvFamily) (n w : Nat) :
    (yuvSize y n w).2 = if is420 y then w * ceilDiv n w else 2 * w * ceilDiv n (2 * w) := by
  unfold yuvSize
  split <;> rfl

theorem decodedComp_yuv_getD {s : State} {y : YuvFamily} {i : Nat} (hi : i < (decodedImage s (.yuv y)).l) :
    (decodedComp s (.yuv y)).getD i 0 = bufByte s i := by
  rw [decodedImage_yuv_l] at hi
  simp only [decodedComp, decodedElems, yuvDecode, byteReverse_length, rawBytes_length]
  rw [window_getD, if_pos hi, Nat.zero_add, byteReverse_rawBytes_getD]

/-- Settles O23: the commit's elements are the window of the reversed buffer, which is 0 past its end. -/
theorem decodeYuvStoresBytes : Obligations.DecodeYuvStoresBytes := by
  intro s y hc n w h l hfit
  have hh : (decodedImage s (.yuv y)).h = h := yuvSize_fst y n w
  have hl : (decodedImage s (.yuv y)).l = l := yuvSize_snd y n w
  rw [← hl] at hfit
  refine ⟨_, decodedImage s (.yuv y), exec_eq_commit (i := .decode) (decodeEffects_of_check hc hfit),
    commit_img_of_decoded s rfl, hh, hl, rfl, fun i hi => ?_⟩
  rw [← hl] at hi
  rw [compElem_commit_decoded hc rfl, if_pos hi, decodedComp_yuv_getD hi]

/-! RENDER (43_yuv R223, R231–R234). -/

/-- The frames of a 4:2:0 image at an even height, and of a 4:2:2 image at any (43_yuv R223). -/
theorem yuvFrames_ok {y : YuvFamily} (img : Image) {f : Nat} (heven : is420 y = true → f % 2 = 0) :
    let flen := if f = 0 then img.l else if is420 y then 3 * f * img.w / 2 else 2 * f * img.w
    yuvFrames y img f = .ok { count := if f = 0 then 1 else ceilDiv img.l flen
                              rows := if f = 0 then img.h else f
                              len := flen } := by
  unfold yuvFrames
  split
  · rfl
  · split
    case isTrue h420 => simp [heven h420]
    case isFalse => rfl

/-- A frame is a slice of COMP's bytes, 0 past the image's end (43_yuv R223). -/
theorem frameData_imageData_eq (s : State) (img : Image) (fr : Frames) (k : Nat) :
    frameData (imageData s img) fr k = (List.range fr.len).map fun i =>
      if k * fr.len + i < img.l then (compElem s (k * fr.len + i)).toNat else 0 :=
  List.map_congr_left fun i _ => imageData_getD s img (k * fr.len + i)

theorem yuvPixel_channels (p : CscChoice) (y : YuvFamily) (hf w : Nat) (fb : List Nat) (m : Nat → Bool) (r c : Nat) :
    (yuvPixel p y hf w fb m r c).channels =
      let l := lumaAt y fb w r c
      let uv := chromaAt y fb hf w r c
      if m 1 = false ∧ m 2 = false then (l, l, l, 255)
      else
        let rgb := csc p (BitVec.ofNat 8 l) (BitVec.ofNat 8 (if m 1 then uv.1 else 0))
          (BitVec.ofNat 8 (if m 2 then uv.2 else 0))
        (rgb.1.toNat, rgb.2.1.toNat, rgb.2.2.toNat, 255) := by
  simp only [yuvPixel, Bool.and_eq_true, Bool.not_eq_true']
  split <;> rfl

/-- Settles O31: the frames pass R223's check, and each pixel is R232 to R234's of its frame's bytes. -/
theorem renderYuvConverts : Obligations.RenderYuvConverts := by
  intro s img y himg hfam hluma f heven flen count rows bytes hfit
  have hframes : renderFrames img s.regs.maskBit f = .ok { count := count, rows := rows, len := flen } := by
    simp only [renderFrames, hfam, hluma, Bool.not_true, Bool.false_eq_true, if_false]
    exact yuvFrames_ok img heven
  refine execRender_of_frames himg hframes hfit fun k r c _ _ _ => ?_
  simp only [framePixel, hfam, frameData_imageData_eq]
  exact yuvPixel_channels _ _ _ _ _ _ _ _

/-! RAW_COLOR (43_yuv R237). -/

/-- A RAW_COLOR of an image with raw pixels that fit OUT completes with one frame of them (40_commands R130). -/
theorem execRawColor_of_rawPixel {s : State} {img : Image} {px : Nat → Nat → Pixel}
    {channels : Nat → Nat → Nat → Nat × Nat × Nat × Nat} (himg : s.img = some img) (hpx : rawPixel s img = some px)
    (hfit : img.h * img.w * 4 ≤ s.impl.outMemBytes)
    (hchannels : ∀ k r c, k < 1 → r < img.h → c < img.w → (px r c).channels = channels k r c) :
    ∃ t, exec .rawColor s = .next t ∧ completed s t false ∧ keepsHostSide s t ∧ keepsImage s t ∧
      rastered s t 1 img.h img.w channels := by
  have heffects : rawColorEffects s =
      .ok { decoded := none, outBytes := some (toBytes (raster 1 img.h img.w fun _ => px))
            results := s.results.withOut (1 * img.h * img.w * 4) 1 img.h, none := false } := by
    simp [rawColorEffects, himg, hpx, Nat.not_lt.2 hfit]
  exact ⟨_, exec_eq_commit (i := .rawColor) heffects, commit_completed s _, commit_keepsHostSide s _,
    commit_keepsImage s rfl, commit_rastered s rfl rfl hchannels⟩

theorem rawPixel_of_yuv (s : State) {img : Image} {y : YuvFamily} (hfam : img.family = .yuv y)
    (hpal : img.desc.palEn = true) : rawPixel s img = some (yuvRawPixel y img (imageData s img)) := by
  simp [rawPixel, hfam, hpal]

/-- Settles O39: a raw pixel's channels are `tintSum`s with the tints PAL0, PAL1 and PAL2. -/
theorem rawColorYuvTints : Obligations.RawColorYuvTints := by
  intro s img y himg hfam hpal hfit data d
  exact execRawColor_of_rawPixel himg (rawPixel_of_yuv s hfam hpal) hfit fun _ _ _ _ _ _ => rfl

/-! CROP_TO_RAW (40_commands R134). -/

/-- A CROP_TO_RAW of a region that lies in the image and fits OUT completes with the region's bytes. -/
theorem execCropToRaw_of_bytes {s : State} {img : Image} {bytes : List Nat} {len : Nat} (himg : s.img = some img)
    (hregion : regionOk s.regs img = true) (hbytes : regionBytes s img = bytes) (hlen : bytes.length = len)
    (hfit : len ≤ s.impl.outMemBytes) :
    ∃ t, exec .cropToRaw s = .next t ∧ completed s t false ∧ keepsHostSide s t ∧ keepsImage s t ∧
      outRegs s t len 0 0 ∧ (∀ a, a < len → outByte t a = BitVec.ofNat 8 (bytes.getD a 0)) ∧
      ∀ a, len ≤ a → outByte t a = Config.freeOutByte s.draws a := by
  subst hbytes hlen
  refine ⟨_, exec_eq_commit (i := .cropToRaw) (cropEffects_of_region himg hregion hfit), commit_completed s _,
    commit_keepsHostSide s _, commit_keepsImage s rfl, commit_outRegs s rfl, fun a ha => ?_, fun a ha => ?_⟩
  · rw [outByte_commit s _ _ rfl, toBytes_length, if_pos ha, toBytes_getD]
  · rw [outByte_commit s _ _ rfl, toBytes_length, if_neg (Nat.not_lt.2 ha)]

/-! Regions of cells that give several bytes each. -/

theorem map_region {α β : Type} (r0 r1 c0 c1 : Nat) (f : Nat → Nat → α) (g : α → β) :
    (region r0 r1 c0 c1 f).map g = region r0 r1 c0 c1 fun r c => g (f r c) := by
  simp [region, List.map_flatMap, Function.comp_def]

theorem region_eq_region_zero {α : Type} (r0 r1 c0 c1 : Nat) (f : Nat → Nat → α) :
    region r0 r1 c0 c1 f = region 0 (r1 - r0) 0 (c1 - c0) fun i j => f (r0 + i) (c0 + j) := by
  simp [region]

theorem region_zero_length {α : Type} (h w : Nat) (f : Nat → Nat → α) : (region 0 h 0 w f).length = h * w :=
  region_length 0 h 0 w f

theorem region_zero_getD {α : Type} {h w i j : Nat} (f : Nat → Nat → α) (d : α) (hi : i < h) (hj : j < w) :
    (region 0 h 0 w f).getD (i * w + j) d = f i j := by
  simpa using region_getD 0 h 0 w f d i j hi hj

theorem flatMap_region {α β : Type} (h w : Nat) (f : Nat → Nat → α) (g : α → List β) :
    (region 0 h 0 w f).flatMap g = (region 0 h 0 w fun r c => g (f r c)).flatten := by
  rw [List.flatMap_def, map_region]

theorem flatten_region {α : Type} (h w : Nat) (f : Nat → Nat → List α) :
    (region 0 h 0 w f).flatten = (List.range h).flatMap fun r => (List.range w).flatMap (f r) := by
  simp [region, List.flatMap_def, List.flatten_flatten, Function.comp_def]

theorem flatten_region_length {α : Type} (h w : Nat) {m : Nat} {f : Nat → Nat → List α}
    (hm : ∀ r c, (f r c).length = m) : (region 0 h 0 w f).flatten.length = h * w * m := by
  have hrow : ∀ r, r < h → ((List.range w).flatMap (f r)).length = w * m := fun r _ =>
    length_flatMap_range _ _ _ fun c _ => hm r c
  rw [flatten_region, length_flatMap_range _ _ _ hrow, Nat.mul_assoc]

/-- Value `p` of the cell in row `i` and column `j`. -/
theorem flatten_region_getD {α : Type} {h w m i j p : Nat} {f : Nat → Nat → List α} (d : α)
    (hm : ∀ r c, (f r c).length = m) (hi : i < h) (hj : j < w) (hp : p < m) :
    (region 0 h 0 w f).flatten.getD ((i * w + j) * m + p) d = (f i j).getD p d := by
  have hrow : ∀ r, r < h → ((List.range w).flatMap (f r)).length = w * m := fun r _ =>
    length_flatMap_range _ _ _ fun c _ => hm r c
  have hindex : (i * w + j) * m + p = i * (w * m) + (j * m + p) := by ring
  rw [flatten_region, hindex, getD_flatMap_range _ _ _ _ hrow _ _ hi ((row_mul_add_lt_iff hp).2 hj),
    getD_flatMap_range _ _ _ _ (fun c _ => hm i c) _ _ hj hp]

/-! Two planes of chroma, or pairs of it (43_yuv R238, R239). -/

/-- The two chroma planes of `hc` rows of `wc` samples. -/
def chromaPlanes (hc wc : Nat) (ch : Nat → Nat → Nat × Nat) : List Nat :=
  region 0 hc 0 wc (fun i j => (ch i j).1) ++ region 0 hc 0 wc (fun i j => (ch i j).2)

/-- The chroma samples of `hc` rows of `wc` cells, interleaved. -/
def chromaPairs (hc wc : Nat) (ch : Nat → Nat → Nat × Nat) : List Nat :=
  (region 0 hc 0 wc fun i j => [(ch i j).1, (ch i j).2]).flatten

theorem chromaPlanes_length (hc wc : Nat) (ch : Nat → Nat → Nat × Nat) :
    (chromaPlanes hc wc ch).length = 2 * (hc * wc) := by
  simp only [chromaPlanes, List.length_append, region_zero_length]
  omega

theorem chromaPairs_length (hc wc : Nat) (ch : Nat → Nat → Nat × Nat) :
    (chromaPairs hc wc ch).length = 2 * (hc * wc) := by
  rw [chromaPairs, flatten_region_length _ _ (m := 2) fun _ _ => rfl, Nat.mul_comm]

section
variable {hc wc i j : Nat} (ch : Nat → Nat → Nat × Nat) (hi : i < hc) (hj : j < wc)
include hi hj

theorem chromaPlanes_getD_fst : (chromaPlanes hc wc ch).getD (i * wc + j) 0 = (ch i j).1 := by
  have hindex : i * wc + j < hc * wc := (row_mul_add_lt_iff hj).2 hi
  rw [chromaPlanes, List.getD_append _ _ _ _ (by rwa [region_zero_length]), region_zero_getD _ _ hi hj]

theorem chromaPlanes_getD_snd : (chromaPlanes hc wc ch).getD (hc * wc + (i * wc + j)) 0 = (ch i j).2 := by
  rw [chromaPlanes, List.getD_append_right _ _ _ _ (by rw [region_zero_length]; omega), region_zero_length,
    Nat.add_sub_cancel_left, region_zero_getD _ _ hi hj]

theorem chromaPairs_getD_fst : (chromaPairs hc wc ch).getD (2 * (i * wc + j)) 0 = (ch i j).1 := by
  rw [Nat.mul_comm]
  exact flatten_region_getD 0 (m := 2) (fun _ _ => rfl) hi hj (p := 0) (by decide)

theorem chromaPairs_getD_snd : (chromaPairs hc wc ch).getD (2 * (i * wc + j) + 1) 0 = (ch i j).2 := by
  rw [Nat.mul_comm]
  exact flatten_region_getD 0 (m := 2) (fun _ _ => rfl) hi hj (p := 1) (by decide)

end

/-! The bytes of a planar or semiplanar region (43_yuv R238, R239). -/

/-- The luma `di` rows and `dj` columns from the region's first pixel. -/
def regionLuma (s : State) (img : Image) (y : YuvFamily) (di dj : Nat) : Nat :=
  lumaAt y (imageData s img) img.w (s.regs.row0.toNat + di) (s.regs.col0.toNat + dj)

/-- The chroma in storage order `di` rows and `dj` columns from the region's first pixel. -/
def regionChroma (s : State) (img : Image) (y : YuvFamily) (di dj : Nat) : Nat × Nat :=
  chroma y (imageData s img) img.h img.w (s.regs.row0.toNat + di) (s.regs.col0.toNat + dj)

theorem lumaPlane_eq_region (s : State) (img : Image) (y : YuvFamily) :
    lumaPlane y img (imageData s img) s.regs.row0.toNat s.regs.row1.toNat s.regs.col0.toNat s.regs.col1.toNat =
      region 0 (s.regs.row1.toNat - s.regs.row0.toNat) 0 (s.regs.col1.toNat - s.regs.col0.toNat)
        (regionLuma s img y) :=
  region_eq_region_zero _ _ _ _ _

section
variable (s : State) {img : Image} {o : PlaneOrder}

theorem regionBytes_semi420 (hfam : img.family = .yuv (.semi420 o)) :
    let h := s.regs.row1.toNat - s.regs.row0.toNat
    let w := s.regs.col1.toNat - s.regs.col0.toNat
    regionBytes s img = region 0 h 0 w (regionLuma s img (.semi420 o)) ++
      chromaPairs (ceilDiv h 2) (ceilDiv w 2) fun i j => regionChroma s img (.semi420 o) (2 * i) (2 * j) := by
  simp only [regionBytes, cropBytes, hfam, yuvCrop, yuv420Crop, flatMap_region, lumaPlane_eq_region]
  rfl

theorem regionBytes_planar420 (hfam : img.family = .yuv (.planar420 o)) :
    let h := s.regs.row1.toNat - s.regs.row0.toNat
    let w := s.regs.col1.toNat - s.regs.col0.toNat
    regionBytes s img = region 0 h 0 w (regionLuma s img (.planar420 o)) ++
      chromaPlanes (ceilDiv h 2) (ceilDiv w 2) fun i j => regionChroma s img (.planar420 o) (2 * i) (2 * j) := by
  simp only [regionBytes, cropBytes, hfam, yuvCrop, yuv420Crop, map_region, lumaPlane_eq_region]
  rfl

theorem regionBytes_planar422 (hfam : img.family = .yuv (.planar422 o)) :
    let h := s.regs.row1.toNat - s.regs.row0.toNat
    let w := s.regs.col1.toNat - s.regs.col0.toNat
    regionBytes s img = region 0 h 0 w (regionLuma s img (.planar422 o)) ++
      chromaPlanes h (ceilDiv w 2) fun i j => regionChroma s img (.planar422 o) i (2 * j) := by
  simp only [regionBytes, cropBytes, hfam, yuvCrop, yuv422PlanarCrop, map_region, lumaPlane_eq_region,
    List.append_assoc]
  rfl

end

/-! A CROP_TO_RAW whose region is `h·w` luma bytes and chroma behind them. -/

section
variable {s : State} {img : Image} {h w hc wc : Nat} {luma : Nat → Nat → Nat} {ch : Nat → Nat → Nat × Nat}

theorem execCropToRaw_of_luma {rest : List Nat} {n : Nat} (himg : s.img = some img)
    (hregion : regionOk s.regs img = true) (hbytes : regionBytes s img = region 0 h 0 w luma ++ rest)
    (hrest : rest.length = n) (hfit : h * w + n ≤ s.impl.outMemBytes) :
    ∃ t, exec .cropToRaw s = .next t ∧ completed s t false ∧ keepsHostSide s t ∧ keepsImage s t ∧
      outRegs s t (h * w + n) 0 0 ∧
      (∀ i j, i < h → j < w → outByte t (i * w + j) = BitVec.ofNat 8 (luma i j)) ∧
      (∀ k, k < n → outByte t (h * w + k) = BitVec.ofNat 8 (rest.getD k 0)) ∧
      ∀ a, h * w + n ≤ a → outByte t a = Config.freeOutByte s.draws a := by
  have hluma : (region 0 h 0 w luma).length = h * w := region_zero_length h w luma
  have hlen : (region 0 h 0 w luma ++ rest).length = h * w + n := by rw [List.length_append, hluma, hrest]
  obtain ⟨t, hexec, hcompleted, hhost, himage, hregs, hwritten, hbeyond⟩ :=
    execCropToRaw_of_bytes himg hregion hbytes hlen hfit
  refine ⟨t, hexec, hcompleted, hhost, himage, hregs, fun i j hi hj => ?_, fun k hk => ?_, hbeyond⟩
  · have hindex : i * w + j < h * w := (row_mul_add_lt_iff hj).2 hi
    rw [hwritten _ (by omega), List.getD_append _ _ _ _ (by rwa [hluma]), region_zero_getD luma 0 hi hj]
  · rw [hwritten _ (by omega), List.getD_append_right _ _ _ _ (by omega), hluma, Nat.add_sub_cancel_left]

theorem execCropToRaw_of_planes (himg : s.img = some img) (hregion : regionOk s.regs img = true)
    (hbytes : regionBytes s img = region 0 h 0 w luma ++ chromaPlanes hc wc ch)
    (hfit : h * w + 2 * (hc * wc) ≤ s.impl.outMemBytes) :
    ∃ t, exec .cropToRaw s = .next t ∧ completed s t false ∧ keepsHostSide s t ∧ keepsImage s t ∧
      outRegs s t (h * w + 2 * (hc * wc)) 0 0 ∧
      (∀ i j, i < h → j < w → outByte t (i * w + j) = BitVec.ofNat 8 (luma i j)) ∧
      (∀ i j, i < hc → j < wc → outByte t (h * w + (i * wc + j)) = BitVec.ofNat 8 (ch i j).1 ∧
        outByte t (h * w + hc * wc + (i * wc + j)) = BitVec.ofNat 8 (ch i j).2) ∧
      ∀ a, h * w + 2 * (hc * wc) ≤ a → outByte t a = Config.freeOutByte s.draws a := by
  obtain ⟨t, hexec, hcompleted, hhost, himage, hregs, hluma, hrest, hbeyond⟩ :=
    execCropToRaw_of_luma himg hregion hbytes (chromaPlanes_length hc wc ch) hfit
  refine ⟨t, hexec, hcompleted, hhost, himage, hregs, hluma, fun i j hi hj => ?_, hbeyond⟩
  have hindex : i * wc + j < hc * wc := (row_mul_add_lt_iff hj).2 hi
  constructor
  · rw [hrest _ (by omega), chromaPlanes_getD_fst ch hi hj]
  · rw [Nat.add_assoc, hrest _ (by omega), chromaPlanes_getD_snd ch hi hj]

theorem execCropToRaw_of_pairs (himg : s.img = some img) (hregion : regionOk s.regs img = true)
    (hbytes : regionBytes s img = region 0 h 0 w luma ++ chromaPairs hc wc ch)
    (hfit : h * w + 2 * (hc * wc) ≤ s.impl.outMemBytes) :
    ∃ t, exec .cropToRaw s = .next t ∧ completed s t false ∧ keepsHostSide s t ∧ keepsImage s t ∧
      outRegs s t (h * w + 2 * (hc * wc)) 0 0 ∧
      (∀ i j, i < h → j < w → outByte t (i * w + j) = BitVec.ofNat 8 (luma i j)) ∧
      (∀ i j, i < hc → j < wc → outByte t (h * w + 2 * (i * wc + j)) = BitVec.ofNat 8 (ch i j).1 ∧
        outByte t (h * w + 2 * (i * wc + j) + 1) = BitVec.ofNat 8 (ch i j).2) ∧
      ∀ a, h * w + 2 * (hc * wc) ≤ a → outByte t a = Config.freeOutByte s.draws a := by
  obtain ⟨t, hexec, hcompleted, hhost, himage, hregs, hluma, hrest, hbeyond⟩ :=
    execCropToRaw_of_luma himg hregion hbytes (chromaPairs_length hc wc ch) hfit
  refine ⟨t, hexec, hcompleted, hhost, himage, hregs, hluma, fun i j hi hj => ?_, hbeyond⟩
  have hindex : i * wc + j < hc * wc := (row_mul_add_lt_iff hj).2 hi
  constructor
  · rw [hrest _ (by omega), chromaPairs_getD_fst ch hi hj]
  · rw [Nat.add_assoc, hrest _ (by omega), chromaPairs_getD_snd ch hi hj]

end

/-- Settles O44: behind the luma stand the pairs, or the two planes, of the chroma at stride 2. -/
theorem cropYuv420Planes : Obligations.CropYuv420Planes := by
  intro s img y himg hfam h420 hregion data r0 c0 h w hc wc len hfit
  cases y with
  | packed422 o | planar422 o => cases h420
  | semi420 o =>
    obtain ⟨t, hexec, hcompleted, hhost, himage, hregs, hluma, hpairs, hbeyond⟩ :=
      execCropToRaw_of_pairs himg hregion (regionBytes_semi420 s hfam) hfit
    exact ⟨t, hexec, hcompleted, hhost, himage, hregs, hluma,
      fun i j hi hj => ⟨fun _ _ => hpairs i j hi hj, nofun⟩, hbeyond⟩
  | planar420 o =>
    obtain ⟨t, hexec, hcompleted, hhost, himage, hregs, hluma, hplanes, hbeyond⟩ :=
      execCropToRaw_of_planes himg hregion (regionBytes_planar420 s hfam) hfit
    exact ⟨t, hexec, hcompleted, hhost, himage, hregs, hluma,
      fun i j hi hj => ⟨nofun, fun _ _ => hplanes i j hi hj⟩, hbeyond⟩

/-! A packed region (43_yuv R240). -/

/-- The second luma of the pair that begins `dj` columns from the region's first pixel: 0 where it lies past the region. -/
def regionSecondLuma (s : State) (img : Image) (o : PackedOrder) (di dj : Nat) : Nat :=
  if s.regs.col0.toNat + dj + 1 < s.regs.col1.toNat then regionLuma s img (.packed422 o) di (dj + 1) else 0

/-- The chroma of the pair that begins `dj` columns from the region's first pixel. -/
def regionPairChroma (s : State) (img : Image) (o : PackedOrder) (di dj : Nat) : Nat × Nat :=
  chromaAt (.packed422 o) (imageData s img) img.h img.w (s.regs.row0.toNat + di) (s.regs.col0.toNat + dj)

/-- The four bytes of pair `j` of row `i` of the region. -/
def regionGroup (s : State) (img : Image) (o : PackedOrder) (i j : Nat) : List Nat :=
  let uv := regionPairChroma s img o i (2 * j)
  packedGroup o (regionLuma s img (.packed422 o) i (2 * j)) uv.1 (regionSecondLuma s img o i (2 * j)) uv.2

theorem regionBytes_packed422 (s : State) {img : Image} {o : PackedOrder} (hfam : img.family = .yuv (.packed422 o)) :
    let h := s.regs.row1.toNat - s.regs.row0.toNat
    let w := s.regs.col1.toNat - s.regs.col0.toNat
    regionBytes s img = (region 0 h 0 (ceilDiv w 2) (regionGroup s img o)).flatten := by
  simp only [regionBytes, cropBytes, hfam]
  rfl

theorem packedPlaces_lt (o : PackedOrder) :
    (packedPlaces o).1 < 4 ∧ (packedPlaces o).2.1 < 4 ∧ (packedPlaces o).2.2.1 < 4 ∧ (packedPlaces o).2.2.2 < 4 := by
  cases o <;> decide

theorem packedGroup_length (o : PackedOrder) (y0 u y1 v : Nat) : (packedGroup o y0 u y1 v).length = 4 := by
  cases o <;> rfl

/-- Each sample of a group stands at its place (43_yuv R229). -/
theorem packedGroup_getD (o : PackedOrder) (y0 u y1 v : Nat) :
    (packedGroup o y0 u y1 v).getD (packedPlaces o).1 0 = y0 ∧
      (packedGroup o y0 u y1 v).getD (packedPlaces o).2.1 0 = u ∧
      (packedGroup o y0 u y1 v).getD (packedPlaces o).2.2.1 0 = y1 ∧
      (packedGroup o y0 u y1 v).getD (packedPlaces o).2.2.2 0 = v := by
  cases o <;> exact ⟨rfl, rfl, rfl, rfl⟩

/-- Settles O45: a planar region is its luma and two chroma planes, a packed one the groups of its pairs. -/
theorem cropYuv422Region : Obligations.CropYuv422Region := by
  intro s img himg hregion data r0 c0 h w wc
  refine ⟨fun o hfam hfit => ?_, fun o hfam hfit => ?_⟩
  · exact execCropToRaw_of_planes himg hregion (regionBytes_planar422 s hfam) hfit
  · have hgroup (i j : Nat) : (regionGroup s img o i j).length = 4 := packedGroup_length _ _ _ _ _
    obtain ⟨t, hexec, hcompleted, hhost, himage, hregs, hwritten, hbeyond⟩ :=
      execCropToRaw_of_bytes himg hregion (regionBytes_packed422 s hfam) (flatten_region_length h wc hgroup) hfit
    refine ⟨t, hexec, hcompleted, hhost, himage, hregs, fun i j hi hj => ?_, hbeyond⟩
    have hbyte (p : Nat) (hp : p < 4) :
        outByte t ((i * wc + j) * 4 + p) = BitVec.ofNat 8 ((regionGroup s img o i j).getD p 0) :=
      (hwritten _ ((elemIndex_lt_iff hj hp).2 hi)).trans (congrArg _ (flatten_region_getD 0 hgroup hi hj hp))
    obtain ⟨hplace0, hplace1, hplace2, hplace3⟩ := packedPlaces_lt o
    obtain ⟨hy0, hu, hy1, hv⟩ := packedGroup_getD o _ _ _ _
    exact ⟨(hbyte _ hplace0).trans (congrArg _ hy0), (hbyte _ hplace1).trans (congrArg _ hu),
      (hbyte _ hplace2).trans (congrArg _ hy1), (hbyte _ hplace3).trans (congrArg _ hv)⟩

end Sys2Proof.Machine
end

section
/-! RAW_COLOR of the BAYER family (44_bayer R269): the sample of a pixel, the tint of its tile position, and the obligation
on the raw pixels made of them. -/

namespace Sys2Proof.Machine

open Sys2Proof.Claims

theorem sampleAt_imageData (s : State) {img : Image} (hl : img.l = img.h * img.w) {r c : Nat} (hr : r < img.h)
    (hc : c < img.w) : sampleAt img.w (imageData s img) r c = (compElem s (r * img.w + c)).toNat := by
  rw [sampleAt, imageData_getD, hl, if_pos ((row_mul_add_lt_iff hc).2 hr)]

/-- PAL0 to PAL3 stand row-major on the tile (44_bayer R261, R269). -/
theorem tint_tilePos (d : Descriptor) (r c : Nat) :
    d.tint (tilePos r c) = if r % 2 = 0 then (if c % 2 = 0 then d.pal0 else d.pal1)
      else (if c % 2 = 0 then d.pal2 else d.pal3) := by
  obtain hr | hr := Nat.mod_two_eq_zero_or_one r <;> obtain hc | hc := Nat.mod_two_eq_zero_or_one c <;>
    simp [tilePos, Descriptor.tint, hr, hc]

theorem rawPixel_of_bayer (s : State) {img : Image} {o : BayerOrder} (hfam : img.family = .bayer o)
    (hpal : img.desc.palEn = true) : rawPixel s img = some (bayerRawPixel img (imageData s img)) := by
  simp [rawPixel, hfam, hpal]

/-- Settles O40: a raw pixel is its truncated sample times the tint of its tile position, as `bayerRawPixel` has it. -/
theorem rawColorBayerTints : Obligations.RawColorBayerTints := by
  intro s img o himg hfam hpal hok hfit d
  refine execRawColor_of_rawPixel himg (rawPixel_of_bayer s hfam hpal) hfit fun _ r c _ hr hc => ?_
  have hsample := sampleAt_imageData s (imageOk_l_of_single hok (.inr ⟨o, hfam⟩)) hr hc
  rw [bayerRawPixel, hsample, tint_tilePos]
  rfl

end Sys2Proof.Machine
end

section
/-! RENDER of the GRAY family (45_gray R291): the sample of a frame's pixel, its three equal channels, and the obligation
on them. -/

namespace Sys2Proof.Machine

open Sys2Proof.Claims

/-- A sample of frame `k` is the image's sample, or the 0 of a padding row (40_commands R127). -/
theorem sampleAt_frameData_plainFrames (s : State) {img : Image} {f k r c : Nat} (hl : img.l = img.h * img.w)
    (hr : r < frameRowsOf img f) (hc : c < img.w) :
    sampleAt img.w (frameData (imageData s img) (plainFrames img 1 f) k) r c =
      elemOf s img 1 (frameRowsOf img f) k r c 0 := by
  have hl1 : img.l = img.h * img.w * 1 := by rw [hl, Nat.mul_one]
  rw [← frameData_plainFrames_getD s hl1 hr hc Nat.one_pos, Nat.mul_one, Nat.add_zero, sampleAt]

theorem grayPixel_channels (d : Descriptor) (w : Nat) (fb : List Nat) (r c : Nat) :
    (grayPixel d w fb r c).channels =
      let g := sampleAt w fb r c * 255 / (2 ^ d.bpc0 - 1)
      (g, g, g, 255) := rfl

/-- Settles O29: the frames are the plain ones of one element a pixel, and each pixel is R291's of its sample. -/
theorem renderGrayTruncates : Obligations.RenderGrayTruncates := by
  intro s img himg hfam hok f rows hfit
  have hframes : renderFrames img s.regs.maskBit f = .ok (plainFrames img 1 f) := by simp only [renderFrames, hfam]
  have hrows : (plainFrames img 1 f).rows = rows := plainFrames_rows img 1 f
  rw [← plainFrames_count img 1, ← hrows] at hfit ⊢
  refine execRender_of_frames himg hframes hfit fun k r c _ hr hc => ?_
  rw [hrows] at hr ⊢
  simp only [framePixel, hfam, grayPixel_channels,
    sampleAt_frameData_plainFrames s (imageOk_l_of_single hok (.inl hfam)) hr hc]
  rfl

end Sys2Proof.Machine
end

section
/-! Fault entry (60_exceptions R303): the one way a command ends with ERR set, and the obligation on what it leaves. -/

namespace Sys2Proof.Machine

open Sys2Proof.Claims

theorem FaultCode.code_toNat_bounds (c : FaultCode) : 1 ≤ c.code.toNat ∧ c.code.toNat ≤ 7 := by
  cases c <;> decide

/-- A commit does not write ERR (40_commands R120), so a completion that raises it is fault entry. -/
theorem complete_eq_faultEntry_of_err {s : State} {r : Except FaultCode Effects} (hclear : s.status.err = false)
    (hset : (complete s r).status.err = true) : ∃ c, complete s r = faultEntry s c := by
  cases r with
  | ok e =>
    rw [complete_ok, commit_status, Status.onSuccess_err, hclear] at hset
    contradiction
  | error c => exact ⟨c, complete_error s c⟩

/-- Settles O17: every command completes, and a completion that raises ERR is fault entry with one of the seven codes. -/
theorem faultChangesOnlyStatus : Obligations.FaultChangesOnlyStatus := by
  intro i s t hexec hclear hset
  obtain rfl := (exec_next_iff i s t).1 hexec
  obtain ⟨c, hfault⟩ := complete_eq_faultEntry_of_err hclear hset
  rw [hfault, faultEntry_status, Status.onFault_errcode]
  exact ⟨faultEntry_eq_faulted s c, c.code_toNat_bounds⟩

end Sys2Proof.Machine
end

section
/-! The register reads of 70_reset: what they return once the engine is reset (R330, R332) and while it is busy (R342), and
the obligations on the two resets and on busy reads. -/

namespace Sys2Proof.Machine

/-! Reset values (70_reset R330). -/

theorem statusWord_of_reset {t : State} (hstatus : t.status = .reset) (hpending : t.pending = none)
    (himg : t.img = none) : statusWord t = 0 := by
  have hbusy : t.busy = false := by rw [State.busy, hpending, Option.isSome_none]
  have hvalid : t.imgValid = false := by rw [State.imgValid, himg, Option.isSome_none]
  rw [statusWord, hstatus, hbusy, hvalid]
  rfl

/-- What every register reads as where the stored fields are reset; hardware and soft reset share these fields. -/
theorem readReg_of_reset {t : State} (hregs : t.regs = .reset) (hstatus : t.status = .reset)
    (hresults : t.results = .reset) (hpending : t.pending = none) (himg : t.img = none) (r : Reg) :
    readReg t r = if r = .sub then 0x00000101 else if r = .chMask then 0x0000000F else 0 := by
  cases r
  case ctrl | command => rfl
  case status => exact statusWord_of_reset hstatus hpending himg
  case imgWidth | imgHeight | imgLen | imgFamily => rw [readReg, himg]; rfl
  case outLen | frameCount | frameRows | pixCount | pixVal0 | pixVal1 | pixVal2 | pixVal3 =>
    rw [readReg, hresults]; rfl
  all_goals rw [readReg, hregs]; rfl

/-- Settles O5: `State.reset` stores the reset values, and no cell of its memories is written. -/
theorem resetLeavesResetValues : Obligations.ResetLeavesResetValues :=
  ⟨readReg_of_reset rfl rfl rfl rfl rfl, rfl, rfl, rfl, fun _ => rfl, fun _ => rfl, fun _ => rfl⟩

/-! The CTRL write (70_reset R332). -/

theorem writeReg_ctrl_set (s : State) {v : Word} (hset : v.getLsbD 0 = true) : writeReg s .ctrl v = softReset s :=
  if_pos hset

theorem writeReg_ctrl_clear (s : State) {v : Word} (hclear : v.getLsbD 0 = false) : writeReg s .ctrl v = s :=
  if_neg (by rw [hclear]; exact Bool.false_ne_true)

/-- Settles O54: whatever BUSY is, the write is `softReset` or nothing, as bit 0 says. -/
theorem softResetKeepsMemories : Obligations.SoftResetKeepsMemories := by
  intro s v
  have hwrite : memWrite s 0x000 4 v = .ok (writeReg s .ctrl v) := memWrite_reg s .ctrl v
  refine ⟨fun hset => ?_, fun hclear => ?_⟩
  · rw [writeReg_ctrl_set s hset] at hwrite
    exact ⟨softReset s, hwrite, rfl, rfl, readReg_of_reset rfl rfl rfl rfl rfl, rfl, rfl, rfl, rfl⟩
  · rw [hwrite, writeReg_ctrl_clear s hclear]

/-! Reads of the windows (20_memory R61–R67, 70_reset R342). -/

/-- Four bytes on the little-endian bus, as a number (20_memory R67). -/
theorem busWord_eq_ofNat (b0 b1 b2 b3 : Byte) :
    busWord b0 b1 b2 b3 =
      BitVec.ofNat 32 (b0.toNat + b1.toNat * 2 ^ 8 + b2.toNat * 2 ^ 16 + b3.toNat * 2 ^ 24) := by
  have hsum : (busWord b0 b1 b2 b3).toNat =
      b0.toNat + b1.toNat * 2 ^ 8 + b2.toNat * 2 ^ 16 + b3.toNat * 2 ^ 24 := by
    simp only [busWord, toNat_append_eq_add]
    omega
  rw [← hsum, BitVec.ofNat_toNat, BitVec.setWidth_eq]

theorem regionOf_inWindow {i : Nat} (hi : i < 2 ^ 28) : regionOf (0x10000000 + i) = 1 := by
  unfold regionOf
  omega

theorem offsetIn_inWindow {i : Nat} (hi : i < 2 ^ 28) : offsetIn (0x10000000 + i) = i := by
  unfold offsetIn
  omega

theorem refusal_inWindow (s : State) {i n : Nat} (hi : i < 2 ^ 28) (hwidth : n = 1 ∨ n = 4)
    (halign : n = 4 → i % 4 = 0) (hfits : i + n ≤ s.impl.inMemBytes) : refusal s (0x10000000 + i) n = none := by
  have hlisted : n ∈ [1, 4] := by simpa using hwidth
  have haligned : ¬(n = 4 ∧ i % 4 ≠ 0) := fun ⟨hfour, hunaligned⟩ => hunaligned (halign hfour)
  simp only [refusal, refusalIn, regionOf_inWindow hi, offsetIn_inWindow hi, hlisted, haligned, hfits.not_gt,
    not_true_eq_false, if_false]

/-- IN is read as usual, busy or idle. -/
theorem memRead_inWindow (s : State) {i n : Nat} (hi : i < 2 ^ 28) (hwidth : n = 1 ∨ n = 4)
    (halign : n = 4 → i % 4 = 0) (hfits : i + n ≤ s.impl.inMemBytes) :
    memRead s (0x10000000 + i) n = .ok (busRead (inByte s) i n, s) := by
  simp [memRead, refusal_inWindow s hi hwidth halign hfits, readsResult, readValue, regionOf_inWindow hi,
    offsetIn_inWindow hi]

/-- A busy read of a result is a draw (93 U4). -/
theorem memRead_busy_of_readsResult {s : State} {off n : Nat} (hbusy : s.busy = true)
    (hresult : readsResult off = true) (hmapped : refusal s off n = none) :
    memRead s off n = .ok (freeRead s n, { s with draws := s.draws + 1 }) := by
  simp only [memRead, hmapped, hbusy, hresult, Bool.and_self, if_true]

/-- The OUT and COMP windows are regions 2 and 3. -/
theorem readsResult_of_outOrCompWindow {off : Nat} (hlow : 0x20000000 ≤ off) (hhigh : off < 0x40000000) :
    readsResult off = true := by
  have hregion : regionOf off = 2 ∨ regionOf off = 3 := by
    unfold regionOf
    omega
  obtain h | h := hregion <;> simp only [readsResult, h]

/-- Settles O56: idle, a register read is `readReg`; busy, the results and the OUT and COMP windows draw, the rest reads as
usual. -/
theorem busyReadsDrawResults : Obligations.BusyReadsDrawResults := by
  intro s
  refine ⟨fun hidle r => ?_, fun hbusy => ⟨fun r hr => memRead_reg_of_not_isResult s hr, fun r hr => ?_,
    fun i hi hfits => ?_, fun i halign hi hfits => ?_, fun off n hlow hhigh hmapped => ?_⟩⟩
  · rw [memRead_reg, hidle, Bool.false_and, if_neg Bool.false_ne_true]
  · rw [memRead_reg, hbusy, hr, Bool.and_self, if_pos rfl]
    rfl
  · exact memRead_inWindow s hi (.inl rfl) nofun hfits
  · rw [memRead_inWindow s hi (.inr rfl) (fun _ => halign) hfits, ← busWord_eq_ofNat]
    rfl
  · exact memRead_busy_of_readsResult hbusy (readsResult_of_outOrCompWindow hlow hhigh) hmapped

end Sys2Proof.Machine
end

section
/-! What the four reading commands do not read (70_reset R340): the descriptor, DECODE's operands and IN; and the obligation
on them and on a DECODE that faults. -/

namespace Sys2Proof.Machine

open Sys2Proof.Claims

/-- The state with other operand registers and another IN. -/
def State.withInputs (s : State) (g : Regs) (m : Memory 8) : State := { s with regs := g, inMem := m }

/-- The operands of the four reading commands (10_state R36–R39) are the same in both. -/
structure SameReaderOperands (g g' : Regs) : Prop where
  chMask : g.chMask = g'.chMask
  frameHeight : g.frameHeight = g'.frameHeight
  row0 : g.row0 = g'.row0
  row1 : g.row1 = g'.row1
  col0 : g.col0 = g'.col0
  col1 : g.col1 = g'.col1
  pixRow : g.pixRow = g'.pixRow
  pixCol : g.pixCol = g'.pixCol

/-- A completion writes neither the operand registers nor IN, so it commutes with replacing them. -/
theorem complete_withInputs (s : State) (g : Regs) (m : Memory 8) (r : Except FaultCode Effects) :
    complete (s.withInputs g m) r = (complete s r).withInputs g m := by
  cases r <;> rfl

/-! Each reading command evaluates to the same effects or fault: the image's elements are COMP's, which stays. -/

section
variable {s : State} {g : Regs} (m : Memory 8) (hsame : SameReaderOperands g s.regs)
include hsame

theorem renderEffects_withInputs : renderEffects (s.withInputs g m) = renderEffects s := by
  have hmask : g.maskBit = s.regs.maskBit := by unfold Regs.maskBit; rw [hsame.chMask]
  have hbytes (img : Image) (fr : Frames) : renderBytes (s.withInputs g m) img fr = renderBytes s img fr := by
    unfold renderBytes
    rw [← hmask]
    rfl
  unfold renderEffects
  simp only [hbytes]
  rw [← hmask, ← hsame.frameHeight]
  rfl

theorem cropEffects_withInputs : cropEffects (s.withInputs g m) = cropEffects s := by
  have hbytes (img : Image) : regionBytes (s.withInputs g m) img = regionBytes s img := by
    unfold regionBytes
    rw [← hsame.row0, ← hsame.row1, ← hsame.col0, ← hsame.col1]
    rfl
  have hregion : regionOk g = regionOk s.regs := by
    unfold regionOk
    rw [hsame.row0, hsame.row1, hsame.col0, hsame.col1]
  unfold cropEffects
  simp only [hbytes]
  rw [← hregion]
  rfl

theorem pixelEffects_withInputs : pixelEffects (s.withInputs g m) = pixelEffects s := by
  unfold pixelEffects
  rw [← hsame.pixRow, ← hsame.pixCol]
  rfl

theorem commandResult_withInputs {i : Instr} (hreads : readsImage i = true) :
    commandResult i (s.withInputs g m) = commandResult i s := by
  cases i with
  | decode => simp [readsImage] at hreads
  | render => exact renderEffects_withInputs m hsame
  | rawColor => rfl
  | cropToRaw => exact cropEffects_withInputs m hsame
  | pixelComponents => exact pixelEffects_withInputs m hsame

end

/-- Settles O50: a reading command evaluates to the same result whatever the replaced registers and IN hold, and a DECODE
that raises ERR is fault entry, which writes neither the image nor COMP. -/
theorem readersUseLatchedImageOnly : Obligations.ReadersUseLatchedImageOnly := by
  refine ⟨fun i s t g m hreads hmask hframe hrow0 hrow1 hcol0 hcol1 hpixRow hpixCol hexec => ?_,
    fun s t hexec hclear hset => ?_⟩
  · have hsame : SameReaderOperands g s.regs := ⟨hmask, hframe, hrow0, hrow1, hcol0, hcol1, hpixRow, hpixCol⟩
    obtain rfl := (exec_next_iff i s t).1 hexec
    apply (exec_next_iff i _ _).2
    calc (complete s (commandResult i s)).withInputs g m
      _ = complete (s.withInputs g m) (commandResult i s) := (complete_withInputs s g m _).symm
      _ = complete (s.withInputs g m) (commandResult i (s.withInputs g m)) := by
          rw [commandResult_withInputs m hsame hreads]
  · obtain rfl := (exec_next_iff .decode s t).1 hexec
    obtain ⟨c, hfault⟩ := complete_eq_faultEntry_of_err hclear hset
    rw [hfault]
    exact ⟨faultEntry_img s c, faultEntry_comp s c⟩

end Sys2Proof.Machine
end

section
/-! Every step as one move of the engine or the host (70_reset R350–R352), and the obligations on the invariants that each
move keeps. -/

namespace Sys2Proof.Machine

/-- What a step can do to a state: nothing, complete the pending word, or one host action, whose effects `hostAct_cases` and
`writeValue_cases` list. -/
inductive Move (s : State) : State → Prop
  | stay : Move s s
  | complete (i : Instr) (hbusy : s.busy = true) : Move s (complete s (commandResult i s))
  | illegal (hbusy : s.busy = true) : Move s (faultEntry s .illegalCommand)
  | answer (v : Word) (d : Nat) : Move s { hostMoves s with reads := v :: s.reads, draws := d }
  | ignored : Move s (hostMoves s)
  | softReset : Move s (softReset (hostMoves s))
  | hardwareReset : Move s (hardwareReset (hostMoves s))
  | clearStatus (v : Word) : Move s (clearStatus (hostMoves s) v)
  | turnAway (hbusy : s.busy = true) : Move s (turnAway (hostMoves s))
  | accept (w : Word) : Move s (accept (hostMoves s) w)
  | store (hidle : s.busy = false) (r : Reg) (v : Word) :
    Move s { hostMoves s with regs := s.regs.store r v }
  | writeIn (hidle : s.busy = false) (m : Memory 8)
    (hwf : s.inMem.wf s.impl.inMemBytes = true → m.wf s.impl.inMemBytes = true) : Move s { hostMoves s with inMem := m }

theorem busy_of_pending {s : State} {w : Word} (h : s.pending = some w) : s.busy = true := by
  rw [State.busy, h, Option.isSome_some]

/-- A write of bytes that lie in IN replaces IN by a memory that is canonical where IN was. -/
theorem move_writeInBytes {s : State} {i : Nat} {bs : List Byte} (hidle : s.busy = false)
    (hfits : i + bs.length ≤ s.impl.inMemBytes) : Move s (writeInBytes (hostMoves s) i bs) := by
  obtain ⟨m, hwrite, -⟩ := writeInBytes_eq (hostMoves s) i bs
  have hwf := fun h => writeInBytes_wf (hostMoves s) i bs s.impl.inMemBytes h hfits
  rw [hwrite] at hwf ⊢
  exact .writeIn hidle m hwf

theorem move_of_hostAct {s t : State} {a : HostAct} (h : hostAct s a = .ok t) : Move s t := by
  obtain ⟨v, d, rfl⟩ | ⟨off, n, v, hmapped, rfl⟩ | ⟨rfl, -⟩ | rfl := hostAct_cases h
  · exact .answer v d
  · obtain h | h | h | ⟨hbusy, h⟩ | ⟨-, h⟩ | ⟨hidle, r, h⟩ | ⟨hidle, hfits, h⟩ := writeValue_cases v hmapped <;> rw [h]
    · exact .ignored
    · exact .softReset
    · exact .clearStatus v
    · exact .turnAway hbusy
    · exact .accept v
    · exact .store (s := s) hidle r v
    · exact move_writeInBytes (s := s) hidle hfits
  · exact .stay
  · exact .hardwareReset

/-- Every step is a move. -/
theorem move_of_step {s t : State} (h : step s = .next t) : Move s t := by
  obtain ⟨w, hpending, -, ⟨i, -, rfl⟩ | ⟨-, rfl⟩⟩ | ⟨-, ⟨-, rfl⟩ | ⟨a, rest, -, hact⟩⟩ := step_cases h
  · exact .complete i (busy_of_pending hpending)
  · exact .illegal (busy_of_pending hpending)
  · exact .stay
  · exact move_of_hostAct hact

/-! The memories (10_state R40–R42). -/

theorem cellsFrom_wf {w : Nat} (vs : List (BitVec w)) {size : Nat} (epoch : Nat) (h : vs.length ≤ size) :
    (Memory.mk (cellsFrom 0 vs) epoch).wf size = true :=
  risingBelow_cellsFrom vs 0 (Nat.le_refl 0) (by omega)

/-- A completion writes COMP and OUT as whole arrays that fit them. -/
theorem complete_keeps_memInv {s : State} (i : Instr) (h : memInv s) : memInv (complete s (commandResult i s)) := by
  cases hr : commandResult i s with
  | error c => exact h
  | ok e =>
    obtain ⟨hin, hcomp, hout⟩ := h
    obtain ⟨hdecoded, hbytes⟩ := commandResult_ok hr
    refine ⟨hin, ?_, ?_⟩
    · rw [complete_ok, commit_comp, commit_impl]
      cases hd : e.decoded with
      | none => exact hcomp
      | some p =>
        obtain ⟨-, -, -, fam, hcheck, himg, helems, hfits⟩ := hdecoded p.1 p.2 hd
        obtain ⟨-, -, hwidth, -⟩ := decodeCheck_ok hcheck
        refine cellsFrom_wf p.2 _ ?_
        rwa [helems, List.length_map, decodedComp_length s fam hwidth, ← himg]
    · rw [complete_ok, commit_out, commit_impl]
      cases hb : e.outBytes with
      | none => exact hout
      | some bytes => exact cellsFrom_wf bytes _ (hbytes bytes hb).1

/-- Settles O7: only completions, host writes to IN and the hardware reset write cells, each inside the memory. -/
theorem stepKeepsMemoriesCanonical : Obligations.StepKeepsMemoriesCanonical := by
  intro s t hinv hstep
  cases move_of_step hstep with
  | complete i _ => exact complete_keeps_memInv i hinv
  | hardwareReset => exact ⟨rfl, rfl, rfl⟩
  | writeIn _ m hwf =>
    obtain ⟨hin, hcomp, hout⟩ := hinv
    exact ⟨hwf hin, hcomp, hout⟩
  | stay | illegal | answer | ignored | softReset | clearStatus | turnAway | accept | store => exact hinv

/-! STATUS (60_exceptions R316). -/

theorem FaultCode.code_ne_zero (c : FaultCode) : c.code ≠ 0 := by cases c <;> decide

theorem onFault_consistent {f : Status} (c : FaultCode) (hdone : f.done = false) :
    ((f.onFault c).err = false ↔ (f.onFault c).errcode = 0) ∧ (f.onFault c).errcode.toNat ≤ 7 ∧
      ¬((f.onFault c).done = true ∧ (f.onFault c).err = true) := by
  have hcode : c.code ≠ 0#4 := c.code_ne_zero
  simp [hdone, hcode, c.code_toNat_bounds]

theorem faultEntry_keeps_statusInv {s : State} (c : FaultCode) (hinv : statusInv s) (hbusy : s.busy = true) :
    statusInv (faultEntry s c) := by
  obtain ⟨-, -, hclear, -⟩ := hinv
  obtain ⟨hiff, hbound, hnever⟩ := onFault_consistent c (hclear hbusy).1
  exact ⟨hiff, hbound, nofun, hnever⟩

theorem complete_keeps_statusInv {s : State} (r : Except FaultCode Effects) (hinv : statusInv s)
    (hbusy : s.busy = true) : statusInv (complete s r) := by
  cases r with
  | error c => exact faultEntry_keeps_statusInv c hinv hbusy
  | ok e =>
    obtain ⟨hiff, hbound, hclear, -⟩ := hinv
    refine ⟨hiff, hbound, nofun, fun ⟨_, herr⟩ => ?_⟩
    rw [complete_ok, commit_status, Status.onSuccess_err, (hclear hbusy).2] at herr
    contradiction

theorem clearStatus_keeps_statusInv {s : State} (v : Word) (hinv : statusInv s) : statusInv (clearStatus s v) := by
  obtain ⟨hiff, hbound, hclear, hnever⟩ := hinv
  refine ⟨?_, ?_, fun hbusy => ?_, fun ⟨hdone, herr⟩ => hnever ⟨?_, ?_⟩⟩
  · rw [clearStatus_status, Status.writeOneToClear_err, Status.writeOneToClear_errcode]
    cases v.getLsbD 2 <;> simp [hiff]
  · rw [clearStatus_status, Status.writeOneToClear_errcode]
    cases v.getLsbD 2 <;> simp [hbound]
  · simp [hclear hbusy]
  · exact (Bool.and_eq_true_iff.1 hdone).1
  · exact (Bool.and_eq_true_iff.1 herr).1

/-- Settles O9: a completion finds DONE and ERR clear and sets one of them; an acceptance and the resets clear both. -/
theorem stepKeepsStatusConsistent : Obligations.StepKeepsStatusConsistent := by
  intro s t hinv hstep
  cases move_of_step hstep with
  | complete i hbusy => exact complete_keeps_statusInv _ hinv hbusy
  | illegal hbusy => exact faultEntry_keeps_statusInv _ hinv hbusy
  | clearStatus v => exact clearStatus_keeps_statusInv (s := hostMoves s) v hinv
  | softReset | hardwareReset | accept => simp [statusInv, Status.reset]
  | stay | answer | ignored | turnAway | store | writeIn => exact hinv

/-! The latched image (10_state R45). -/

theorem complete_keeps_imageInv {s : State} (i : Instr) (hinv : imageInv s) :
    imageInv (complete s (commandResult i s)) := by
  cases hr : commandResult i s with
  | error c => exact hinv
  | ok e =>
    obtain ⟨hdecoded, -⟩ := commandResult_ok hr
    cases hd : e.decoded with
    | none =>
      unfold imageInv
      rw [complete_ok, commit_img, commit_comp, hd]
      exact hinv
    | some p =>
      obtain ⟨-, -, -, fam, hcheck, himg, helems, hfits⟩ := hdecoded p.1 p.2 hd
      intro img hlatched
      rw [complete_ok, commit_img, hd] at hlatched
      cases hlatched
      rw [complete_ok, commit_comp, commit_impl, hd]
      refine ⟨himg ▸ decodedImage_ok hcheck, hfits, fun k hk => ?_⟩
      simp only [helems]
      rw [himg] at hk ⊢
      exact decodedCells_fit hcheck k hk

/-- Settles O10: only a completion and the resets change the image or COMP, and a DECODE's elements fit its image. -/
theorem stepKeepsImageInvariant : Obligations.StepKeepsImageInvariant := by
  intro s t hinv hstep
  cases move_of_step hstep with
  | complete i _ => exact complete_keeps_imageInv i hinv
  | softReset | hardwareReset => exact nofun
  | stay | illegal | answer | ignored | clearStatus | turnAway | accept | store | writeIn => exact hinv

/-! The reserved bits (10_state R22). -/

theorem and_mask_and_eq_zero (v : Word) {mask reserved : Word} (h : mask &&& reserved = 0) :
    v &&& mask &&& reserved = 0 := by
  rw [BitVec.and_assoc, h]
  exact BitVec.and_zero

/-- A store writes the bits of its register's fields, and none of the reserved ones. -/
theorem store_keeps_regInv {g : Regs} (r : Reg) (v : Word) (hinv : regInv g) : regInv (g.store r v) := by
  obtain ⟨hfmt, hbpc, hsub, ⟨hpal0, hpal1, hpal2, hpal3⟩, hdecOpts, hchMask⟩ := hinv
  have hstored (mask reserved : Word) (h : mask &&& reserved = 0) : v &&& mask &&& reserved = 0 :=
    and_mask_and_eq_zero v h
  cases r
  case fmt => exact ⟨hstored _ _ (by decide), hbpc, hsub, ⟨hpal0, hpal1, hpal2, hpal3⟩, hdecOpts, hchMask⟩
  case bpc => exact ⟨hfmt, hstored _ _ (by decide), hsub, ⟨hpal0, hpal1, hpal2, hpal3⟩, hdecOpts, hchMask⟩
  case sub => exact ⟨hfmt, hbpc, hstored _ _ (by decide), ⟨hpal0, hpal1, hpal2, hpal3⟩, hdecOpts, hchMask⟩
  case pal0 => exact ⟨hfmt, hbpc, hsub, ⟨hstored _ _ (by decide), hpal1, hpal2, hpal3⟩, hdecOpts, hchMask⟩
  case pal1 => exact ⟨hfmt, hbpc, hsub, ⟨hpal0, hstored _ _ (by decide), hpal2, hpal3⟩, hdecOpts, hchMask⟩
  case pal2 => exact ⟨hfmt, hbpc, hsub, ⟨hpal0, hpal1, hstored _ _ (by decide), hpal3⟩, hdecOpts, hchMask⟩
  case pal3 => exact ⟨hfmt, hbpc, hsub, ⟨hpal0, hpal1, hpal2, hstored _ _ (by decide)⟩, hdecOpts, hchMask⟩
  case decOpts => exact ⟨hfmt, hbpc, hsub, ⟨hpal0, hpal1, hpal2, hpal3⟩, hstored _ _ (by decide), hchMask⟩
  case chMask => exact ⟨hfmt, hbpc, hsub, ⟨hpal0, hpal1, hpal2, hpal3⟩, hdecOpts, hstored _ _ (by decide)⟩
  all_goals exact ⟨hfmt, hbpc, hsub, ⟨hpal0, hpal1, hpal2, hpal3⟩, hdecOpts, hchMask⟩

theorem regInv_reset : regInv Regs.reset := by decide

/-- Settles O8: only a host's store and the resets write the operand registers. -/
theorem stepKeepsReservedBitsZero : Obligations.StepKeepsReservedBitsZero := by
  intro s t hinv hstep
  cases move_of_step hstep with
  | complete i _ => rwa [complete_regs]
  | softReset | hardwareReset => exact regInv_reset
  | store _ r v => exact store_keeps_regInv r v hinv
  | stay | illegal | answer | ignored | clearStatus | turnAway | accept | writeIn => exact hinv

/-- Settles O6: nothing is written and nothing is latched after reset. -/
theorem resetMeetsInvariants : Obligations.ResetMeetsInvariants :=
  ⟨⟨rfl, rfl, rfl⟩, regInv_reset, by decide, nofun, by decide⟩

end Sys2Proof.Machine
end

section
/-! The life cycle of a command and the turns of engine and host (40_commands R120, R121, 70_reset R350–R352), and the
obligations on them. -/

namespace Sys2Proof.Machine

open Sys2Proof.Claims

/-! The engine's turn. -/

theorem step_of_fetch {s : State} {w : Word} {i : Instr} (hfetch : fetch s = some w) (hdecode : decode w = some i) :
    step s = exec i s := by
  simp only [step, hfetch, hdecode]

/-- At the engine's turn the step completes the pending word, whichever it is. -/
theorem step_of_engineTurn {s : State} {w : Word} (hpending : s.pending = some w) (hturn : engineTurn s = true) :
    ∃ r, step s = .next (complete s r) := by
  cases hdecode : decode w with
  | none => exact ⟨.error .illegalCommand, step_eq_faultEntry_of_decode_eq_none hpending hturn hdecode⟩
  | some i =>
    refine ⟨commandResult i s, ?_⟩
    rw [step_of_fetch (fetch_eq_some.2 ⟨hpending, hturn⟩) hdecode, exec_eq]

/-- Settles O11: the fetched word is the pending one, and `withFetchWord` places a word whose turn it is. -/
theorem stepRunsDecodedCommand : Obligations.StepRunsDecodedCommand := by
  refine ⟨fun s w i hpending hturn hdecode => step_of_fetch (fetch_eq_some.2 ⟨hpending, hturn⟩) hdecode,
    fun s w i htable => step_of_fetch (fetch_placeCommand s _) ?_⟩
  unfold decodeTableWord at htable
  split at htable
  · exact htable
  · cases htable

/-- Settles O1, by evaluating the decoder on each word. -/
theorem opcodeTableWordsDecode : Obligations.OpcodeTableWordsDecode := by
  unfold Obligations.OpcodeTableWordsDecode
  decide

/-- A completion from clear flags sets exactly one of DONE and ERR (60_exceptions R316). -/
theorem complete_sets_done_or_err {s : State} (r : Except FaultCode Effects) (hdone : s.status.done = false)
    (herr : s.status.err = false) (hcode : s.status.errcode = 0) :
    ((complete s r).status.done = true ∧ (complete s r).status.err = false ∧ (complete s r).status.errcode = 0) ∨
      ((complete s r).status.done = false ∧ (complete s r).status.err = true ∧ (complete s r).status.errcode ≠ 0) := by
  cases r with
  | ok e => exact .inl ⟨rfl, herr, hcode⟩
  | error c => exact .inr ⟨hdone, rfl, c.code_ne_zero⟩

theorem pending_of_busy {s : State} (h : s.busy = true) : ∃ w, s.pending = some w := Option.isSome_iff_exists.1 h

/-- Settles O16: while busy the flags are clear, and the step is a completion. -/
theorem completionSetsDoneOrErr : Obligations.CompletionSetsDoneOrErr := by
  intro s hinv hbusy hturn
  obtain ⟨w, hpending⟩ := pending_of_busy hbusy
  obtain ⟨hiff, -, hclear, -⟩ := hinv
  obtain ⟨hdone, herr⟩ := hclear hbusy
  obtain ⟨r, hstep⟩ := step_of_engineTurn hpending hturn
  refine ⟨complete s r, hstep, ?_, complete_sets_done_or_err r hdone herr (hiff.1 herr)⟩
  rw [State.busy, complete_pending, Option.isSome_none]

/-! The host's turn. -/

theorem fetch_eq_none_of_host {s : State} (h : s.pending = none ∨ engineTurn s = false) : fetch s = none := by
  rw [Option.eq_none_iff_forall_ne_some]
  intro w hw
  obtain ⟨hpending, hturn⟩ := fetch_eq_some.1 hw
  obtain hnone | hfalse := h
  · simp [hnone] at hpending
  · simp [hfalse] at hturn

theorem step_of_host {s : State} (h : s.pending = none ∨ engineTurn s = false) : step s = hostStep s := by
  simp only [step, fetch_eq_none_of_host h]

theorem hostStep_of_ok {s t : State} {a : HostAct} {rest : List HostAct} (hhost : s.host = a :: rest)
    (hact : hostAct s a = .ok t) : hostStep s = .next t := by
  simp only [hostStep, hhost, hact]

theorem hostStep_of_error {s : State} {a : HostAct} {rest : List HostAct} {r : Refusal} (hhost : s.host = a :: rest)
    (hact : hostAct s a = .error r) : hostStep s = .refused r := by
  simp only [hostStep, hhost, hact]

/-- Settles O13: `step` is then `hostStep`, which takes the first action. -/
theorem otherwiseTheHostMoves : Obligations.OtherwiseTheHostMoves := by
  intro s hturn
  rw [step_of_host hturn]
  refine ⟨fun hempty => ?_, fun a rest hhost => ⟨fun t hact => hostStep_of_ok hhost hact,
    fun r hact => hostStep_of_error hhost hact⟩⟩
  simp only [hostStep, hempty]

/-- Settles O60: the action is `hardwareReset`, and its memories have no written cell. -/
theorem hardwareResetDrawsMemories : Obligations.HardwareResetDrawsMemories := by
  intro s
  exact ⟨hardwareReset (hostMoves s), rfl, rfl, rfl, readReg_of_reset rfl rfl rfl rfl rfl, fun _ => rfl, fun _ => rfl,
    fun _ => rfl, rfl, rfl⟩

/-! What one host access does. -/

theorem hostAct_read_ok {s t : State} {addr n : Nat} (h : hostAct s (.read addr n) = .ok t) :
    ∃ v d, t = { hostMoves s with reads := v :: s.reads, draws := d } := by
  simp only [hostAct] at h
  split at h
  · cases h
  · split at h
    case h_1 => cases h
    case h_2 v s' hread =>
      cases h
      unfold memRead at hread
      split at hread
      · cases hread
      · split at hread <;> cases hread
        · exact ⟨_, _, rfl⟩
        · exact ⟨_, s.draws, rfl⟩

theorem hostAct_write_ok {s t : State} {addr n : Nat} {v : Word} (h : hostAct s (.write addr n v) = .ok t) :
    ∃ off, addr = s.impl.base + off ∧ refusal (hostMoves s) off n = none ∧ t = writeValue (hostMoves s) off n v := by
  simp only [hostAct, apertureOffset] at h
  split at h
  · cases h
  case h_2 off haperture =>
    split at haperture
    · cases haperture
      unfold memWrite at h
      split at h
      · cases h
      · cases h
        exact ⟨addr - s.impl.base, by omega, by assumption, rfl⟩
    · cases haperture

theorem hostAct_wait_ok {s t : State} (h : hostAct s .wait = .ok t) :
    (s.busy = true ∧ t = s) ∨ (s.busy = false ∧ t = returnValue (hostMoves s) (statusWord s)) := by
  simp only [hostAct] at h
  split at h
  · cases h
    exact .inl ⟨by assumption, rfl⟩
  · cases h
    exact .inr ⟨by simpa using ‹¬s.busy = true›, rfl⟩

/-! Progress (70_reset R351). -/

/-- A write while busy either resets, or leaves PENDING, the countdown and the host's queue. -/
theorem writeValue_busy {s : State} {off n : Nat} (v : Word) (hmapped : refusal s off n = none) (hbusy : s.busy = true) :
    (writeValue s off n v).pending = none ∨
      ((writeValue s off n v).pending = s.pending ∧ (writeValue s off n v).latency = s.latency ∧
        (writeValue s off n v).host = s.host) := by
  obtain h | h | h | ⟨-, h⟩ | ⟨hidle, -⟩ | ⟨hidle, -⟩ | ⟨hidle, -⟩ := writeValue_cases v hmapped
  · rw [h]; exact .inr ⟨rfl, rfl, rfl⟩
  · rw [h]; exact .inl rfl
  · rw [h]; exact .inr ⟨rfl, rfl, rfl⟩
  · rw [h]; exact .inr ⟨rfl, rfl, rfl⟩
  all_goals simp [hidle] at hbusy

/-- While busy every host action but WAIT either resets or brings the completion one host step nearer. -/
theorem hostAct_busy {s t : State} {a : HostAct} (hact : hostAct s a = .ok t) (hwait : a ≠ .wait) (hbusy : s.busy = true) :
    t.pending = none ∨ (t.pending = s.pending ∧ t.latency = s.latency - 1 ∧ t.host = s.host.tail) := by
  cases a with
  | read addr n =>
    obtain ⟨v, d, rfl⟩ := hostAct_read_ok hact
    exact .inr ⟨rfl, rfl, rfl⟩
  | write addr n v =>
    obtain ⟨off, -, hmapped, rfl⟩ := hostAct_write_ok hact
    exact writeValue_busy (s := hostMoves s) v hmapped hbusy
  | wait => contradiction
  | hardwareReset =>
    cases hact
    exact .inl rfl

theorem run_succ_of_step {s t : State} (h : step s = .next t) (k : Nat) :
    Host.Core.run Sys2Proof.core (k + 1) s = Host.Core.run Sys2Proof.core k t := by
  have hcore : Sys2Proof.core.step s = .next t := h
  simp only [Host.Core.run, hcore]

theorem run_one_of_refused {s : State} {r : Refusal} (h : step s = .refused r) :
    Host.Core.run Sys2Proof.core 1 s = .refused r := by
  have hcore : Sys2Proof.core.step s = .refused r := h
  simp only [Host.Core.run, hcore]

/-- How a run with a pending command ends: PENDING is empty, or the host made a refused access. -/
def RunEnds (s : State) (k : Nat) : Prop :=
  match Host.Core.run Sys2Proof.core k s with
  | .next t => State.pending t = none
  | .refused _ => True
  | .fault _ => False

theorem runEnds_of_step_pending_none {s t : State} (h : step s = .next t) (hnone : t.pending = none) : RunEnds s 1 := by
  unfold RunEnds
  rw [run_succ_of_step h 0]
  exact hnone

theorem runEnds_of_refused {s : State} {r : Refusal} (h : step s = .refused r) : RunEnds s 1 := by
  unfold RunEnds
  rw [run_one_of_refused h]
  trivial

theorem runEnds_succ {s t : State} {k : Nat} (h : step s = .next t) (hk : RunEnds t k) : RunEnds s (k + 1) := by
  unfold RunEnds
  rw [run_succ_of_step h k]
  exact hk

/-- When it is not the engine's turn the host has an action, no WAIT, and the countdown is not over. -/
theorem host_of_not_engineTurn {s : State} (h : engineTurn s = false) :
    s.latency ≠ 0 ∧ ∃ a rest, s.host = a :: rest ∧ a ≠ .wait := by
  simp only [engineTurn, Bool.or_eq_false_iff, beq_eq_false_iff_ne] at h
  obtain ⟨⟨hnonempty, hnowait⟩, hlatency⟩ := h
  refine ⟨hlatency, ?_⟩
  cases hhost : s.host with
  | nil => simp [hhost] at hnonempty
  | cons a rest =>
    refine ⟨a, rest, rfl, ?_⟩
    rintro rfl
    simp [hostWaits, hhost] at hnowait

theorem exists_runEnds (n : Nat) : ∀ s : State, min s.latency s.host.length = n → s.busy = true →
    ∃ k, k ≤ n + 1 ∧ RunEnds s k := by
  induction n with
  | zero =>
    intro s hmin hbusy
    obtain ⟨w, hpending⟩ := pending_of_busy hbusy
    have hturn : engineTurn s = true := by
      by_contra hfalse
      obtain ⟨hlatency, a, rest, hhost, -⟩ := host_of_not_engineTurn (by simpa using hfalse)
      rw [hhost, List.length_cons] at hmin
      omega
    obtain ⟨r, hstep⟩ := step_of_engineTurn hpending hturn
    exact ⟨1, by omega, runEnds_of_step_pending_none hstep (complete_pending s r)⟩
  | succ n ih =>
    intro s hmin hbusy
    obtain ⟨w, hpending⟩ := pending_of_busy hbusy
    by_cases hturn : engineTurn s = true
    · obtain ⟨r, hstep⟩ := step_of_engineTurn hpending hturn
      exact ⟨1, by omega, runEnds_of_step_pending_none hstep (complete_pending s r)⟩
    · have hturn : engineTurn s = false := by simpa using hturn
      obtain ⟨hlatency, a, rest, hhost, hwait⟩ := host_of_not_engineTurn hturn
      have hstep := step_of_host (.inr hturn)
      cases hact : hostAct s a with
      | error r => exact ⟨1, by omega, runEnds_of_refused (hstep.trans (hostStep_of_error hhost hact))⟩
      | ok t =>
        rw [hostStep_of_ok hhost hact] at hstep
        obtain hnone | ⟨hkept, hcount, hqueue⟩ := hostAct_busy hact hwait hbusy
        · exact ⟨1, by omega, runEnds_of_step_pending_none hstep hnone⟩
        · have hnearer : min t.latency t.host.length = n := by
            rw [hhost, List.length_cons] at hmin
            rw [hcount, hqueue, hhost, List.tail_cons]
            omega
          obtain ⟨k, hk, hends⟩ := ih t hnearer (busy_of_pending (hkept.trans hpending))
          exact ⟨k + 1, by omega, runEnds_succ hstep hends⟩

/-- Settles O14, by induction on the number of host steps that may still come first. -/
theorem pendingCommandCompletes : Obligations.PendingCommandCompletes := by
  intro s w hpending
  exact exists_runEnds _ s rfl (busy_of_pending hpending)

/-! Who changes the image, COMP and IN (10_state R41, R45, 70_reset R332). -/

/-- A command other than DECODE leaves the image and COMP. -/
theorem complete_keeps_img_comp {i : Instr} (s : State) (hi : i ≠ .decode) :
    (complete s (commandResult i s)).img = s.img ∧ (complete s (commandResult i s)).comp = s.comp := by
  cases hr : commandResult i s with
  | error c => exact ⟨rfl, rfl⟩
  | ok e =>
    obtain ⟨hdecoded, -⟩ := commandResult_ok hr
    cases hd : e.decoded with
    | none => rw [complete_ok, commit_img, commit_comp, hd]; exact ⟨rfl, rfl⟩
    | some p => exact absurd (hdecoded p.1 p.2 hd).1 hi

theorem offset_of_regAt {off : Nat} {r : Reg} (h : regAt off = some r) : r.offset = off := by
  simpa using List.find?_some h

/-- A register write leaves the image, unless it is the soft reset. -/
theorem writeReg_img (s : State) (r : Reg) (v : Word) :
    (writeReg s r v).img = s.img ∨ (r = .ctrl ∧ v.getLsbD 0 = true ∧ writeReg s r v = softReset s) := by
  unfold writeReg
  split
  · split
    · exact .inr ⟨rfl, by assumption, rfl⟩
    · exact .inl rfl
  · exact .inl rfl
  all_goals left; split <;> rfl

/-- A register write leaves the memories and the parameters. -/
theorem writeReg_keeps (s : State) (r : Reg) (v : Word) :
    (writeReg s r v).comp = s.comp ∧ (writeReg s r v).inMem = s.inMem ∧ (writeReg s r v).impl = s.impl := by
  obtain h | h | h | ⟨-, h⟩ | ⟨-, h⟩ | ⟨-, r', h⟩ := writeReg_cases s r v <;> rw [h] <;> exact ⟨rfl, rfl, rfl⟩

/-- What a host write can do to the image, the memories and the parameters. -/
theorem writeValue_changes (s : State) {off n : Nat} (v : Word) (hmapped : refusal s off n = none) :
    (writeValue s off n v).comp = s.comp ∧ (writeValue s off n v).impl = s.impl ∧
      ((writeValue s off n v).img = s.img ∨
        (off = Reg.ctrl.offset ∧ n = 4 ∧ v.getLsbD 0 = true ∧ (writeValue s off n v).img = none)) ∧
      ((writeValue s off n v).inMem = s.inMem ∨
        (regionOf off = 1 ∧ s.busy = false ∧ (writeValue s off n v).img = s.img)) := by
  unfold writeValue
  split
  case h_1 hregion =>
    split
    case h_1 r hreg =>
      obtain ⟨hcomp, hin, himpl⟩ := writeReg_keeps s r v
      refine ⟨hcomp, himpl, (writeReg_img s r v).imp_right fun ⟨hctrl, hbit, hreset⟩ => ?_, .inl hin⟩
      subst hctrl
      obtain rfl := offset_of_regAt hreg
      obtain ⟨hwidth, -⟩ := refusalIn_none (show refusalIn [4] 0x1000 Reg.ctrl.offset n = none from hmapped)
      exact ⟨rfl, by simpa using hwidth, hbit, by rw [hreset, softReset_img]⟩
    case h_2 => exact ⟨rfl, rfl, .inl rfl, .inl rfl⟩
  case h_2 hregion =>
    split
    · exact ⟨rfl, rfl, .inl rfl, .inl rfl⟩
    · obtain ⟨m, hwrite, -⟩ := writeInBytes_eq s (offsetIn off) (busBytes v n)
      rw [hwrite]
      exact ⟨rfl, rfl, .inl rfl, .inr ⟨hregion, by simpa using ‹¬s.busy = true›, rfl⟩⟩
  case h_3 => exact ⟨rfl, rfl, .inl rfl, .inl rfl⟩

theorem exists_inWindow_of_regionOf {off : Nat} (h : regionOf off = 1) : ∃ i, off = 0x10000000 + i ∧ i < 2 ^ 28 := by
  unfold regionOf at h
  exact ⟨off - 0x10000000, by omega, by omega⟩

/-- Settles O51: of the engine's completions only DECODE's, of the host's actions only those named change what they say. -/
theorem onlyDecodeAndResetsChangeImage : Obligations.OnlyDecodeAndResetsChangeImage := by
  intro s t hstep
  have of_unchanged (himg : t.img = s.img) (hcomp : t.comp = s.comp) : ¬(t.img ≠ s.img ∨ t.comp ≠ s.comp) := by
    rw [himg, hcomp]
    simp
  obtain ⟨w, hpending, hturn, ⟨i, hdecode, rfl⟩ | ⟨-, rfl⟩⟩ | ⟨hfetch, ⟨-, rfl⟩ | ⟨a, rest, hhost, hact⟩⟩ :=
    step_cases hstep
  · refine ⟨fun hchange => .inl ⟨w, fetch_eq_some.2 ⟨hpending, hturn⟩, ?_⟩, fun h => absurd (complete_inMem s _) h,
      complete_impl s _⟩
    by_cases hi : i = .decode
    · rw [hdecode, hi]
    · obtain ⟨himg, hcomp⟩ := complete_keeps_img_comp s hi
      exact absurd hchange (of_unchanged himg hcomp)
  · exact ⟨fun h => absurd h (of_unchanged rfl rfl), fun h => absurd rfl h, rfl⟩
  · exact ⟨fun h => absurd h (of_unchanged rfl rfl), fun h => absurd rfl h, rfl⟩
  · cases a with
    | read addr n =>
      obtain ⟨v, d, rfl⟩ := hostAct_read_ok hact
      exact ⟨fun h => absurd h (of_unchanged rfl rfl), fun h => absurd rfl h, rfl⟩
    | wait =>
      obtain ⟨-, rfl⟩ | ⟨-, rfl⟩ := hostAct_wait_ok hact <;>
        exact ⟨fun h => absurd h (of_unchanged rfl rfl), fun h => absurd rfl h, rfl⟩
    | hardwareReset =>
      cases hact
      exact ⟨fun _ => .inr ⟨hfetch, rfl, .inr ⟨rest, hhost⟩⟩, fun _ => ⟨hfetch, .inr ⟨rest, hhost⟩⟩, rfl⟩
    | write addr n v =>
      obtain ⟨off, rfl, hmapped, rfl⟩ := hostAct_write_ok hact
      obtain ⟨hcomp, himpl, himg, hin⟩ := writeValue_changes (hostMoves s) v hmapped
      refine ⟨fun hchange => .inr ?_, fun hchange => ?_, himpl⟩
      · obtain hkept | ⟨rfl, rfl, hbit, hnone⟩ := himg
        · exact absurd hchange (of_unchanged hkept hcomp)
        · exact ⟨hfetch, hnone, .inl ⟨v, rest, hhost, hbit, hcomp⟩⟩
      · obtain hkept | ⟨hregion, hidle, hkeptImg⟩ := hin
        · exact absurd hkept hchange
        · obtain ⟨i, rfl, hi⟩ := exists_inWindow_of_regionOf hregion
          exact ⟨hfetch, .inl ⟨i, n, v, rest, by rw [hhost, Nat.add_assoc], hi, hidle, hcomp, hkeptImg⟩⟩

end Sys2Proof.Machine
end

section
/-! The faults of the five commands in the order of their checks (60_exceptions R302), and the obligations on them. -/

namespace Sys2Proof.Machine

open Sys2Proof.Claims

theorem exec_eq_faulted {i : Instr} {s : State} {c : FaultCode} (h : commandResult i s = .error c) :
    exec i s = .next (faulted s c.code) := by
  rw [exec_eq, h, complete_error, faultEntry_eq_faulted]

/-- Settles O18: the first check of each reading command finds no image. -/
theorem notDecodedBeforeFirstDecode : Obligations.NotDecodedBeforeFirstDecode := by
  refine ⟨fun i s hreads himg => ?_, rfl, fun _ => rfl⟩
  have hresult : commandResult i s = .error .notDecoded := by
    cases i with
    | decode => simp [readsImage] at hreads
    | render => simp only [commandResult, renderEffects, himg]
    | rawColor => simp only [commandResult, rawColorEffects, himg]
    | cropToRaw => simp only [commandResult, cropEffects, himg]
    | pixelComponents => simp only [commandResult, pixelEffects, himg]
  exact exec_eq_faulted hresult

/-! The descriptor checks as conditions on the fields (41_unpack R152, R154, 30_encoding R105). -/

theorem generalFault_iff (d : Descriptor) : generalFault d = true ↔ d.subH = 0 ∨ d.subV = 0 ∨ 16 < d.bpc0 ∨
    16 < d.bpc1 ∨ 16 < d.bpc2 ∨ 16 < d.bpc3 ∨ d.bpc0 + d.bpc1 + d.bpc2 + d.bpc3 = 0 := by
  simp only [generalFault, Descriptor.widthSum, Bool.or_eq_true, beq_iff_eq, decide_eq_true_eq]
  omega

theorem threeLetter_iff (o : RgbOrder) : threeLetter o = true ↔ o = .rgb ∨ o = .bgr := by cases o <;> decide

theorem rgbFault_iff (o : RgbOrder) (d : Descriptor) : rgbFault o d = true ↔
    d.width (rgbSlots o).1 = 0 ∨ d.width (rgbSlots o).2.1 = 0 ∨ d.width (rgbSlots o).2.2.1 = 0 ∨
      ((o = .rgb ∨ o = .bgr) ∧ d.bpc3 ≠ 0) ∨ d.shift ≠ 0 := by
  simp only [rgbFault, Bool.or_eq_true, Bool.and_eq_true, beq_iff_eq, bne_iff_ne, threeLetter_iff, or_assoc]

theorem singleFault_iff (d : Descriptor) : singleFault d = true ↔ d.bpc0 = 0 ∨ d.bpc1 ≠ 0 ∨ d.bpc2 ≠ 0 ∨ d.bpc3 ≠ 0 ∨
    (d.subbyte = false ∧ 16 < d.bpc0 + d.shift) ∨ (d.subbyte = true ∧ d.shift ≠ 0) := by
  cases hs : d.subbyte <;> simp [singleFault, hs, or_assoc]

theorem yuvFault_iff (d : Descriptor) : yuvFault d = true ↔
    ¬(d.bpc0 = 8 ∧ d.bpc1 = 8 ∧ d.bpc2 = 8 ∧ d.bpc3 = 0) ∨ d.subbyte = true ∨ d.shift ≠ 0 := by
  simp only [yuvFault, Bool.or_eq_true, bne_iff_ne]
  tauto

theorem checkDescriptor_of_generalFault (c : Codec) {d : Descriptor} (h : generalFault d = true) :
    checkDescriptor c d = .error .invalidPixelFormat := by
  simp [checkDescriptor, h]

section
variable {c : Codec} {d : Descriptor} (hgeneral : generalFault d = false)
include hgeneral

theorem checkDescriptor_of_codecFault {f : FaultCode} (h : codecFault c d = some f) : checkDescriptor c d = .error f := by
  simp [checkDescriptor, hgeneral, h]

theorem checkDescriptor_of_no_family (hcodec : codecFault c d = none) (h : familyOf c d.subH d.subV = none) :
    checkDescriptor c d = .error .unsupportedFormat := by
  simp [checkDescriptor, hgeneral, hcodec, h]

theorem checkDescriptor_of_rgbFault {o : RgbOrder} (h : rgbFault o d = true) :
    checkDescriptor (.rgb o) d = .error .invalidPixelFormat :=
  checkDescriptor_of_codecFault hgeneral (by simp [codecFault, h])

theorem checkDescriptor_of_singleFault (hc : c = .gray ∨ ∃ o, c = .bayer o) (h : singleFault d = true) :
    checkDescriptor c d = .error .invalidPixelFormat := by
  refine checkDescriptor_of_codecFault hgeneral ?_
  obtain rfl | ⟨o, rfl⟩ := hc <;> simp [codecFault, h]

/-- A YUV codec rejects its own requirements and the subsampling pair with one code (30_encoding R105). -/
theorem checkDescriptor_of_yuvFault (hc : (∃ o, c = .yuvPacked o) ∨ (∃ o, c = .yuvSemi o) ∨ ∃ o, c = .yuvPlanar o)
    (h : yuvFault d = true ∨ familyOf c d.subH d.subV = none) : checkDescriptor c d = .error .unsupportedFormat := by
  have hcodec : codecFault c d = if yuvFault d then some .unsupportedFormat else none := by
    obtain ⟨o, rfl⟩ | ⟨o, rfl⟩ | ⟨o, rfl⟩ := hc <;> rfl
  by_cases hyuv : yuvFault d = true
  · exact checkDescriptor_of_codecFault hgeneral (by rw [hcodec, if_pos hyuv])
  · exact checkDescriptor_of_no_family hgeneral (by rw [hcodec, if_neg hyuv]) (h.resolve_left hyuv)

end

/-! DECODE's checks one after another (40_commands R122). -/

theorem decodeEffects_of_check_error {s : State} {f : FaultCode} (h : decodeCheck s = .error f) :
    decodeEffects s = .error f := by
  simp only [decodeEffects, h]

theorem decodeCheck_of_endianSel {s : State} (h : s.regs.endianSel = 3) : decodeCheck s = .error .illegalCommand := by
  simp only [decodeCheck, h, if_true]

section
variable {s : State} (hendian : s.regs.endianSel ≠ 3)
include hendian

theorem decodeCheck_of_miss (h : dispatch s.regs.layout s.regs.order = none) :
    decodeCheck s = .error .unsupportedFormat := by
  simp only [decodeCheck, hendian, h, if_false]

variable {c : Codec} (hdispatch : dispatch s.regs.layout s.regs.order = some c)
include hdispatch

theorem decodeCheck_of_descriptor {f : FaultCode} (h : checkDescriptor c s.regs.descriptor = .error f) :
    decodeCheck s = .error f := by
  simp only [decodeCheck, hendian, hdispatch, h, if_false]

variable {fam : Family} (hchecked : checkDescriptor c s.regs.descriptor = .ok fam)
include hchecked

theorem decodeCheck_of_width (h : s.regs.width.toNat = 0) : decodeCheck s = .error .invalidGeometry := by
  simp only [decodeCheck, hendian, hdispatch, hchecked, h, if_true, if_false]

theorem decodeCheck_of_inLen (hwidth : s.regs.width.toNat ≠ 0) (h : s.impl.inMemBytes < s.regs.inLen.toNat) :
    decodeCheck s = .error .capacityExceeded := by
  simp only [decodeCheck, hendian, hdispatch, hchecked, hwidth, h, if_true, if_false]

theorem decodeCheck_of_all (hwidth : s.regs.width.toNat ≠ 0) (hinLen : s.regs.inLen.toNat ≤ s.impl.inMemBytes) :
    decodeCheck s = .ok fam := by
  simp only [decodeCheck, hendian, hdispatch, hchecked, hwidth, hinLen.not_gt, if_false]

end

theorem decodeEffects_of_comp {s : State} {fam : Family} (hcheck : decodeCheck s = .ok fam)
    (h : s.impl.compMemWords < (decodedImage s fam).l) : decodeEffects s = .error .capacityExceeded := by
  simp only [decodeEffects, hcheck, h, if_true]

/-- Settles O19: one lemma a check, each given that the checks before it passed. -/
theorem decodeFaultsInOrder : Obligations.DecodeFaultsInOrder := by
  intro s d
  have fault_of_check {f : FaultCode} (h : decodeCheck s = .error f) : exec .decode s = .next (faulted s f.code) :=
    exec_eq_faulted (i := .decode) (decodeEffects_of_check_error h)
  refine ⟨fun h => fault_of_check (decodeCheck_of_endianSel h), fun hendian =>
    ⟨fun h => fault_of_check (decodeCheck_of_miss hendian h), fun c hdispatch => ?_⟩⟩
  have fault_of_descriptor {f : FaultCode} (h : checkDescriptor c d = .error f) :
      exec .decode s = .next (faulted s f.code) :=
    fault_of_check (decodeCheck_of_descriptor hendian hdispatch h)
  refine ⟨fun h => fault_of_descriptor (checkDescriptor_of_generalFault c ((generalFault_iff d).2 h)), fun h => ?_,
    fun fam hchecked => ⟨fun h => ?_, fun hwidth => ⟨fun h => ?_, fun hinLen h => ?_⟩⟩⟩
  · have hgeneral : generalFault d = false := by rwa [← Bool.not_eq_true, generalFault_iff]
    refine ⟨?_, fun hc h => ?_, fun hc h => ?_⟩
    · rintro o rfl h
      exact fault_of_descriptor (checkDescriptor_of_rgbFault hgeneral ((rgbFault_iff o d).2 h))
    · exact fault_of_descriptor (checkDescriptor_of_singleFault hgeneral hc ((singleFault_iff d).2 h))
    · refine fault_of_descriptor (checkDescriptor_of_yuvFault hgeneral hc ?_)
      rw [yuvFault_iff]
      tauto
  · exact fault_of_check (decodeCheck_of_width hendian hdispatch hchecked h)
  · exact fault_of_check (decodeCheck_of_inLen hendian hdispatch hchecked hwidth h)
  · exact exec_eq_faulted (i := .decode) (decodeEffects_of_comp (decodeCheck_of_all hendian hdispatch hchecked hwidth hinLen) h)

/-! RENDER (43_yuv R223, R231). -/

section
variable {s : State} {img : Image} (himg : s.img = some img)
include himg

theorem renderEffects_of_frames_error {f : FaultCode}
    (h : renderFrames img s.regs.maskBit s.regs.frameHeight.toNat = .error f) : renderEffects s = .error f := by
  simp only [renderEffects, himg, h]

theorem renderEffects_of_size {fr : Frames}
    (hframes : renderFrames img s.regs.maskBit s.regs.frameHeight.toNat = .ok fr)
    (h : s.impl.outMemBytes < fr.count * fr.rows * img.w * 4) : renderEffects s = .error .capacityExceeded := by
  simp only [renderEffects, himg, hframes, h, if_true]

end

/-- A 4:2:0 frame of odd height is rejected, which a height of 0 is not (43_yuv R223). -/
theorem yuvFrames_of_odd {y : YuvFamily} (img : Image) {f : Nat} (h420 : is420 y = true) (hodd : f % 2 = 1) :
    yuvFrames y img f = .error .invalidGeometry := by
  have hnonzero : f ≠ 0 := by omega
  simp only [yuvFrames, hnonzero, h420, hodd, if_true, if_false]

/-- Settles O20: the luma flag, then the frame height, then the raster's size. -/
theorem renderFaultsInOrder : Obligations.RenderFaultsInOrder := by
  intro s img himg
  refine ⟨fun y hfam => ⟨fun hluma => ?_, fun hluma h420 hodd => ?_⟩, fun fr hframes hsize => ?_⟩
  · have hframes : renderFrames img s.regs.maskBit s.regs.frameHeight.toNat = .error .invalidChannelMask := by
      simp [renderFrames, hfam, hluma]
    exact exec_eq_faulted (i := .render) (renderEffects_of_frames_error himg hframes)
  · have hframes : renderFrames img s.regs.maskBit s.regs.frameHeight.toNat = .error .invalidGeometry := by
      simp [renderFrames, hfam, hluma, yuvFrames_of_odd img h420 hodd]
    exact exec_eq_faulted (i := .render) (renderEffects_of_frames_error himg hframes)
  · exact exec_eq_faulted (i := .render) (renderEffects_of_size himg hframes hsize)

/-! RAW_COLOR, CROP_TO_RAW and PIXEL_COMPONENTS (40_commands R135, R138). -/

theorem regionOk_iff (g : Regs) (img : Image) : regionOk g img = true ↔
    g.row0.toNat ≤ g.row1.toNat ∧ g.row1.toNat ≤ img.h ∧ g.col0.toNat ≤ g.col1.toNat ∧ g.col1.toNat ≤ img.w := by
  rw [regionOk, decide_eq_true_eq]

theorem exists_rawPixel (s : State) {img : Image}
    (hfam : (∃ y, img.family = .yuv y) ∨ ∃ o, img.family = .bayer o) (hpal : img.desc.palEn = true) :
    ∃ px, rawPixel s img = some px := by
  obtain ⟨y, hyuv⟩ | ⟨o, hbayer⟩ := hfam
  · exact ⟨_, rawPixel_of_yuv s hyuv hpal⟩
  · exact ⟨_, rawPixel_of_bayer s hbayer hpal⟩

section
variable {s : State} {img : Image} (himg : s.img = some img)
include himg

theorem rawColorEffects_of_size {px : Nat → Nat → Pixel} (hpx : rawPixel s img = some px)
    (h : s.impl.outMemBytes < img.h * img.w * 4) : rawColorEffects s = .error .capacityExceeded := by
  simp only [rawColorEffects, himg, hpx, h, if_true]

theorem cropEffects_of_not_region (h : ¬regionOk s.regs img = true) : cropEffects s = .error .invalidGeometry := by
  simp [cropEffects, himg, h]

theorem cropEffects_of_size (hregion : regionOk s.regs img = true)
    (h : s.impl.outMemBytes < (regionBytes s img).length) : cropEffects s = .error .capacityExceeded := by
  simp [cropEffects, himg, hregion, h]

theorem pixelEffects_of_outside (h : img.h ≤ s.regs.pixRow.toNat ∨ img.w ≤ s.regs.pixCol.toNat) :
    pixelEffects s = .error .invalidGeometry := by
  simp only [pixelEffects, himg, h, if_true]

end

/-- Settles O21: the region or the pixel, then what is written to OUT. -/
theorem readersFaultInOrder : Obligations.ReadersFaultInOrder := by
  intro s img himg
  refine ⟨fun hfam hpal hsize => ?_, fun houtside => ?_, fun hrows hbottom hcols hright hsize => ?_, fun houtside => ?_⟩
  · obtain ⟨px, hpx⟩ := exists_rawPixel s hfam hpal
    exact exec_eq_faulted (i := .rawColor) (rawColorEffects_of_size himg hpx hsize)
  · refine exec_eq_faulted (i := .cropToRaw) (cropEffects_of_not_region himg ?_)
    rw [regionOk_iff]
    omega
  · exact exec_eq_faulted (i := .cropToRaw) (cropEffects_of_size himg ((regionOk_iff _ _).2 ⟨hrows, hbottom, hcols, hright⟩) hsize)
  · exact exec_eq_faulted (i := .pixelComponents) (pixelEffects_of_outside himg houtside)

end Sys2Proof.Machine
end

section
/-! The dispatcher's table (30_encoding R96, R98, R104), and the obligation on it. -/

namespace Sys2Proof.Machine

theorem orderOfCode_code (o : Order) : orderOfCode o.code = some o := by
  obtain o | o | o | _ | o := o
  case mono => rfl
  all_goals cases o <;> rfl

theorem layoutOfCode_code (l : Layout) : layoutOfCode l.code = some l := by cases l <;> rfl

/-- Only an order's own code gives the order. -/
theorem code_of_orderOfCode {code : Nat} {o : Order} (h : orderOfCode code = some o) : o.code = code := by
  unfold orderOfCode at h
  split at h <;> cases h <;> rfl

theorem code_of_layoutOfCode {code : Nat} {l : Layout} (h : layoutOfCode code = some l) : l.code = code := by
  unfold layoutOfCode at h
  split at h <;> cases h <;> rfl

theorem dispatch_family (f : Family) : dispatch f.layout.code f.order.code = some f.codec := by
  unfold dispatch
  rw [layoutOfCode_code, orderOfCode_code]
  obtain _ | (_ | _ | _ | _) | _ | _ := f <;> rfl

/-- A pair that selects a codec is the layout and order of one of its families. -/
theorem exists_family_of_dispatch {layout order : Nat} {c : Codec} (h : dispatch layout order = some c) :
    ∃ f : Family, f.codec = c ∧ layoutOfCode layout = some f.layout ∧ orderOfCode order = some f.order := by
  unfold dispatch at h
  split at h <;> cases h
  case h_1 o hlayout horder => exact ⟨.rgb o, rfl, hlayout, horder⟩
  case h_2 o hlayout horder => exact ⟨.yuv (.packed422 o), rfl, hlayout, horder⟩
  case h_3 o hlayout horder => exact ⟨.yuv (.semi420 o), rfl, hlayout, horder⟩
  case h_4 o hlayout horder => exact ⟨.yuv (.planar420 o), rfl, hlayout, horder⟩
  case h_5 hlayout horder => exact ⟨.gray, rfl, hlayout, horder⟩
  case h_6 o hlayout horder => exact ⟨.bayer o, rfl, hlayout, horder⟩

/-- Settles O3: the codes and the names of layouts and orders determine each other. -/
theorem dispatcherTableRoundTrip : Obligations.DispatcherTableRoundTrip := by
  refine ⟨dispatch_family, fun l o c _ _ h => ?_⟩
  obtain ⟨f, hcodec, hlayout, horder⟩ := exists_family_of_dispatch h
  exact ⟨f, hcodec, code_of_layoutOfCode hlayout, code_of_orderOfCode horder⟩

end Sys2Proof.Machine
end

section
/-! The windows of the aperture (20_memory R61–R68, 70_reset R341): which accesses are mapped, what they read and write, and
the obligations on them. -/

namespace Sys2Proof.Machine

open Sys2Proof.Claims

/-! Which accesses are refused. -/

theorem refusalIn_eq_none_iff (widths : List Nat) (size i n : Nat) :
    refusalIn widths size i n = none ↔ n ∈ widths ∧ (n = 4 → i % 4 = 0) ∧ i + n ≤ size := by
  refine ⟨refusalIn_none, fun ⟨hlisted, halign, hfits⟩ => ?_⟩
  have haligned : ¬(n = 4 ∧ i % 4 ≠ 0) := fun ⟨hfour, hunaligned⟩ => hunaligned (halign hfour)
  simp only [refusalIn, hlisted, haligned, hfits.not_gt, not_true_eq_false, if_false]

/-- The aperture map (20_memory R61): the registers, then IN, OUT and COMP, each with its widths and its size. -/
def mapped (p : Impl) (off n : Nat) : Prop :=
  (off < 0x1000 ∧ n = 4 ∧ off % 4 = 0) ∨
    (0x10000000 ≤ off ∧ off + n ≤ 0x10000000 + p.inMemBytes ∧ (n = 1 ∨ (n = 4 ∧ off % 4 = 0))) ∨
    (0x20000000 ≤ off ∧ off + n ≤ 0x20000000 + p.outMemBytes ∧ (n = 1 ∨ (n = 4 ∧ off % 4 = 0))) ∨
    (0x30000000 ≤ off ∧ off + n ≤ 0x30000000 + 4 * p.compMemWords ∧ n = 4 ∧ off % 4 = 0)

theorem refusal_eq_none_iff (s : State) (off n : Nat) (hwf : s.impl.wf) :
    refusal s off n = none ↔ mapped s.impl off n := by
  obtain ⟨⟨-, hin⟩, ⟨-, hcomp⟩, -, hout⟩ := hwf
  have hregion : regionOf off = off / 2 ^ 28 := rfl
  have hoffset : offsetIn off = off % 2 ^ 28 := rfl
  unfold refusal mapped
  split
  case h_1 h0 =>
    split
    · simp only [refusalIn_eq_none_iff, List.mem_singleton]
      omega
    · simp only [reduceCtorEq, false_iff]
      omega
  case h_2 h1 =>
    simp only [refusalIn_eq_none_iff, List.mem_cons, List.not_mem_nil, or_false]
    omega
  case h_3 h2 =>
    simp only [refusalIn_eq_none_iff, List.mem_cons, List.not_mem_nil, or_false]
    omega
  case h_4 h3 =>
    simp only [refusalIn_eq_none_iff, List.mem_singleton]
    omega
  case h_5 h0 h1 h2 h3 =>
    have hbeyond : 4 ≤ regionOf off := by
      by_contra hlow
      obtain h | h | h | h : regionOf off = 0 ∨ regionOf off = 1 ∨ regionOf off = 2 ∨ regionOf off = 3 := by omega
      · exact h0 h
      · exact h1 h
      · exact h2 h
      · exact h3 h
    simp only [reduceCtorEq, false_iff]
    omega

theorem memRead_ok_iff (s : State) (off n : Nat) : (∃ x, memRead s off n = .ok x) ↔ refusal s off n = none := by
  unfold memRead
  cases refusal s off n with
  | some r => simp
  | none => by_cases h : (s.busy && readsResult off) = true <;> simp [h]

theorem memWrite_ok_iff (s : State) (off n : Nat) (v : Word) :
    (∃ t, memWrite s off n v = .ok t) ↔ refusal s off n = none := by
  unfold memWrite
  cases refusal s off n <;> simp

/-- Settles O59: an access is performed when it is not refused, and the refusals are the map's complement. -/
theorem onlyMappedAccessesArePerformed : Obligations.OnlyMappedAccessesArePerformed := by
  intro s off n v hwf
  have hiff := refusal_eq_none_iff s off n hwf
  exact ⟨(memRead_ok_iff s off n).trans hiff, (memWrite_ok_iff s off n v).trans hiff⟩

/-! Writes to the windows. -/

theorem memWrite_of_mapped {s : State} {off n : Nat} (v : Word) (h : refusal s off n = none) :
    memWrite s off n v = .ok (writeValue s off n v) := by
  simp only [memWrite, h]

theorem writeValue_inWindow_busy {s : State} {i : Nat} (n : Nat) (v : Word) (hi : i < 2 ^ 28) (hbusy : s.busy = true) :
    writeValue s (0x10000000 + i) n v = turnAway s := by
  simp only [writeValue, regionOf_inWindow hi, hbusy, if_true]

theorem writeValue_inWindow_idle {s : State} {i : Nat} (n : Nat) (v : Word) (hi : i < 2 ^ 28) (hidle : s.busy = false) :
    writeValue s (0x10000000 + i) n v = writeInBytes s i (busBytes v n) := by
  simp only [writeValue, regionOf_inWindow hi, offsetIn_inWindow hi, hidle, Bool.false_eq_true, if_false]

/-- Writes to the OUT and COMP windows are ignored, busy or idle. -/
theorem memWrite_outOrCompWindow {s : State} {off n : Nat} (v : Word) (hlow : 0x20000000 ≤ off)
    (hhigh : off < 0x40000000) (h : refusal s off n = none) : memWrite s off n v = .ok s := by
  have hregion : regionOf off = 2 ∨ regionOf off = 3 := by
    unfold regionOf
    omega
  rw [memWrite_of_mapped v h]
  obtain h | h := hregion <;> simp only [writeValue, h]

/-- Every register but CTRL and STATUS is turned away while busy (70_reset R341). -/
theorem writeReg_busy {s : State} {r : Reg} (v : Word) (hbusy : s.busy = true) (hctrl : r ≠ .ctrl)
    (hstatus : r ≠ .status) : writeReg s r v = turnAway s := by
  unfold writeReg
  split
  case h_1 => contradiction
  case h_2 => contradiction
  case h_3 | h_4 => rw [if_pos hbusy]

/-- Settles O55: each write is decided by its address, and `turnAway` sets WWB alone. -/
theorem busyWritesAreTurnedAway : Obligations.BusyWritesAreTurnedAway := by
  intro s v
  refine ⟨fun hbusy r hctrl hstatus => ?_, fun hbusy i n hi hmapped => ?_, fun hset => ?_, ⟨memWrite_reg s .status v, ?_⟩,
    fun off n hlow hhigh hmapped => memWrite_outOrCompWindow v hlow hhigh hmapped,
    fun off hlt halign hreserved => memWrite_reserved s hlt halign hreserved v⟩
  · rw [memWrite_reg, writeReg_busy v hbusy hctrl hstatus]
    rfl
  · rw [memWrite_of_mapped v hmapped, writeValue_inWindow_busy n v hi hbusy]
    rfl
  · have hwrite := memWrite_reg s .ctrl v
    rwa [writeReg_ctrl_set s hset] at hwrite
  · simp [Bool.and_comm]

/-! The IN window, idle (20_memory R62, R67). -/

/-- The four bytes of a word, read back on the little-endian bus, are the word. -/
theorem busWord_extract (v : Word) :
    busWord (v.extractLsb' 0 8) (v.extractLsb' 8 8) (v.extractLsb' 16 8) (v.extractLsb' 24 8) = v := by
  apply BitVec.eq_of_toNat_eq
  rw [busWord_eq_ofNat]
  simp only [BitVec.extractLsb'_toNat, Nat.shiftRight_eq_div_pow, BitVec.toNat_ofNat]
  have := v.isLt
  omega

/-- An idle write of `n` bytes to IN: it is performed, reads back through the written bytes, and changes IN alone. -/
theorem memWrite_inWindow {s : State} {i n : Nat} (v : Word) (hidle : s.busy = false) (hwf : s.impl.wf)
    (hwidth : n = 1 ∨ n = 4) (halign : n = 4 → i % 4 = 0) (hfits : i + n ≤ s.impl.inMemBytes) :
    ∃ t, memWrite s (0x10000000 + i) n v = .ok t ∧ memRead t (0x10000000 + i) n = .ok (busRead (inByte t) i n, t) ∧
      (∀ a, inByte t a = if i ≤ a ∧ a < i + n then (busBytes v n).getD (a - i) 0 else inByte s a) ∧
      { t with inMem := s.inMem } = s := by
  have hi : i < 2 ^ 28 := by
    obtain ⟨⟨-, hin⟩, -⟩ := hwf
    omega
  obtain ⟨m, hwrite, -⟩ := writeInBytes_eq s i (busBytes v n)
  have himpl : (writeInBytes s i (busBytes v n)).impl = s.impl := by rw [hwrite]
  refine ⟨writeInBytes s i (busBytes v n), ?_, memRead_inWindow _ hi hwidth halign (himpl ▸ hfits), fun a => ?_, ?_⟩
  · rw [memWrite_of_mapped v (refusal_inWindow s hi hwidth halign hfits), writeValue_inWindow_idle n v hi hidle]
  · rw [inByte_writeInBytes, busBytes_length v n hwidth]
  · rw [hwrite]

/-- Settles O57: the bytes written are the word's in bus order, and reading them back joins them again. -/
theorem inWindowLittleEndian : Obligations.InWindowLittleEndian := by
  intro s v i hidle hwf
  refine ⟨fun hfits => ?_, fun halign hfits => ?_⟩
  · obtain ⟨t, hwrite, hread, hbytes, hframe⟩ := memWrite_inWindow v hidle hwf (.inl rfl) nofun hfits
    have hself : inByte t i = v.extractLsb' 0 8 := by
      rw [hbytes, if_pos (by omega), Nat.sub_self]
      rfl
    refine ⟨t, hwrite, ?_, fun a => ?_, hframe⟩
    · rw [hread, ← hself]
      rfl
    · by_cases ha : a = i
      · rw [if_pos ha, ha, hself]
      · rw [if_neg ha, hbytes, if_neg (by omega)]
  · obtain ⟨t, hwrite, hread, hbytes, hframe⟩ := memWrite_inWindow v hidle hwf (.inr rfl) (fun _ => halign) hfits
    have hbyte (k : Nat) (hk : k < 4) : inByte t (i + k) = (busBytes v 4).getD k 0 := by
      rw [hbytes, if_pos (by omega), Nat.add_sub_cancel_left]
    have h0 : inByte t i = v.extractLsb' 0 8 := hbyte 0 (by decide)
    have h1 : inByte t (i + 1) = v.extractLsb' 8 8 := hbyte 1 (by decide)
    have h2 : inByte t (i + 2) = v.extractLsb' 16 8 := hbyte 2 (by decide)
    have h3 : inByte t (i + 3) = v.extractLsb' 24 8 := hbyte 3 (by decide)
    refine ⟨t, hwrite, ?_, h0, h1, h2, h3, fun a ha => ?_, hframe⟩
    · rw [hread, busRead, if_neg (by decide), h0, h1, h2, h3, busWord_extract]
    · rw [hbytes, if_neg (by omega)]

/-! The OUT and COMP windows, idle (20_memory R63, R64). -/

theorem regionOf_outWindow {i : Nat} (hi : i < 2 ^ 28) : regionOf (0x20000000 + i) = 2 := by
  unfold regionOf
  omega

theorem offsetIn_outWindow {i : Nat} (hi : i < 2 ^ 28) : offsetIn (0x20000000 + i) = i := by
  unfold offsetIn
  omega

theorem regionOf_compWindow {i : Nat} (hi : i < 2 ^ 26) : regionOf (0x30000000 + 4 * i) = 3 := by
  unfold regionOf
  omega

theorem offsetIn_compWindow {i : Nat} (hi : i < 2 ^ 26) : offsetIn (0x30000000 + 4 * i) = 4 * i := by
  unfold offsetIn
  omega

theorem memRead_idle {s : State} {off n : Nat} (hidle : s.busy = false) (h : refusal s off n = none) :
    memRead s off n = .ok (readValue s off n, s) := by
  simp [memRead, h, hidle]

/-- An access to OUT inside the memory: reads, while idle, give its bytes, writes are ignored. -/
theorem outWindow {s : State} {i n : Nat} (v : Word) (hwf : s.impl.wf) (hwidth : n = 1 ∨ n = 4)
    (halign : n = 4 → i % 4 = 0) (hfits : i + n ≤ s.impl.outMemBytes) :
    (s.busy = false → memRead s (0x20000000 + i) n = .ok (busRead (outByte s) i n, s)) ∧
      memWrite s (0x20000000 + i) n v = .ok s := by
  have hmapped : refusal s (0x20000000 + i) n = none := by
    rw [refusal_eq_none_iff s _ n hwf]
    unfold mapped
    omega
  obtain ⟨-, -, -, hout⟩ := hwf
  have hi : i < 2 ^ 28 := by omega
  refine ⟨fun hidle => ?_, memWrite_outOrCompWindow v (by omega) (by omega) hmapped⟩
  simp only [memRead_idle hidle hmapped, readValue, regionOf_outWindow hi, offsetIn_outWindow hi]

theorem compWindow {s : State} {i : Nat} (v : Word) (hwf : s.impl.wf) (hfits : i < s.impl.compMemWords) :
    (s.busy = false → memRead s (0x30000000 + 4 * i) 4 = .ok (BitVec.ofNat 32 (compElem s i).toNat, s)) ∧
      memWrite s (0x30000000 + 4 * i) 4 v = .ok s := by
  have hmapped : refusal s (0x30000000 + 4 * i) 4 = none := by
    rw [refusal_eq_none_iff s _ 4 hwf]
    unfold mapped
    omega
  obtain ⟨-, ⟨-, hcomp⟩, -⟩ := hwf
  have hi : i < 2 ^ 26 := by omega
  refine ⟨fun hidle => ?_, memWrite_outOrCompWindow v (by omega) (by omega) hmapped⟩
  simp only [memRead_idle hidle hmapped, readValue, regionOf_compWindow hi, offsetIn_compWindow hi,
    Nat.mul_div_cancel_left i (show 0 < 4 by decide), BitVec.ofNat_toNat]

/-- A DECODE without a fault is the commit of its image and elements. -/
theorem execDecode_inversion {s t : State} (hexec : exec .decode s = .next t) (herr : t.status.err = false) :
    ∃ fam e, decodeCheck s = .ok fam ∧ (decodedImage s fam).l ≤ s.impl.compMemWords ∧
      e.decoded = some (decodedImage s fam, (decodedComp s fam).map (BitVec.ofNat 16)) ∧ e.results = s.results ∧
      t = commit s e := by
  obtain rfl := (exec_next_iff .decode s t).1 hexec
  cases hr : decodeEffects s with
  | error c =>
    rw [commandResult, hr] at herr
    cases herr
  | ok e =>
    obtain ⟨fam, hcheck, hfits, rfl⟩ := decodeEffects_ok hr
    exact ⟨fam, _, hcheck, hfits, rfl, rfl, by rw [commandResult, hr, complete_ok]⟩

/-- Settles O58: OUT and COMP are read through their accessors; a DECODE's completion draws COMP from its L up, and the
soft reset keeps it. -/
theorem outAndCompWindows : Obligations.OutAndCompWindows := by
  intro s v i hwf
  refine ⟨fun hfits => outWindow v hwf (.inl rfl) nofun hfits, fun halign hfits => ?_, fun hfits => ?_⟩
  · rw [← busWord_eq_ofNat]
    exact outWindow v hwf (.inr rfl) (fun _ => halign) hfits
  · obtain ⟨hread, hwrite⟩ := compWindow v hwf hfits
    refine ⟨hread, hwrite, fun t img hexec herr himg hbeyond => ?_, ?_⟩
    · obtain ⟨fam, e, hcheck, -, hdecoded, -, rfl⟩ := execDecode_inversion hexec herr
      rw [commit_img_of_decoded s hdecoded] at himg
      cases himg
      rw [(compWindow (s := commit s e) v hwf hfits).1 rfl, compElem_commit_decoded hcheck hdecoded,
        if_neg hbeyond.not_gt]
    · exact (compWindow (s := softReset s) v hwf hfits).1 rfl

end Sys2Proof.Machine
end

section
/-! What a DECODE of the RGB, GRAY and BAYER families stores (41_unpack R155–R162, 42_rgb R191, 44_bayer R260): each element
as a number of input bytes or as bits of a chunk, and the obligations on DECODE. -/

namespace Sys2Proof.Machine

open Sys2Proof.Claims

/-! Row-major indices. -/

theorem rowMajor_div {w r c : Nat} (hc : c < w) : (r * w + c) / w = r := by
  rw [Nat.mul_comm, Nat.mul_add_div (Nat.zero_lt_of_lt hc), Nat.div_eq_of_lt hc, Nat.add_zero]

theorem rowMajor_mod {w r c : Nat} (hc : c < w) : (r * w + c) % w = c := by
  rw [Nat.mul_comm, Nat.mul_add_mod, Nat.mod_eq_of_lt hc]

/-! Numbers of bytes (20_memory R71). -/

theorem bytesNum_little_succ (k : Nat) (f : Nat → Nat) :
    bytesNum .little (k + 1) f = f 0 + 256 * bytesNum .little k fun j => f (j + 1) := by
  have hterm (j : Nat) : f (j + 1) * 256 ^ (j + 1) = 256 * (f (j + 1) * 256 ^ j) := by ring
  simp only [bytesNum, List.range_succ_eq_map, List.map_cons, List.map_map, List.sum_cons, Function.comp_def,
    Nat.succ_eq_add_one, hterm, List.sum_map_mul_left, pow_zero, mul_one]

theorem bytesNum_big_succ (k : Nat) (f : Nat → Nat) : bytesNum .big (k + 1) f = bytesNum .big k f * 256 + f k := by
  have hterm : ∀ j ∈ List.range k, f j * 256 ^ (k - j) = f j * 256 ^ (k - 1 - j) * 256 := by
    intro j hj
    have hlt : j < k := List.mem_range.1 hj
    rw [show k - j = k - 1 - j + 1 by omega, Nat.pow_succ, Nat.mul_assoc]
  simp only [bytesNum, Nat.add_sub_cancel]
  rw [List.range_succ, List.map_append, List.sum_append, List.map_congr_left hterm, List.sum_map_mul_right]
  simp

/-- `NumE` of the bytes `f 0, …, f (k − 1)` is their sum over the powers of 256. -/
theorem numE_map_range (e : Endian) (k : Nat) (f : Nat → Nat) : numE e ((List.range k).map f) = bytesNum e k f := by
  cases e with
  | little =>
    induction k generalizing f with
    | zero => rfl
    | succ k ih =>
      rw [bytesNum_little_succ, ← ih, List.range_succ_eq_map, List.map_cons, numE_little_cons, List.map_map]
      rfl
  | big =>
    induction k with
    | zero => rfl
    | succ k ih =>
      rw [bytesNum_big_succ, ← ih, List.range_succ, List.map_append, numE_big_append]
      simp [numE]

theorem numE_window (e : Endian) (b : List Nat) (a k : Nat) :
    numE e (window b a k) = bytesNum e k fun t => b.getD (a + t) 0 := numE_map_range e k _

/-- The buffer a DECODE unpacks: the input after the byte-reverse pre-pass. -/
def decodeBuffer (s : State) : List Nat :=
  byteReverse (rawBytes s s.regs.inLen.toNat) s.regs.reverseGroup.toNat

theorem decodeBuffer_getD (s : State) (i : Nat) : (decodeBuffer s).getD i 0 = bufByte s i := byteReverse_rawBytes_getD s i

theorem decodeBuffer_length (s : State) : (decodeBuffer s).length = s.regs.inLen.toNat := by
  rw [decodeBuffer, byteReverse_length, rawBytes_length]

/-! The widths of the present slots (41_unpack R157). -/

theorem sum_map_filter_pos (l : List Nat) (f : Nat → Nat) :
    ((l.filter fun i => decide (0 < f i)).map f).sum = (l.map f).sum := by
  induction l with
  | nil => rfl
  | cons x l ih =>
    by_cases hx : 0 < f x
    · simp [hx, ih]
    · simp [ih, Nat.eq_zero_of_not_pos hx]

theorem widthBelow_succ (d : Descriptor) (i : Nat) : widthBelow d (i + 1) = widthBelow d i + d.width i := by
  simp [widthBelow, List.range_succ]

theorem mem_present_iff {d : Descriptor} {i : Nat} : i ∈ d.present ↔ i < 4 ∧ 0 < d.width i := by
  rw [present_eq_filter_range, List.mem_filter, List.mem_range, decide_eq_true_eq]

/-- The present slots up to a present one are the first among the present ones. -/
theorem take_present {d : Descriptor} {i : Nat} (hi : i < 4) (hw : 0 < d.width i) :
    d.present.take (presentBelow d i + 1) = (List.range (i + 1)).filter fun k => decide (0 < d.width k) := by
  obtain ⟨m, hm⟩ : ∃ m, 4 = i + 1 + m := ⟨3 - i, by omega⟩
  have hlen : ((List.range (i + 1)).filter fun k => decide (0 < d.width k)).length = presentBelow d i + 1 := by
    simp [List.range_succ, hw, presentBelow]
  rw [present_eq_filter_range, hm, List.range_add, List.filter_append, ← hlen, List.take_left']
  rfl

/-- The widths up to a present slot add up to those of all slots up to it, the absent ones having width 0. -/
theorem take_widths_sum {d : Descriptor} {i : Nat} (hi : i < 4) (hw : 0 < d.width i) :
    (d.widths.take (presentBelow d i + 1)).sum = widthBelow d i + d.width i := by
  rw [Descriptor.widths, ← List.map_take, take_present hi hw, sum_map_filter_pos, ← widthBelow_succ, widthBelow]

theorem presentBelow_lt {d : Descriptor} {i : Nat} (hi : i < 4) (hw : 0 < d.width i) : presentBelow d i < d.compCount := by
  rw [← idxOf_present hi hw]
  exact List.idxOf_lt_length_iff.2 ((mem_present hi).2 hw)

theorem widths_getD_presentBelow {d : Descriptor} {i : Nat} (hi : i < 4) (hw : 0 < d.width i) :
    d.widths.getD (presentBelow d i) 0 = d.width i := by
  rw [← idxOf_present hi hw, widths_getD_idxOf ((mem_present hi).2 hw)]

/-! The components of a group. -/

/-- A component on the sub-byte path is the bits of its chunk at its offset (41_unpack R161). -/
theorem subbyteComp_eq_bitsAt {d : Descriptor} {i : Nat} (hi : i < 4) (hw : 0 < d.width i) (e : Endian) (b : List Nat)
    (g : Nat) : subbyteComp d e b g (presentBelow d i) =
      bitsAt (bytesNum e (chunkBytes d) fun t => b.getD (g / chunkGroups d * chunkBytes d + t) 0) (chunkBytes d)
        (g % chunkGroups d * d.widthSum + widthBelow d i) (d.width i) := by
  simp only [subbyteComp, bitsAt, bitsBelow, widths_getD_presentBelow hi hw, take_widths_sum hi hw, numE_window,
    Nat.shiftRight_eq_div_pow, ← Nat.add_assoc, ← Nat.sub_sub]

/-- The lane of component `j` of group `g` (41_unpack R158). -/
theorem laneComp_eq_bytesNum (single : Bool) (d : Descriptor) (e : Endian) (lb : Nat) (b : List Nat) (g j : Nat) :
    laneComp single d e lb b g j =
      let lane := bytesNum e lb fun t => b.getD (g * (d.compCount * lb) + j * lb + t) 0
      if single then lane / 2 ^ d.shift % 2 ^ d.bpc0 else lane := by
  simp only [laneComp, numE_window, Nat.shiftRight_eq_div_pow]

/-- Component `j` of group `g` of a DECODE's groups, 0 in the padding groups (41_unpack R162). -/
def paddedComp (s : State) (single : Bool) (g j : Nat) : Nat :=
  let d := s.regs.descriptor
  if g < groupCount (selectPath single d) d s.regs.inLen.toNat then
    groupComp (selectPath single d) single d (order s) (decodeBuffer s) g j
  else 0

theorem unpack_decodeBuffer_getD (s : State) (single : Bool) (w g : Nat) {j : Nat}
    (hj : j < s.regs.descriptor.compCount) :
    ((unpack single s.regs.descriptor (order s) (decodeBuffer s) w).getD g []).getD j 0 = paddedComp s single g j := by
  rw [unpack_getD _ _ _ _ _ _ _ hj, decodeBuffer_length, paddedComp]

/-! A DECODE that succeeds. -/

theorem descriptor_checks {s : State} {fam : Family} (hcheck : decodeCheck s = .ok fam) :
    generalFault s.regs.descriptor = false ∧ codecFault fam.codec s.regs.descriptor = none := by
  obtain ⟨-, ⟨-, hchecked⟩, -⟩ := decodeCheck_ok hcheck
  obtain ⟨hgeneral, -, hcodec⟩ := checkDescriptor_ok hchecked
  exact ⟨hgeneral, hcodec⟩

theorem singleFault_of_decodeCheck {s : State} {fam : Family} (hfam : fam = .gray ∨ ∃ o, fam = .bayer o)
    (hcheck : decodeCheck s = .ok fam) : singleFault s.regs.descriptor = false := by
  have hcodec := codecFault_none (descriptor_checks hcheck).2
  obtain rfl | ⟨o, rfl⟩ := hfam <;> exact hcodec

theorem rgbFault_of_decodeCheck {s : State} {o : RgbOrder} (hcheck : decodeCheck s = .ok (.rgb o)) :
    rgbFault o s.regs.descriptor = false := codecFault_none (c := .rgb o) (descriptor_checks hcheck).2

/-- The DECODE completes, and COMP holds the decoded elements below L. -/
theorem execDecode_elems {s : State} {fam : Family} (hcheck : decodeCheck s = .ok fam)
    (hfits : (decodedImage s fam).l ≤ s.impl.compMemWords) :
    ∃ t, exec .decode s = .next t ∧ t.img = some (decodedImage s fam) ∧
      ∀ i, i < (decodedImage s fam).l → compElem t i = BitVec.ofNat 16 ((decodedComp s fam).getD i 0) :=
  ⟨_, exec_eq_commit (i := .decode) (decodeEffects_of_check hcheck hfits), commit_img_of_decoded s rfl,
    fun i hi => by rw [compElem_commit_decoded hcheck rfl, if_pos hi]⟩

/-- The sizes of a GRAY or BAYER image (44_bayer R260, 45_gray R290). -/
theorem decodedImage_single (s : State) {fam : Family} (hfam : fam = .gray ∨ ∃ o, fam = .bayer o) :
    let d := s.regs.descriptor
    let h := ceilDiv (groupCount (selectPath true d) d s.regs.inLen.toNat) s.regs.width.toNat
    (decodedImage s fam).h = h ∧ (decodedImage s fam).l = s.regs.width.toNat * h ∧
      (decodedImage s fam).subbyte = (selectPath true d).isSubbyte := by
  obtain rfl | ⟨o, rfl⟩ := hfam <;> exact ⟨rfl, rfl, rfl⟩

/-- The sizes of an RGB image (42_rgb R191). -/
theorem decodedImage_rgb (s : State) (o : RgbOrder) :
    let d := s.regs.descriptor
    let h := ceilDiv (groupCount (selectPath false d) d s.regs.inLen.toNat) s.regs.width.toNat
    (decodedImage s (.rgb o)).h = h ∧ (decodedImage s (.rgb o)).l = 4 * (s.regs.width.toNat * h) ∧
      (decodedImage s (.rgb o)).subbyte = (selectPath false d).isSubbyte := ⟨rfl, rfl, rfl⟩

theorem decodedComp_single_getD {s : State} {fam : Family} (hfam : fam = .gray ∨ ∃ o, fam = .bayer o)
    (hcheck : decodeCheck s = .ok fam) (p : Nat) : (decodedComp s fam).getD p 0 = paddedComp s true p 0 := by
  obtain ⟨-, -, hcount, -⟩ := present_single (singleFault_of_decodeCheck hfam hcheck)
  have hj : 0 < s.regs.descriptor.compCount := hcount ▸ Nat.one_pos
  rw [← unpack_decodeBuffer_getD s true s.regs.width.toNat p hj, ← bayerDecode_getD]
  obtain rfl | ⟨o, rfl⟩ := hfam <;> rfl

/-- Element `4·p + i` of an RGB image: a component, or SYN in an absent slot (42_rgb R191, R192). -/
theorem decodedComp_rgb_getD {s : State} {o : RgbOrder} (hcheck : decodeCheck s = .ok (.rgb o)) {p i : Nat}
    (hp : p < s.regs.width.toNat * (decodedImage s (.rgb o)).h) (hi : i < 4) :
    (decodedComp s (.rgb o)).getD (4 * p + i) 0 =
      if s.regs.descriptor.width i = 0 then synValue s.regs.descriptor
      else paddedComp s false p (presentBelow s.regs.descriptor i) := by
  obtain ⟨-, -, hwidth, -⟩ := decodeCheck_ok hcheck
  have hlen : p < (unpack false s.regs.descriptor (order s) (decodeBuffer s) s.regs.width.toNat).length := by
    rw [unpack_length _ _ _ _ _ hwidth, decodeBuffer_length]
    exact hp
  have helem := rgbDecode_getD s.regs.descriptor (order s) (decodeBuffer s) s.regs.width.toNat p i hlen hi
  by_cases hw : 0 < s.regs.descriptor.width i
  · rw [if_neg (by omega), ← unpack_decodeBuffer_getD s false s.regs.width.toNat p (presentBelow_lt hi hw),
      ← idxOf_present hi hw]
    rwa [if_pos hw] at helem
  · rw [if_pos (by omega)]
    rwa [if_neg hw] at helem

/-! The lane path (41_unpack R158). -/

theorem paddedComp_lane {s : State} {single : Bool} {lb : Nat} (hpath : selectPath single s.regs.descriptor = .lane lb)
    (g j : Nat) : paddedComp s single g j =
      let d := s.regs.descriptor
      let lane := bytesNum (order s) lb fun t => bufByte s (g * (d.compCount * lb) + j * lb + t)
      if g < ceilDiv s.regs.inLen.toNat (d.compCount * lb) then
        (if single then lane / 2 ^ d.shift % 2 ^ d.bpc0 else lane) else 0 := by
  simp only [paddedComp, hpath, groupCount, groupComp, laneComp_eq_bytesNum, decodeBuffer_getD]

theorem selectPath_single {d : Descriptor} (hsubbyte : d.subbyte = false) :
    selectPath true d = .lane (ceilDiv (d.bpc0 + d.shift) 8) := by
  simp [selectPath, hsubbyte]

/-- Settles O24: the one component of a group is its lane, shifted and cut. -/
theorem decodeSingleLaneSamples : Obligations.DecodeSingleLaneSamples := by
  intro s fam hfam hcheck hsubbyte d lb ng w h hfits
  have hpath : selectPath true d = .lane lb := selectPath_single hsubbyte
  obtain ⟨-, -, hcount, -⟩ := present_single (singleFault_of_decodeCheck hfam hcheck)
  have hgroups : groupCount (selectPath true d) d s.regs.inLen.toNat = ng := by
    rw [hpath, groupCount, hcount, Nat.one_mul]
  obtain ⟨hheight, hlen, hsub⟩ := decodedImage_single s hfam
  rw [hgroups] at hheight hlen
  obtain ⟨t, hexec, himg, helems⟩ := execDecode_elems hcheck (hlen ▸ hfits)
  refine ⟨t, _, hexec, himg, hheight, hlen, by rw [hsub, hpath]; rfl, fun p hp => ?_⟩
  rw [helems p (hlen ▸ hp), decodedComp_single_getD hfam hcheck, paddedComp_lane hpath]
  simp only [hcount, Nat.one_mul, Nat.zero_mul, Nat.add_zero, if_true]
  rfl

/-- The colour slots of a descriptor that passes the RGB checks are present (41_unpack R154). -/
theorem width_red_pos {o : RgbOrder} {d : Descriptor} (h : rgbFault o d = false) : 0 < d.width (rgbSlots o).1 := by
  have hnot := mt (rgbFault_iff o d).2 (by simp [h])
  push Not at hnot
  exact Nat.pos_of_ne_zero hnot.1

section
variable {d : Descriptor} {w : Nat} (hcommon : ∀ i, i < 4 → d.width i = 0 ∨ d.width i = w)
include hcommon

theorem widths_eq_of_common : ∀ x ∈ d.widths, x = w := by
  intro x hx
  obtain ⟨i, hi, rfl⟩ := List.mem_map.1 hx
  obtain ⟨hlt, hpos⟩ := mem_present_iff.1 hi
  exact (hcommon i hlt).resolve_left (by omega)

theorem widthMax_of_common {i : Nat} (hi : i < 4) (hpos : 0 < d.width i) : d.widthMax = w := by
  have hw : d.width i = w := (hcommon i hi).resolve_left (by omega)
  have h0 : d.bpc0 = 0 ∨ d.bpc0 = w := hcommon 0 (by decide)
  have h1 : d.bpc1 = 0 ∨ d.bpc1 = w := hcommon 1 (by decide)
  have h2 : d.bpc2 = 0 ∨ d.bpc2 = w := hcommon 2 (by decide)
  have h3 : d.bpc3 = 0 ∨ d.bpc3 = w := hcommon 3 (by decide)
  have hmax := width_le_max d i
  unfold Descriptor.widthMax at hmax ⊢
  omega

end

/-- One common width of 8 or 16 selects lanes of 1 or 2 bytes (41_unpack R155). -/
theorem selectPath_of_common {d : Descriptor} {lb i : Nat} (hsubbyte : d.subbyte = false) (hlb : lb = 1 ∨ lb = 2)
    (hcommon : ∀ i, i < 4 → d.width i = 0 ∨ d.width i = 8 * lb) (hi : i < 4) (hpos : 0 < d.width i) :
    selectPath false d = .lane lb := by
  have hwidths := widths_eq_of_common hcommon
  have hmem : d.width i ∈ d.widths := List.mem_map_of_mem ((mem_present hi).2 hpos)
  have hall (v : Nat) : d.widths.all (· == v) = decide (8 * lb = v) := by
    rw [Bool.eq_iff_iff, List.all_eq_true, decide_eq_true_eq]
    refine ⟨fun h => ?_, fun h x hx => by rw [hwidths x hx, h, beq_self_eq_true]⟩
    rw [← hwidths _ hmem]
    exact beq_iff_eq.1 (h _ hmem)
  obtain rfl | rfl := hlb <;> simp [selectPath, hsubbyte, hall]

/-- Settles O25: the one common width selects the lane path, and an absent slot's SYN is all ones of that width. -/
theorem decodeRgbLaneElements : Obligations.DecodeRgbLaneElements := by
  intro s o lb hcheck hsubbyte hlb d hcommon n ng w h hfits
  have hred := width_red_pos (rgbFault_of_decodeCheck hcheck)
  have hslot := (rgbSlots_lt o).1
  have hpath : selectPath false d = .lane lb := selectPath_of_common hsubbyte hlb hcommon hslot hred
  have hsyn : synValue d = 2 ^ (8 * lb) - 1 := by rw [synValue, widthMax_of_common hcommon hslot hred]
  have hgroups : groupCount (selectPath false d) d s.regs.inLen.toNat = ng := by rw [hpath]; rfl
  obtain ⟨hheight, hlen, hsub⟩ := decodedImage_rgb s o
  replace hheight : (decodedImage s (.rgb o)).h = h := by rw [hheight, hgroups]
  replace hlen : (decodedImage s (.rgb o)).l = 4 * (w * h) := by rw [hlen, hgroups]
  obtain ⟨t, hexec, himg, helems⟩ := execDecode_elems hcheck (hlen ▸ hfits)
  refine ⟨t, _, hexec, himg, hheight, hlen, by rw [hsub, hpath]; rfl, fun p i hp hi => ?_⟩
  rw [helems _ (by rw [hlen]; omega), decodedComp_rgb_getD hcheck (hheight ▸ hp) hi, hsyn, paddedComp_lane hpath]
  rfl

/-! The sub-byte path (41_unpack R160, R161). -/

theorem paddedComp_subbyte {s : State} {single : Bool} {i : Nat}
    (hpath : selectPath single s.regs.descriptor = .subbyte) (hi : i < 4) (hw : 0 < s.regs.descriptor.width i) (g : Nat) :
    paddedComp s single g (presentBelow s.regs.descriptor i) =
      let d := s.regs.descriptor
      if g < ceilDiv s.regs.inLen.toNat (chunkBytes d) * chunkGroups d then
        bitsAt (bytesNum (order s) (chunkBytes d) fun t => bufByte s (g / chunkGroups d * chunkBytes d + t)) (chunkBytes d)
          (g % chunkGroups d * d.widthSum + widthBelow d i) (d.width i)
      else 0 := by
  simp only [paddedComp, hpath, groupCount, groupComp, subbyteComp_eq_bitsAt hi hw, decodeBuffer_getD]

theorem eq_subbyte_of_isSubbyte {p : Path} (h : true = p.isSubbyte) : p = .subbyte := by
  cases p with
  | lane lb => cases h
  | subbyte => rfl

theorem family_cases (fam : Family) :
    (∃ o, fam = .rgb o) ∨ (∃ y, fam = .yuv y) ∨ (fam = .gray ∨ ∃ o, fam = .bayer o) := by
  cases fam <;> simp

/-- Settles O26: each component is its chunk's bits, and an absent slot's SYN is all ones of the widest width. -/
theorem decodeSubbyteComponents : Obligations.DecodeSubbyteComponents := by
  intro s fam hcheck hsubbyte d t8 gs ng w h value hfits
  obtain ⟨t, hexec, himg, helems⟩ := execDecode_elems hcheck hfits
  obtain ⟨o, rfl⟩ | ⟨y, rfl⟩ | hfam := family_cases fam
  · obtain ⟨hheight, hlen, hsub⟩ := decodedImage_rgb s o
    have hpath : selectPath false d = .subbyte := eq_subbyte_of_isSubbyte (hsubbyte.symm.trans hsub)
    have hgroups : groupCount (selectPath false d) d s.regs.inLen.toNat = ng := by rw [hpath]; rfl
    replace hheight : (decodedImage s (.rgb o)).h = h := by rw [hheight, hgroups]
    replace hlen : (decodedImage s (.rgb o)).l = 4 * (w * h) := by rw [hlen, hgroups]
    refine ⟨t, _, hexec, himg, hheight, hsubbyte, fun o' _ => ⟨hlen, fun p i hp hi => ?_⟩, by simp⟩
    rw [helems _ (by rw [hlen]; omega), decodedComp_rgb_getD hcheck (hheight ▸ hp) hi]
    by_cases hw : d.width i = 0
    · rw [if_pos hw, if_pos hw, synValue]
    · rw [if_neg hw, if_neg hw, paddedComp_subbyte hpath hi (Nat.pos_of_ne_zero hw)]
      rfl
  · cases hsubbyte
  · obtain ⟨hheight, hlen, hsub⟩ := decodedImage_single s hfam
    have hpath : selectPath true d = .subbyte := eq_subbyte_of_isSubbyte (hsubbyte.symm.trans hsub)
    have hgroups : groupCount (selectPath true d) d s.regs.inLen.toNat = ng := by rw [hpath]; rfl
    rw [hgroups] at hheight hlen
    obtain ⟨⟨hpos, -⟩, -⟩ := singleFault_false (singleFault_of_decodeCheck hfam hcheck)
    have hfamily (o : RgbOrder) (h : fam = .rgb o) : False := by
      subst h
      simp at hfam
    refine ⟨t, _, hexec, himg, hheight, hsubbyte, fun o h => (hfamily o h).elim, fun _ => ⟨hlen, fun p hp => ?_⟩⟩
    rw [helems p (hlen ▸ hp), decodedComp_single_getD hfam hcheck]
    exact congrArg _ (paddedComp_subbyte hpath (i := 0) (by decide) hpos p)

/-! Sizes and repetition (41_unpack R167, 43_yuv R242, 40_commands R122). -/

/-- Settles O27: the latched image has its family's sizes, and a width of at least 1 divides them. -/
theorem decodedSizeInvariant : Obligations.DecodedSizeInvariant := by
  intro s t img hexec _ herr himg
  obtain ⟨fam, e, hcheck, -, hdecoded, -, rfl⟩ := execDecode_inversion hexec herr
  obtain rfl : decodedImage s fam = img := Option.some.inj ((commit_img_of_decoded s hdecoded).symm.trans himg)
  obtain ⟨-, hw, hsizes, -⟩ := decodedImage_ok hcheck
  refine ⟨rfl, hw, ?_⟩
  generalize decodedImage s fam = img at hw hsizes ⊢
  cases hfam : img.family with
  | rgb o =>
    simp only [sizesOk, hfam] at hsizes
    have hlen : img.l = img.w * 4 * img.h := by rw [hsizes]; ring
    exact ⟨by simp [hlen], by rw [hlen, Nat.mul_div_cancel_left _ (by omega)]⟩
  | gray | bayer o =>
    simp only [sizesOk, hfam] at hsizes
    exact ⟨by simp [hsizes], by rw [hsizes, Nat.mul_div_cancel_left _ hw]⟩
  | yuv y =>
    simp only [sizesOk, hfam] at hsizes ⊢
    split
    case isTrue h420 => simpa only [h420, if_true] using hsizes
    case isFalse h422 =>
      rw [if_neg h422] at hsizes
      exact ⟨by simp [hsizes], by rw [hsizes, Nat.mul_div_cancel_left _ (by omega)]⟩

/-- Settles O28: a DECODE writes none of its operands, and PENDING is not one. -/
theorem decodeTwiceIsIdentical : Obligations.DecodeTwiceIsIdentical := by
  intro s t p hexec _ herr
  obtain ⟨fam, e, hcheck, hfits, hdecoded, -, rfl⟩ := execDecode_inversion hexec herr
  refine ⟨_, exec_eq_commit (i := .decode)
    (decodeEffects_of_check (s := { commit s e with pending := p }) (fam := fam) hcheck hfits), ?_, ?_, rfl⟩
  · rw [commit_img_of_decoded s hdecoded, commit_img_of_decoded _ rfl]
    rfl
  · rw [commit_comp s, hdecoded]
    rfl

end Sys2Proof.Machine
end

section
/-! The samples of a YUV frame (43_yuv R224–R230) and the reference conversion (R236), and the obligations on them. -/

namespace Sys2Proof.Machine

/-! The padded view: the bound of the frame's bytes is `getD`'s own. -/

theorem ite_and_lt_length_getD (p : Prop) [Decidable p] (xs : List Nat) (k : Nat) :
    (if p ∧ k < xs.length then xs.getD k 0 else 0) = if p then xs.getD k 0 else 0 := by
  by_cases hk : k < xs.length
  · simp only [hk, and_true]
  · rw [List.getD_eq_default _ _ (by omega), ite_self, ite_self]

theorem paddedView_eq (fb : List Nat) (w i : Nat) :
    paddedView fb w i = if i % (w + w % 2) < w then fb.getD (i / (w + w % 2) * w + i % (w + w % 2)) 0 else 0 :=
  ite_and_lt_length_getD _ fb _

theorem packedView_eq (fb : List Nat) (w r j : Nat) :
    packedView fb w r j = if j < 2 * w then fb.getD (r * (2 * w) + j) 0 else 0 :=
  ite_and_lt_length_getD _ fb _

theorem padEven_of_even {x : Nat} (h : x % 2 = 0) : padEven x = x := by rw [padEven, h, Nat.add_zero]

theorem paddedView_of_even {w : Nat} (hpos : 0 < w) (h : w % 2 = 0) (fb : List Nat) (i : Nat) :
    paddedView fb w i = fb.getD i 0 := by
  rw [paddedView_eq, h, Nat.add_zero, if_pos (Nat.mod_lt i hpos), Nat.div_add_mod']

theorem packedView_of_lt {w j : Nat} (h : j < 2 * w) (fb : List Nat) (r : Nat) :
    packedView fb w r j = fb.getD (r * (2 * w) + j) 0 := by
  rw [packedView_eq, if_pos h]

/-- The luma of the padded view is the frame's own byte at every width (43_yuv R225). -/
theorem paddedView_luma (fb : List Nat) {w r c : Nat} (hc : c < w) :
    paddedView fb w (r * padEven w + c) = fb.getD (r * w + c) 0 := by
  have hlt : c < w + w % 2 := by omega
  rw [paddedView_eq, padEven, rowMajor_div hlt, rowMajor_mod hlt, if_pos hc]

/-- In a row of even width every place of a pair lies in the row (43_yuv R229). -/
theorem packedPlace_lt {w c p : Nat} (hc : c < w) (heven : w % 2 = 0) (hp : p < 4) : 4 * (c / 2) + p < 2 * w := by omega

/-- Settles O32: the model's views are the statement's, and at an even width they are the frame's bytes. -/
theorem yuvSamplePositions : Obligations.YuvSamplePositions := by
  intro fb h w r c _ hc wp hp v v2
  have hview (i : Nat) : paddedView fb w i = v i := paddedView_eq fb w i
  have hpacked (j : Nat) : packedView fb w r j = v2 j := packedView_eq fb w r j
  have hluma := paddedView_luma fb (r := r) hc
  refine ⟨fun o => ⟨hpacked _, Prod.ext (hpacked _) (hpacked _)⟩, fun o => ⟨hluma, hluma, hluma⟩,
    Prod.ext (hview _) (hview _), Prod.ext (hview _) (hview _), Prod.ext (hview _) (hview _), rfl, rfl, rfl,
    fun hw => ⟨fun o _ => ?_, fun _ => ?_, fun hh _ => ⟨?_, ?_⟩⟩⟩
  · obtain ⟨hy0, hu, hy1, hv⟩ := packedPlaces_lt o
    have hbyte {p : Nat} (hplace : p < 4) :
        packedView fb w r (4 * (c / 2) + p) = fb.getD (r * (2 * w) + 4 * (c / 2) + p) 0 := by
      rw [packedView_of_lt (packedPlace_lt hc hw hplace), Nat.add_assoc]
    have hy : (if c % 2 = 0 then (packedPlaces o).1 else (packedPlaces o).2.2.1) < 4 := by split <;> assumption
    exact ⟨hbyte hy, Prod.ext (hbyte hu) (hbyte hv)⟩
  all_goals
    have hbyte := paddedView_of_even (Nat.zero_lt_of_lt hc) hw fb
    simp only [chromaAt, planeUV, chroma, padEven_of_even hw, hbyte]
  all_goals simp only [padEven_of_even hh]

/-! The reference conversion (43_yuv R236). -/

/-- A channel of the reference conversion from its fixed-point sum. -/
def cscChannel (sum : Int) : Byte := BitVec.ofNat 8 (clamp255 ((sum + 524288) / 1048576))

theorem clamp255_le (x : Int) : clamp255 x ≤ 255 := by
  unfold clamp255
  omega

theorem le_clamp255_iff {k : Nat} (x : Int) (hlow : 1 ≤ k) (hhigh : k ≤ 255) : k ≤ clamp255 x ↔ (k : Int) ≤ x := by
  unfold clamp255
  omega

theorem cscChannel_toNat (sum : Int) : (cscChannel sum).toNat = clamp255 ((sum + 524288) / 1048576) := by
  rw [cscChannel, BitVec.toNat_ofNat, Nat.mod_eq_of_lt]
  exact Nat.lt_succ_of_le (clamp255_le _)

/-- A channel reaches `k` when its sum, half a unit added, reaches `k` units. -/
theorem le_cscChannel_iff {k : Nat} (sum : Int) (hlow : 1 ≤ k) (hhigh : k ≤ 255) :
    k ≤ (cscChannel sum).toNat ↔ (k : Int) * 2 ^ 20 ≤ sum + 2 ^ 19 := by
  rw [cscChannel_toNat, le_clamp255_iff _ hlow hhigh, Int.le_ediv_iff_mul_le (by decide)]
  norm_num

/-- The luma term of the fixed-point sums: 0 at and below luma 16. -/
def cscLuma (y : Byte) : Int := if y.toNat ≤ 16 then 0 else ((y.toNat : Int) - 16) * 1220542

theorem cscBt601_eq (y u v : Byte) :
    let du : Int := (u.toNat : Int) - 128
    let dv : Int := (v.toNat : Int) - 128
    cscBt601 y u v = (cscChannel (cscLuma y + 1673527 * dv), cscChannel (cscLuma y - 852492 * dv - 409993 * du),
      cscChannel (cscLuma y + 2116026 * du)) := by
  have hluma : max 0 ((y.toNat : Int) - 16) * 1220542 = cscLuma y := by
    unfold cscLuma
    split <;> omega
  simp only [cscBt601, hluma, cscChannel]
  ring_nf

theorem cscBt601_neutral (y : Byte) :
    cscBt601 y 128 128 = (cscChannel (cscLuma y), cscChannel (cscLuma y), cscChannel (cscLuma y)) := by
  rw [cscBt601_eq]
  simp

/-- Settles O33: each channel is the clamped quotient of its sum, and at neutral chroma the three sums are the luma's. -/
theorem referenceCscNeutralChromaIsGrey : Obligations.ReferenceCscNeutralChromaIsGrey := by
  refine ⟨fun y u v k hlow hhigh => ?_, fun y => ?_⟩
  · rw [cscBt601_eq]
    exact ⟨le_cscChannel_iff _ hlow hhigh, le_cscChannel_iff _ hlow hhigh, le_cscChannel_iff _ hlow hhigh⟩
  · rw [cscBt601_neutral]
    refine ⟨rfl, rfl, fun hdark => ?_, fun hlight => ?_⟩
    · rw [cscLuma, if_pos hdark]
      decide
    · have hwhite : 255 ≤ (cscChannel (cscLuma y)).toNat := by
        rw [le_cscChannel_iff _ (by decide) (by decide), cscLuma, if_neg (by omega)]
        omega
      have hbound := (cscChannel (cscLuma y)).isLt
      exact BitVec.eq_of_toNat_eq (Nat.le_antisymm (Nat.le_of_lt_succ hbound) hwhite)

end Sys2Proof.Machine
end

section
/-! DEMOSAIC and the rendering of the BAYER family (44_bayer R261–R268), and the obligations on them. -/

namespace Sys2Proof.Machine

open Sys2Proof.Claims

/-! A triple of colours, channel by channel. -/

/-- The channel of a triple. -/
def channelOf (t : Nat × Nat × Nat) : Channel → Nat
  | .r => t.1
  | .g => t.2.1
  | .b => t.2.2

theorem demosaicBilinear_channel (o : BayerOrder) (m : List Byte) (rows w r c : Nat) (x : Channel) :
    channelOf (demosaicBilinear o m rows w r c) x = bilinearChannel o m rows w r c x := by cases x <;> rfl

/-- The mean, rounded half up, 0 of nothing (44_bayer R268). -/
def roundedMean (vs : List Nat) : Nat := if vs.length = 0 then 0 else (vs.sum + vs.length / 2) / vs.length

theorem roundedMean_perm {vs us : List Nat} (h : vs.Perm us) : roundedMean vs = roundedMean us := by
  rw [roundedMean, roundedMean, h.length_eq, h.sum_eq]

theorem roundedMean_zeros {vs : List Nat} (h : ∀ v ∈ vs, v = 0) : roundedMean vs = 0 := by
  rw [roundedMean, List.sum_eq_zero h, Nat.zero_add]
  split
  · rfl
  · exact Nat.div_eq_of_lt (by omega)

theorem bilinearChannel_of_eq {o : BayerOrder} {r c : Nat} {x : Channel} (h : cfaColor o r c = x) (m : List Byte)
    (rows w : Nat) : bilinearChannel o m rows w r c x = mosaicAt m w r c := if_pos h

theorem bilinearChannel_of_ne {o : BayerOrder} {r c : Nat} {x : Channel} (h : cfaColor o r c ≠ x) (m : List Byte)
    (rows w : Nat) : bilinearChannel o m rows w r c x =
      roundedMean ((neighbours o rows w r c x).map fun q => mosaicAt m w q.1 q.2) := by
  rw [bilinearChannel, if_neg h, roundedMean, List.length_map]

/-! P1 and P3 (44_bayer R265). -/

theorem mosaicAt_of_zeros {m : List Byte} (h : ∀ x ∈ m, x = 0) (w r c : Nat) : mosaicAt m w r c = 0 := by
  have hzero : m.getD (r * w + c) 0 = 0 := by
    by_cases hlt : r * w + c < m.length
    · rw [List.getD_eq_getElem _ _ hlt]
      exact h _ (List.getElem_mem hlt)
    · exact List.getD_eq_default _ _ (by omega)
  rw [mosaicAt, hzero]
  rfl

theorem demosaic_zeros (p : DemosaicChoice) (o : BayerOrder) {m : List Byte} (h : ∀ x ∈ m, x = 0) (rows w r c : Nat) :
    demosaic p o m rows w r c = (0, 0, 0) := by
  cases p with
  | reference =>
    have hchannel (x : Channel) : bilinearChannel o m rows w r c x = 0 := by
      by_cases hx : cfaColor o r c = x
      · rw [bilinearChannel_of_eq hx, mosaicAt_of_zeros h]
      · rw [bilinearChannel_of_ne hx]
        exact roundedMean_zeros (List.forall_mem_map.2 fun q _ => mosaicAt_of_zeros h w q.1 q.2)
    simp only [demosaic, demosaicBilinear, hchannel]
  | platform =>
    have hall : m.all (· == 0) = true := List.all_eq_true.2 fun x hx => beq_iff_eq.2 (h x hx)
    simp only [demosaic, demosaicPlatform, hall, if_true]

theorem demosaicPlatform_channel_own (o : BayerOrder) (m : List Byte) (rows w r c : Nat) :
    channelOf (demosaicPlatform o m rows w r c) (cfaColor o r c) = mosaicAt m w r c := by
  by_cases hall : m.all (· == 0) = true
  · have hzeros : ∀ x ∈ m, x = 0 := fun x hx => beq_iff_eq.1 (List.all_eq_true.1 hall x hx)
    rw [mosaicAt_of_zeros hzeros, demosaicPlatform, if_pos hall]
    cases cfaColor o r c <;> rfl
  · rw [demosaicPlatform, if_neg hall]
    cases hx : cfaColor o r c <;> rfl

/-- The cell's own channel is its sample (P1). -/
theorem demosaic_channel_own (p : DemosaicChoice) (o : BayerOrder) (m : List Byte) (rows w r c : Nat) :
    channelOf (demosaic p o m rows w r c) (cfaColor o r c) = mosaicAt m w r c := by
  cases p with
  | reference => exact (demosaicBilinear_channel o m rows w r c _).trans (bilinearChannel_of_eq rfl m rows w)
  | platform => exact demosaicPlatform_channel_own o m rows w r c

/-- Settles O36: P1 and P3 of either choice. -/
theorem demosaicMeetsItsProperties : Obligations.DemosaicMeetsItsProperties := by
  intro p o m rows w r c _ _
  have hown := demosaic_channel_own p o m rows w r c
  refine ⟨fun h => ?_, fun h => ?_, fun h => ?_, fun h => demosaic_zeros p o h rows w r c⟩ <;>
    rw [h] at hown <;> exact hown

/-! The neighbours of a cell (44_bayer R268). -/

theorem mem_region_zero {α : Type} {h w : Nat} {f : Nat → Nat → α} {x : α} :
    x ∈ region 0 h 0 w f ↔ ∃ i, i < h ∧ ∃ j, j < w ∧ f i j = x := by
  simp [region]

theorem nodup_around (r c : Nat) : (region 0 3 0 3 fun i j => (r + i, c + j)).Nodup := by
  simp [region, List.range_succ]

theorem mem_neighbours {o : BayerOrder} {rows w r c a b : Nat} {x : Channel} :
    (a, b) ∈ neighbours o rows w r c x ↔
      (a < rows ∧ b < w) ∧ a ≤ r + 1 ∧ r ≤ a + 1 ∧ b ≤ c + 1 ∧ c ≤ b + 1 ∧ cfaColor o a b = x := by
  simp only [neighbours, List.mem_filterMap, mem_region_zero, Option.ite_none_right_eq_some, Option.some.injEq,
    Prod.mk.injEq]
  constructor
  · rintro ⟨⟨r1, c1⟩, ⟨i, hi, j, hj, hq⟩, ⟨hr, hrows, hc, hw, hx⟩, rfl, rfl⟩
    cases hq
    exact ⟨⟨hrows, hw⟩, by omega, by omega, by omega, by omega, hx⟩
  · rintro ⟨⟨hrows, hw⟩, h1, h2, h3, h4, hx⟩
    refine ⟨(a + 1, b + 1), ⟨a + 1 - r, by omega, b + 1 - c, by omega, ?_⟩, ⟨by omega, hrows, by omega, hw, hx⟩, rfl, rfl⟩
    exact Prod.ext (by simp; omega) (by simp; omega)

theorem nodup_neighbours (o : BayerOrder) (rows w r c : Nat) (x : Channel) : (neighbours o rows w r c x).Nodup := by
  refine (nodup_around r c).filterMap fun q q' p hq hq' => ?_
  simp only [Option.mem_def, Option.ite_none_right_eq_some, Option.some.injEq] at hq hq'
  obtain ⟨⟨hr, -, hc, -⟩, rfl⟩ := hq
  obtain ⟨⟨hr', -, hc', -⟩, hp⟩ := hq'
  have hfst := congrArg Prod.fst hp
  have hsnd := congrArg Prod.snd hp
  simp only at hfst hsnd
  exact Prod.ext (by omega) (by omega)

/-- The cells of a colour among the nine around a cell, as the statement lists them: row by row over the whole frame. -/
def frameCells (o : BayerOrder) (rows w r c : Nat) (x : Channel) : List (Nat × Nat) :=
  (List.range rows).flatMap fun a => ((List.range w).filter fun b =>
    decide (a ≤ r + 1 ∧ r ≤ a + 1 ∧ b ≤ c + 1 ∧ c ≤ b + 1 ∧ cfaColor o a b = x)).map (Prod.mk a)

theorem mem_frameCells {o : BayerOrder} {rows w r c a b : Nat} {x : Channel} :
    (a, b) ∈ frameCells o rows w r c x ↔
      (a < rows ∧ b < w) ∧ a ≤ r + 1 ∧ r ≤ a + 1 ∧ b ≤ c + 1 ∧ c ≤ b + 1 ∧ cfaColor o a b = x := by
  simp only [frameCells, List.mem_flatMap, List.mem_range, List.mem_map, List.mem_filter, decide_eq_true_eq,
    Prod.mk.injEq]
  constructor
  · rintro ⟨a', ha, b', ⟨hb, hnear⟩, rfl, rfl⟩
    exact ⟨⟨ha, hb⟩, hnear⟩
  · rintro ⟨⟨ha, hb⟩, hnear⟩
    exact ⟨a, ha, b, ⟨hb, hnear⟩, rfl, rfl⟩

theorem nodup_frameCells (o : BayerOrder) (rows w r c : Nat) (x : Channel) : (frameCells o rows w r c x).Nodup := by
  refine List.nodup_flatMap.2 ⟨fun a _ => (List.nodup_range.filter _).map (Prod.mk_right_injective a), ?_⟩
  refine List.nodup_range.imp fun {a a'} hne => ?_
  simp only [Function.onFun, List.disjoint_left, List.mem_map]
  rintro q ⟨b, -, rfl⟩ ⟨b', -, hq⟩
  exact hne (congrArg Prod.fst hq).symm

theorem frameCells_perm_neighbours (o : BayerOrder) (rows w r c : Nat) (x : Channel) :
    (frameCells o rows w r c x).Perm (neighbours o rows w r c x) :=
  (List.perm_ext_iff_of_nodup (nodup_frameCells o rows w r c x) (nodup_neighbours o rows w r c x)).2 fun _ =>
    mem_frameCells.trans mem_neighbours.symm

/-! A cell with all eight around it in the frame. -/

theorem cfaColor_add_two_row (o : BayerOrder) (r c : Nat) : cfaColor o (r + 2) c = cfaColor o r c := by
  simp [cfaColor, tilePos]

theorem cfaColor_add_two_col (o : BayerOrder) (r c : Nat) : cfaColor o r (c + 2) = cfaColor o r c := by
  simp [cfaColor, tilePos]

/-- The colours of a 2×2 window of the pattern, by the colour of its lower right cell (44_bayer R261). -/
theorem cfaColor_window (o : BayerOrder) (r c : Nat) :
    (cfaColor o r c, cfaColor o r (c + 1), cfaColor o (r + 1) c, cfaColor o (r + 1) (c + 1)) ∈
      [(.b, .g, .g, .r), (.r, .g, .g, .b), (.g, .r, .b, .g), (.g, .b, .r, Channel.g)] := by
  obtain hr | hr := Nat.mod_two_eq_zero_or_one r <;> obtain hc | hc := Nat.mod_two_eq_zero_or_one c <;> cases o <;>
    simp [cfaColor, tilePos, cfaTile, Nat.add_mod, hr, hc]

/-- The nine cells around `(r + 1, c + 1)`. -/
def around (r c : Nat) : List (Nat × Nat) :=
  [(r, c), (r, c + 1), (r, c + 2), (r + 1, c), (r + 1, c + 1), (r + 1, c + 2), (r + 2, c), (r + 2, c + 1), (r + 2, c + 2)]

theorem neighbours_interior (o : BayerOrder) {rows w r c : Nat} (x : Channel) (hr : r + 2 < rows) (hc : c + 2 < w) :
    neighbours o rows w (r + 1) (c + 1) x = (around r c).filter fun q => decide (cfaColor o q.1 q.2 = x) := by
  have hcells : (region 0 3 0 3 fun i j => (r + 1 + i, c + 1 + j)) = (around r c).map fun q => (q.1 + 1, q.2 + 1) := by
    simp [region, List.range_succ, around]
  rw [neighbours, hcells, List.filterMap_map, ← List.filterMap_eq_filter]
  refine List.filterMap_congr fun q hq => ?_
  have hframe : q.1 < rows ∧ q.2 < w := by
    simp only [around, List.mem_cons, List.not_mem_nil, or_false] at hq
    obtain rfl | rfl | rfl | rfl | rfl | rfl | rfl | rfl | rfl := hq <;> constructor <;> simp only <;> omega
  simp [Option.guard, hframe]

section
variable {o : BayerOrder} {m : List Byte} {rows w r c : Nat} {x : Channel} (hr : r + 2 < rows) (hc : c + 2 < w)
include hr hc

/-- A missing channel of such a cell: the mean of the cells around that have its colour. -/
theorem bilinearChannel_interior (hx : cfaColor o (r + 1) (c + 1) ≠ x) :
    bilinearChannel o m rows w (r + 1) (c + 1) x =
      roundedMean (((around r c).filter fun q => decide (cfaColor o q.1 q.2 = x)).map fun q => mosaicAt m w q.1 q.2) := by
  rw [bilinearChannel_of_ne hx, neighbours_interior o x hr hc]

variable {p00 p01 p10 p11 : Channel} (h00 : cfaColor o r c = p00) (h01 : cfaColor o r (c + 1) = p01)
  (h10 : cfaColor o (r + 1) c = p10) (h11 : cfaColor o (r + 1) (c + 1) = p11)
include h00 h01 h10 h11

/-- The four edge neighbours are the mean's cells where their colour, and no other cell's, is the channel's. -/
theorem bilinearChannel_edges (h : p01 = x ∧ p10 = x) (hne : p00 ≠ x ∧ p11 ≠ x) :
    bilinearChannel o m rows w (r + 1) (c + 1) x =
      (mosaicAt m w r (c + 1) + mosaicAt m w (r + 1) c + mosaicAt m w (r + 1) (c + 2) + mosaicAt m w (r + 2) (c + 1) + 2) /
        4 := by
  obtain ⟨rfl, rfl⟩ := h
  rw [bilinearChannel_interior hr hc (h11 ▸ hne.2)]
  simp [around, cfaColor_add_two_row, cfaColor_add_two_col, h00, h01, h10, h11, hne, roundedMean, Nat.add_assoc]

theorem bilinearChannel_diagonals (h : p00 = x) (hne : p01 ≠ x ∧ p10 ≠ x ∧ p11 ≠ x) :
    bilinearChannel o m rows w (r + 1) (c + 1) x =
      (mosaicAt m w r c + mosaicAt m w r (c + 2) + mosaicAt m w (r + 2) c + mosaicAt m w (r + 2) (c + 2) + 2) / 4 := by
  subst h
  rw [bilinearChannel_interior hr hc (h11 ▸ hne.2.2)]
  simp [around, cfaColor_add_two_row, cfaColor_add_two_col, h00, h01, h10, h11, hne, roundedMean, Nat.add_assoc]

theorem bilinearChannel_row (h : p10 = x) (hne : p00 ≠ x ∧ p01 ≠ x ∧ p11 ≠ x) :
    bilinearChannel o m rows w (r + 1) (c + 1) x =
      (mosaicAt m w (r + 1) c + mosaicAt m w (r + 1) (c + 2) + 1) / 2 := by
  subst h
  rw [bilinearChannel_interior hr hc (h11 ▸ hne.2.2)]
  simp [around, cfaColor_add_two_row, cfaColor_add_two_col, h00, h01, h10, h11, hne, roundedMean]

theorem bilinearChannel_col (h : p01 = x) (hne : p00 ≠ x ∧ p10 ≠ x ∧ p11 ≠ x) :
    bilinearChannel o m rows w (r + 1) (c + 1) x =
      (mosaicAt m w r (c + 1) + mosaicAt m w (r + 2) (c + 1) + 1) / 2 := by
  subst h
  rw [bilinearChannel_interior hr hc (h11 ▸ hne.2.2)]
  simp [around, cfaColor_add_two_row, cfaColor_add_two_col, h00, h01, h10, h11, hne, roundedMean]

end

/-- Settles O37: the neighbours are the statement's cells in another order, and inside the frame the colours of a 2×2 window
say which of the eight they are. -/
theorem bilinearInsideTheFrame : Obligations.BilinearInsideTheFrame := by
  intro o m rows w r c _ _ s out chan
  have hchan (x : Channel) : chan x = bilinearChannel o m rows w r c x := by cases x <;> rfl
  refine ⟨fun x hx => (hchan x).trans (bilinearChannel_of_eq hx m rows w), fun x hx => ?_, fun hr hrows hc hw => ?_⟩
  · have hcells : ((List.range rows).flatMap fun a => ((List.range w).filter fun b =>
        decide (a ≤ r + 1 ∧ r ≤ a + 1 ∧ b ≤ c + 1 ∧ c ≤ b + 1 ∧ cfaColor o a b = x)).map fun b => s a b) =
        (frameCells o rows w r c x).map fun q => mosaicAt m w q.1 q.2 := by
      rw [frameCells, List.map_flatMap]
      simp only [List.map_map, Function.comp_def]
      rfl
    rw [hchan, bilinearChannel_of_ne hx, ← roundedMean_perm ((frameCells_perm_neighbours o rows w r c x).map _), ← hcells]
    rfl
  · obtain ⟨r, rfl⟩ : ∃ k, r = k + 1 := ⟨r - 1, by omega⟩
    obtain ⟨c, rfl⟩ : ∃ k, c = k + 1 := ⟨c - 1, by omega⟩
    have hred : out.1 = _ := hchan .r
    have hgreen : out.2.1 = _ := hchan .g
    have hblue : out.2.2 = _ := hchan .b
    have hwindow := cfaColor_window o r c
    simp only [List.mem_cons, List.not_mem_nil, or_false, Prod.mk.injEq] at hwindow
    rw [hred, hgreen, hblue, Nat.add_sub_cancel, Nat.add_sub_cancel]
    obtain ⟨h00, h01, h10, h11⟩ | ⟨h00, h01, h10, h11⟩ | ⟨h00, h01, h10, h11⟩ | ⟨h00, h01, h10, h11⟩ := hwindow <;>
      rw [h11]
    · exact ⟨bilinearChannel_edges hrows hw h00 h01 h10 h11 (by decide) (by decide),
        bilinearChannel_diagonals hrows hw h00 h01 h10 h11 rfl (by decide)⟩
    · exact ⟨bilinearChannel_edges hrows hw h00 h01 h10 h11 (by decide) (by decide),
        bilinearChannel_diagonals hrows hw h00 h01 h10 h11 rfl (by decide)⟩
    · simp only [h10, reduceCtorEq, if_false]
      exact ⟨bilinearChannel_col hrows hw h00 h01 h10 h11 rfl (by decide),
        bilinearChannel_row hrows hw h00 h01 h10 h11 rfl (by decide)⟩
    · simp only [h10, if_true]
      exact ⟨bilinearChannel_row hrows hw h00 h01 h10 h11 rfl (by decide),
        bilinearChannel_col hrows hw h00 h01 h10 h11 rfl (by decide)⟩

/-! RENDER (44_bayer R262–R266). -/

/-- A region from the first row and column is its values in row-major order. -/
theorem region_zero_eq_map {α : Type} (h w : Nat) (f : Nat → Nat → α) :
    region 0 h 0 w f = (List.range (h * w)).map fun i => f (i / w) (i % w) := by
  refine List.ext_getElem (by simp [region_zero_length]) fun i hi hi' => ?_
  have hlt : i < h * w := by rwa [region_zero_length] at hi
  have hw : 0 < w := Nat.pos_of_ne_zero fun h0 => by simp [h0] at hlt
  have hrow : i / w < h := Nat.div_lt_of_lt_mul (by rwa [Nat.mul_comm])
  have hvalue := region_zero_getD f (f 0 0) hrow (Nat.mod_lt i hw)
  rw [Nat.div_add_mod', List.getD_eq_getElem _ _ hi] at hvalue
  rw [hvalue, List.getElem_map, List.getElem_range]

/-- The masked, truncated sample of a cell of frame `k`, as the statements write it (44_bayer R262, R263). -/
def maskedSample (s : State) (img : Image) (o : BayerOrder) (rows k r c : Nat) : Nat :=
  if s.regs.maskBit (Channel.index (cfaColor o r c)) then
    elemOf s img 1 rows k r c 0 * 255 / (2 ^ img.desc.bpc0 - 1)
  else 0

/-- The mosaic of frame `k`. -/
def frameMosaic (s : State) (img : Image) (o : BayerOrder) (rows k : Nat) : List Byte :=
  (List.range (rows * img.w)).map fun i => BitVec.ofNat 8 (maskedSample s img o rows k (i / img.w) (i % img.w))

theorem mosaic_frameData (s : State) {img : Image} (o : BayerOrder) (f k : Nat) (hl : img.l = img.h * img.w)
    (hw : 1 ≤ img.w) :
    mosaic o img.desc.bpc0 (frameRowsOf img f) img.w (frameData (imageData s img) (plainFrames img 1 f) k)
      s.regs.maskBit = frameMosaic s img o (frameRowsOf img f) k := by
  rw [mosaic, region_zero_eq_map, frameMosaic]
  refine List.map_congr_left fun i hi => ?_
  have hrow : i / img.w < frameRowsOf img f :=
    Nat.div_lt_of_lt_mul (by rw [Nat.mul_comm]; exact List.mem_range.1 hi)
  have hsample := sampleAt_frameData_plainFrames s (f := f) (k := k) hl hrow (Nat.mod_lt i hw)
  rw [sampleAt] at hsample
  rw [hsample, maskedSample, floor255]
  split <;> rfl

/-- Settles O35: the frames are the plain ones of one element a pixel, and `bayerPixel` is DEMOSAIC on the frame's mosaic. -/
theorem renderBayerDemosaics : Obligations.RenderBayerDemosaics := by
  intro s img o himg hfam hok f rows sample mosaicOf hfit
  have hframes : renderFrames img s.regs.maskBit f = .ok (plainFrames img 1 f) := by simp only [renderFrames, hfam]
  have hrows : (plainFrames img 1 f).rows = rows := plainFrames_rows img 1 f
  have hmosaic (k : Nat) := mosaic_frameData s o f k (imageOk_l_of_single hok (.inr ⟨o, hfam⟩)) hok.2.1
  rw [← plainFrames_count img 1, ← hrows] at hfit ⊢
  refine execRender_of_frames himg hframes hfit fun k r c _ _ _ => ?_
  simp only [framePixel, hfam, hrows]
  rw [hmosaic k]
  rfl

theorem frameMosaic_getD (s : State) (img : Image) (o : BayerOrder) {rows r c : Nat} (k : Nat) (hr : r < rows)
    (hc : c < img.w) :
    (frameMosaic s img o rows k).getD (r * img.w + c) 0 = BitVec.ofNat 8 (maskedSample s img o rows k r c) := by
  rw [frameMosaic, getD_map_range, if_pos ((row_mul_add_lt_iff hc).2 hr), rowMajor_div hc, rowMajor_mod hc]

/-- Settles O34: DEMOSAIC keeps the cell's own channel, which is the mosaic's sample. -/
theorem renderBayerOwnChannel : Obligations.RenderBayerOwnChannel := by
  intro s img o himg hfam hinv f rows count hfit
  obtain ⟨hok, -⟩ := hinv img himg
  obtain ⟨t, hexec, hcompleted, hhost, himage, hregs, hpixels, hbeyond⟩ :=
    renderBayerDemosaics s img o himg hfam hok hfit
  refine ⟨t, hexec, hcompleted, hhost, himage, hregs, hbeyond, fun k r c hk hr hc => ?_⟩
  obtain ⟨hred, hgreen, hblue, halpha⟩ := hpixels k r c hk hr hc
  have hchannel (x : Channel) : outByte t (outAt rows img.w k r c (Channel.index x)) =
      BitVec.ofNat 8 (channelOf (demosaic s.impl.demosaic o (frameMosaic s img o rows k) rows img.w r c) x) := by
    cases x
    · exact hred
    · exact hgreen
    · exact hblue
  have hown := hchannel (cfaColor o r c)
  rw [demosaic_channel_own, mosaicAt, frameMosaic_getD s img o k hr hc, BitVec.ofNat_toNat, BitVec.setWidth_eq] at hown
  exact ⟨hown, halpha⟩

end Sys2Proof.Machine
end

section
/-! The sub-byte re-encoding (41_unpack R160, R165): fields packed into a number most significant first and read back, and
the obligation on the chunks they make. -/

namespace Sys2Proof.Machine

/-! Fields packed into a number, field `k` between the bit offsets `W k` and `W (k + 1)` from the most significant end. -/

/-- The number whose `n` fields are `f 0, …, f (n − 1)`, most significant first. -/
def packFields (W : Nat → Nat) (n : Nat) (f : Nat → Nat) : Nat :=
  ((List.range n).map fun k => f k * 2 ^ (W n - W (k + 1))).sum

theorem packFields_congr (W : Nat → Nat) {n : Nat} {f g : Nat → Nat} (h : ∀ k, k < n → f k = g k) :
    packFields W n f = packFields W n g := by
  unfold packFields
  rw [List.map_congr_left fun k hk => by rw [h k (List.mem_range.1 hk)]]

section
variable {W w : Nat → Nat} (hW : ∀ k, W (k + 1) = W k + w k)
include hW

theorem offset_mono {j k : Nat} (h : j ≤ k) : W j ≤ W k :=
  monotone_nat_of_le_succ (fun k => (hW k).symm ▸ Nat.le_add_right _ _) h

theorem packFields_succ (n : Nat) (f : Nat → Nat) : packFields W (n + 1) f = packFields W n f * 2 ^ w n + f n := by
  have hterm : ∀ k ∈ List.range n, f k * 2 ^ (W (n + 1) - W (k + 1)) = f k * 2 ^ (W n - W (k + 1)) * 2 ^ w n := by
    intro k hk
    have hle : W (k + 1) ≤ W n := offset_mono hW (List.mem_range.1 hk)
    rw [hW n, Nat.mul_assoc, ← Nat.pow_add, Nat.sub_add_comm hle]
  rw [packFields, List.range_succ, List.map_append, List.sum_append, List.map_congr_left hterm, List.sum_map_mul_right,
    packFields]
  simp

variable {f : Nat → Nat} (hf : ∀ k, f k < 2 ^ w k)
include hf

theorem packFields_lt (h0 : W 0 = 0) (n : Nat) : packFields W n f < 2 ^ W n := by
  induction n with
  | zero => simp [packFields, h0]
  | succ n ih =>
    rw [packFields_succ hW, hW, Nat.pow_add]
    calc packFields W n f * 2 ^ w n + f n < packFields W n f * 2 ^ w n + 2 ^ w n := Nat.add_lt_add_left (hf n) _
      _ = (packFields W n f + 1) * 2 ^ w n := (Nat.succ_mul _ _).symm
      _ ≤ 2 ^ W n * 2 ^ w n := Nat.mul_le_mul_right _ ih

/-- A field read back from its place. -/
theorem packFields_field {n k : Nat} (hk : k < n) : packFields W n f / 2 ^ (W n - W (k + 1)) % 2 ^ w k = f k := by
  induction n with
  | zero => omega
  | succ n ih =>
    rw [packFields_succ hW]
    obtain rfl | hlt := Nat.eq_or_lt_of_le (Nat.le_of_lt_succ hk)
    · rw [Nat.sub_self, Nat.pow_zero, Nat.div_one, Nat.mul_add_mod', Nat.mod_eq_of_lt (hf k)]
    · have hplace : W (n + 1) - W (k + 1) = w n + (W n - W (k + 1)) := by
        rw [hW n, Nat.sub_add_comm (offset_mono hW hlt), Nat.add_comm]
      rw [hplace, Nat.pow_add, ← Nat.div_div_eq_div_mul, Nat.mul_comm (packFields W n f),
        Nat.mul_add_div (Nat.two_pow_pos _), Nat.div_eq_of_lt (hf n), Nat.add_zero, ih hlt]

end

/-- A number is the pack of the fields read from it. -/
theorem packFields_fields {W w : Nat → Nat} (hW : ∀ k, W (k + 1) = W k + w k) (h0 : W 0 = 0) (n : Nat) :
    ∀ x, x < 2 ^ W n → (packFields W n fun k => x / 2 ^ (W n - W (k + 1)) % 2 ^ w k) = x := by
  induction n with
  | zero =>
    intro x hx
    rw [h0, Nat.pow_zero, Nat.lt_one_iff] at hx
    simp [packFields, hx]
  | succ n ih =>
    intro x hx
    have hrest : x / 2 ^ w n < 2 ^ W n := by
      rwa [Nat.div_lt_iff_lt_mul (Nat.two_pow_pos _), ← Nat.pow_add, ← hW]
    have hfields : ∀ k, k < n → x / 2 ^ (W (n + 1) - W (k + 1)) % 2 ^ w k =
        x / 2 ^ w n / 2 ^ (W n - W (k + 1)) % 2 ^ w k := by
      intro k hk
      rw [hW n, Nat.sub_add_comm (offset_mono hW hk), Nat.add_comm, Nat.pow_add, Nat.div_div_eq_div_mul]
    rw [packFields_succ hW, packFields_congr W hfields, ih _ hrest, Nat.sub_self, Nat.pow_zero, Nat.div_one,
      Nat.div_add_mod']

/-! A chunk's sizes (41_unpack R160). -/

theorem widths_sum (d : Descriptor) : d.widths.sum = d.widthSum := by
  rw [Descriptor.widths, Descriptor.present, sum_map_filter_pos]
  simp [Descriptor.width, Descriptor.widthSum, Nat.add_assoc]

/-- The groups of a chunk fill its bytes exactly. -/
theorem chunkGroups_mul_widthSum (d : Descriptor) : chunkGroups d * d.widthSum = 8 * chunkBytes d := by
  have hbytes : 8 * chunkBytes d = Nat.lcm d.widthSum 8 := Nat.mul_div_cancel' (Nat.dvd_lcm_right _ _)
  rw [chunkGroups, hbytes, Nat.div_mul_cancel (Nat.dvd_lcm_left _ _)]

section
variable {d : Descriptor} (hsum : 1 ≤ d.widthSum)
include hsum

theorem compCount_pos : 0 < d.compCount := by
  rw [Descriptor.compCount, List.length_pos_iff]
  intro hnil
  have h := widths_sum d
  rw [Descriptor.widths, hnil] at h
  simp at h
  omega

theorem chunkBytes_pos : 0 < chunkBytes d := by
  have hbytes : 8 * chunkBytes d = Nat.lcm d.widthSum 8 := Nat.mul_div_cancel' (Nat.dvd_lcm_right _ _)
  have hpos := Nat.lcm_pos hsum (show 0 < 8 by decide)
  omega

theorem chunkGroups_pos : 0 < chunkGroups d := by
  have hfill := chunkGroups_mul_widthSum d
  have hbytes := chunkBytes_pos hsum
  exact Nat.pos_of_mul_pos_right (show 0 < chunkGroups d * d.widthSum by omega)

end

/-! The fields of a chunk: component `j` of group `q` is field `q·n + j`. -/

/-- The bit offset of field `k` from the chunk's most significant end. -/
def fieldOffset (d : Descriptor) (k : Nat) : Nat := k / d.compCount * d.widthSum + (d.widths.take (k % d.compCount)).sum

/-- The width of field `k`. -/
def fieldWidth (d : Descriptor) (k : Nat) : Nat := d.widths.getD (k % d.compCount) 0

theorem take_succ_sum (l : List Nat) (j : Nat) : (l.take (j + 1)).sum = (l.take j).sum + l.getD j 0 := by
  rw [List.take_add_one, List.sum_append, List.getD_eq_getElem?_getD]
  cases l[j]? <;> simp

theorem fieldOffset_zero (d : Descriptor) : fieldOffset d 0 = 0 := by simp [fieldOffset]

section
variable {d : Descriptor} {q j : Nat} (hj : j < d.compCount)
include hj

theorem fieldWidth_group : fieldWidth d (q * d.compCount + j) = d.widths.getD j 0 := by rw [fieldWidth, rowMajor_mod hj]

theorem fieldOffset_group : fieldOffset d (q * d.compCount + j) = q * d.widthSum + (d.widths.take j).sum := by
  rw [fieldOffset, rowMajor_div hj, rowMajor_mod hj]

/-- The end of a field, which for a group's last one is the next group's start. -/
theorem fieldOffset_group_succ :
    fieldOffset d (q * d.compCount + j + 1) = q * d.widthSum + (d.widths.take (j + 1)).sum := by
  obtain hlast | hinner := Nat.eq_or_lt_of_le (show j + 1 ≤ d.compCount from hj)
  · have hlen : d.widths.length = d.compCount := List.length_map ..
    have hnext : q * d.compCount + j + 1 = (q + 1) * d.compCount + 0 := by rw [Nat.succ_mul]; omega
    rw [hnext, fieldOffset_group (Nat.zero_lt_of_lt hj), hlast, ← hlen, List.take_length, widths_sum, Nat.succ_mul]
    rfl
  · exact fieldOffset_group hinner

end

section
variable {d : Descriptor} (hsum : 1 ≤ d.widthSum)
include hsum

theorem fieldOffset_chunk : fieldOffset d (chunkGroups d * d.compCount) = 8 * chunkBytes d := by
  have h := fieldOffset_group (q := chunkGroups d) (compCount_pos hsum)
  rwa [Nat.add_zero, chunkGroups_mul_widthSum, List.take_zero, List.sum_nil, Nat.add_zero] at h

theorem bitsBelow_eq {j : Nat} (q : Nat) (hj : j < d.compCount) :
    bitsBelow d q j = fieldOffset d (chunkGroups d * d.compCount) - fieldOffset d (q * d.compCount + j + 1) := by
  rw [bitsBelow, fieldOffset_chunk hsum, fieldOffset_group_succ hj]

theorem fieldOffset_succ (k : Nat) :
    fieldOffset d (k + 1) = fieldOffset d k + fieldWidth d k := by
  have hj := Nat.mod_lt k (compCount_pos hsum)
  have h := fieldOffset_group_succ (q := k / d.compCount) hj
  rw [Nat.div_add_mod'] at h
  rw [h, take_succ_sum, ← Nat.add_assoc]
  rfl

end

/-! A chunk of groups. -/

theorem sum_nested (h w : Nat) (g : Nat → Nat → Nat) :
    ((List.range h).map fun i => ((List.range w).map (g i)).sum).sum =
      ((List.range (h * w)).map fun k => g (k / w) (k % w)).sum := by
  rw [← region_zero_eq_map, region, List.flatMap_def, List.sum_flatten, List.map_map]
  simp [Function.comp_def]

/-- Field `k` of chunk `c` of a list of groups, 0 beyond the list. -/
def groupField (d : Descriptor) (groups : List (List Nat)) (c k : Nat) : Nat :=
  (groups.getD (c * chunkGroups d + k / d.compCount) []).getD (k % d.compCount) 0

/-- A chunk is the pack of its fields. -/
theorem encodeChunk_eq_packFields {d : Descriptor} (hsum : 1 ≤ d.widthSum) (groups : List (List Nat)) (c : Nat) :
    encodeChunk d groups c = packFields (fieldOffset d) (chunkGroups d * d.compCount) (groupField d groups c) := by
  have hgroups : encodeChunk d groups c = ((List.range (chunkGroups d)).map fun q =>
      ((List.range d.compCount).map fun j =>
        (groups.getD (c * chunkGroups d + q) []).getD j 0 <<< bitsBelow d q j).sum).sum := by
    refine congrArg List.sum (List.map_congr_left fun q _ => ?_)
    rw [List.getD_eq_getElem?_getD (l := groups)]
    cases groups[c * chunkGroups d + q]? <;> simp
  have hfield (k : Nat) : bitsBelow d (k / d.compCount) (k % d.compCount) =
      fieldOffset d (chunkGroups d * d.compCount) - fieldOffset d (k + 1) := by
    rw [bitsBelow_eq hsum _ (Nat.mod_lt k (compCount_pos hsum)), Nat.div_add_mod']
  rw [hgroups, sum_nested]
  simp only [hfield, Nat.shiftLeft_eq]
  rfl

/-- Groups of as many components as the descriptor has, each of which fits its width. -/
def groupsFit (d : Descriptor) (groups : List (List Nat)) : Prop :=
  ∀ g ∈ groups, ∀ j, j < d.compCount → g.getD j 0 < 2 ^ d.widths.getD j 0

theorem group_getD_lt {d : Descriptor} {groups : List (List Nat)} (hfit : groupsFit d groups) (g : Nat) {j : Nat}
    (hj : j < d.compCount) : (groups.getD g []).getD j 0 < 2 ^ d.widths.getD j 0 := by
  by_cases hg : g < groups.length
  · rw [List.getD_eq_getElem _ _ hg]
    exact hfit _ (List.getElem_mem hg) j hj
  · rw [List.getD_eq_default groups _ (by omega)]
    exact Nat.two_pow_pos _

section
variable {d : Descriptor} {groups : List (List Nat)} (hsum : 1 ≤ d.widthSum) (hfit : groupsFit d groups)
include hsum hfit

theorem groupField_lt (c k : Nat) : groupField d groups c k < 2 ^ fieldWidth d k :=
  group_getD_lt hfit _ (Nat.mod_lt k (compCount_pos hsum))

theorem encodeChunk_lt (c : Nat) : encodeChunk d groups c < 256 ^ chunkBytes d := by
  rw [encodeChunk_eq_packFields hsum, show 256 = 2 ^ 8 from rfl, ← Nat.pow_mul, ← fieldOffset_chunk hsum]
  exact packFields_lt (fieldOffset_succ hsum) (groupField_lt hsum hfit c) (fieldOffset_zero d) _

/-- Component `j` of group `q` of a chunk, read from its place. -/
theorem encodeChunk_component (c : Nat) {q j : Nat} (hq : q < chunkGroups d) (hj : j < d.compCount) :
    (encodeChunk d groups c >>> bitsBelow d q j) % 2 ^ d.widths.getD j 0 =
      (groups.getD (c * chunkGroups d + q) []).getD j 0 := by
  have hfield := packFields_field (fieldOffset_succ hsum) (groupField_lt hsum hfit c) ((row_mul_add_lt_iff hj).2 hq)
  rw [← encodeChunk_eq_packFields hsum, ← bitsBelow_eq hsum q hj, fieldWidth_group hj, groupField, rowMajor_div hj,
    rowMajor_mod hj] at hfield
  rwa [Nat.shiftRight_eq_div_pow]

end

/-! The encoded bytes (41_unpack R165). -/

theorem subbyteEncode_length (d : Descriptor) (e : Endian) (groups : List (List Nat)) :
    (subbyteEncode d e groups).length = ceilDiv groups.length (chunkGroups d) * chunkBytes d :=
  length_flatMap_range _ _ _ fun _ _ => laneEncode_length _ _ _

theorem subbyteEncode_getD (d : Descriptor) (e : Endian) (groups : List (List Nat)) {c b : Nat}
    (hc : c < ceilDiv groups.length (chunkGroups d)) (hb : b < chunkBytes d) :
    (subbyteEncode d e groups).getD (c * chunkBytes d + b) 0 =
      (laneEncode (encodeChunk d groups c) (chunkBytes d) e).getD b 0 :=
  getD_flatMap_range _ _ _ 0 (fun _ _ => laneEncode_length _ _ _) c b hc hb

theorem window_subbyteEncode (d : Descriptor) (e : Endian) (groups : List (List Nat)) {c : Nat}
    (hc : c < ceilDiv groups.length (chunkGroups d)) :
    window (subbyteEncode d e groups) (c * chunkBytes d) (chunkBytes d) =
      laneEncode (encodeChunk d groups c) (chunkBytes d) e := by
  refine List.ext_getElem (by simp) fun b hb hb' => ?_
  have hlt : b < chunkBytes d := by simpa using hb
  have hbyte := subbyteEncode_getD d e groups hc hlt
  rw [List.getD_eq_getElem _ _ hb'] at hbyte
  rw [← hbyte, ← List.getD_eq_getElem _ 0 hb, window_getD, if_pos hlt]

/-- Extraction reads component `j` of group `g` back, and 0 from the last chunk's groups beyond the list. -/
theorem subbyteComp_subbyteEncode {d : Descriptor} {groups : List (List Nat)} (hsum : 1 ≤ d.widthSum)
    (hfit : groupsFit d groups) (e : Endian) {g j : Nat}
    (hg : g < ceilDiv groups.length (chunkGroups d) * chunkGroups d) (hj : j < d.compCount) :
    subbyteComp d e (subbyteEncode d e groups) g j = (groups.getD g []).getD j 0 := by
  have hchunk : g / chunkGroups d < ceilDiv groups.length (chunkGroups d) :=
    Nat.div_lt_of_lt_mul (by rwa [Nat.mul_comm])
  have hgroup : g % chunkGroups d < chunkGroups d := Nat.mod_lt g (chunkGroups_pos hsum)
  have hcomp := encodeChunk_component hsum hfit (g / chunkGroups d) hgroup hj
  rw [Nat.div_add_mod'] at hcomp
  simp only [subbyteComp]
  rw [window_subbyteEncode d e groups hchunk, numE_laneEncode _ _ _ (encodeChunk_lt hsum hfit _), hcomp]

/-- Settles O4: a chunk is the pack of its groups' components, and `bitsBelow` is the place of each. -/
theorem subbyteEncodingReadsBack : Obligations.SubbyteEncodingReadsBack := by
  intro d e groups hsum hgroups t gs bytes
  have hfit : groupsFit d groups := fun g hg => (hgroups g hg).2
  refine ⟨subbyteEncode_length d e groups, fun g j hg hj => ?_⟩
  rw [subbyteComp_subbyteEncode hsum hfit e hg hj]
  split
  case isTrue => rfl
  case isFalse hbeyond =>
    rw [List.getD_eq_default groups _ (Nat.le_of_not_lt hbeyond)]
    rfl

end Sys2Proof.Machine
end

section
/-! CROP_TO_RAW of the RGB, GRAY and BAYER families (42_rgb R198, 44_bayer R270, 45_gray R294): the groups of a region, their
bytes on either path, and the obligations on them. -/

namespace Sys2Proof.Machine

open Sys2Proof.Claims

/-! The pixels of a region. -/

theorem regionOk_pixel {g : Regs} {img : Image} (hregion : regionOk g img = true) {i j : Nat}
    (hi : i < g.row1.toNat - g.row0.toNat) (hj : j < g.col1.toNat - g.col0.toNat) :
    g.row0.toNat + i < img.h ∧ g.col0.toNat + j < img.w := by
  rw [regionOk_iff] at hregion
  omega

/-- The components of the RGB pixel `di` rows and `dj` columns from the region's first. -/
def regionComps (s : State) (img : Image) (di dj : Nat) : List Nat :=
  rgbComps img.desc img.w (imageData s img) (s.regs.row0.toNat + di) (s.regs.col0.toNat + dj)

/-- The sample of the GRAY or BAYER pixel `di` rows and `dj` columns from the region's first. -/
def regionSample (s : State) (img : Image) (di dj : Nat) : Nat :=
  sampleAt img.w (imageData s img) (s.regs.row0.toNat + di) (s.regs.col0.toNat + dj)

theorem regionBytes_rgb (s : State) {img : Image} {o : RgbOrder} (hfam : img.family = .rgb o) :
    regionBytes s img = encodeGroups false img.desc img.desc.endian
      (region 0 (s.regs.row1.toNat - s.regs.row0.toNat) 0 (s.regs.col1.toNat - s.regs.col0.toNat)
        (regionComps s img)) := by
  simp only [regionBytes, cropBytes, hfam]
  exact congrArg _ (region_eq_region_zero _ _ _ _ _)

theorem regionBytes_single (s : State) {img : Image} (hfam : img.family = .gray ∨ ∃ o, img.family = .bayer o) :
    regionBytes s img = encodeGroups true img.desc img.desc.endian
      (region 0 (s.regs.row1.toNat - s.regs.row0.toNat) 0 (s.regs.col1.toNat - s.regs.col0.toNat)
        fun i j => [regionSample s img i j]) := by
  obtain hgray | ⟨o, hbayer⟩ := hfam
  · simp only [regionBytes, cropBytes, hgray]
    exact congrArg _ (region_eq_region_zero _ _ _ _ _)
  · simp only [regionBytes, cropBytes, hbayer]
    exact congrArg _ (region_eq_region_zero _ _ _ _ _)

theorem rgbElem_imageData (s : State) {img : Image} (hl : img.l = img.h * img.w * 4) {r c i : Nat} (hr : r < img.h)
    (hc : c < img.w) (hi : i < 4) :
    (imageData s img).getD (4 * (r * img.w + c) + i) 0 = (compElem s (4 * (r * img.w + c) + i)).toNat := by
  rw [imageData_getD, if_pos]
  rw [hl, Nat.mul_comm 4]
  exact (elemIndex_lt_iff hc hi).2 hr

theorem present_getD_lt (d : Descriptor) (q : Nat) : d.present.getD q 0 < 4 :=
  getD_lt_of_forall (by decide) (fun x hx => (mem_present_iff.1 hx).1) q

theorem rgbComps_getD {d : Descriptor} (w : Nat) (data : List Nat) (r c : Nat) {q : Nat} (hq : q < d.compCount) :
    (rgbComps d w data r c).getD q 0 = data.getD (4 * (r * w + c) + d.present.getD q 0) 0 := by
  have hlt : q < d.present.length := hq
  have hlen : q < (rgbComps d w data r c).length := by rwa [rgbComps, List.length_map]
  rw [List.getD_eq_getElem _ _ hlen, List.getD_eq_getElem _ _ hlt]
  simp only [rgbComps, List.getElem_map]

/-! The lane path (41_unpack R164). -/

theorem encodeGroups_lane {single : Bool} {d : Descriptor} {lb : Nat} (hpath : selectPath single d = .lane lb)
    (e : Endian) (groups : List (List Nat)) : encodeGroups single d e groups =
      groups.flatMap fun comps => comps.flatMap fun v => laneEncode (if single then v <<< d.shift else v) lb e := by
  simp only [encodeGroups, hpath]

theorem flatMap_laneEncode_length (comps : List Nat) (lb : Nat) (e : Endian) :
    (comps.flatMap fun v => laneEncode v lb e).length = comps.length * lb := by
  induction comps with
  | nil => simp
  | cons v comps ih => simp [ih, Nat.succ_mul, Nat.add_comm]

theorem flatMap_laneEncode_getD (comps : List Nat) (e : Endian) {lb q b : Nat} (hq : q < comps.length) (hb : b < lb) :
    (comps.flatMap fun v => laneEncode v lb e).getD (q * lb + b) 0 = (laneEncode (comps.getD q 0) lb e).getD b 0 :=
  getD_flatMap comps lb _ 0 0 (fun _ => laneEncode_length _ _ _) q b hq hb

/-- Settles O41: a pixel's lanes stand one after another, and its components are COMP's at the present slots. -/
theorem cropRgbLaneBytes : Obligations.CropRgbLaneBytes := by
  intro s img o lb himg hfam hok hpath hregion r0 c0 h w n hfit
  have hl := imageOk_l_of_rgb hok hfam
  have hcount (i j : Nat) : (regionComps s img i j).length = n := List.length_map ..
  have hpixel (i j : Nat) :
      ((regionComps s img i j).flatMap fun v => laneEncode v lb img.desc.endian).length = n * lb := by
    rw [flatMap_laneEncode_length, hcount]
  have hbytes := regionBytes_rgb s hfam
  rw [encodeGroups_lane hpath, flatMap_region] at hbytes
  have hlen := flatten_region_length h w hpixel
  rw [← Nat.mul_assoc] at hlen
  obtain ⟨t, hexec, hcompleted, hhost, himage, hregs, hwritten, hbeyond⟩ :=
    execCropToRaw_of_bytes himg hregion hbytes hlen hfit
  refine ⟨t, hexec, hcompleted, hhost, himage, hregs, fun i j q b hi hj hq hb => ?_, hbeyond⟩
  obtain ⟨hrow, hcol⟩ := regionOk_pixel hregion hi hj
  have hlane : q * lb + b < n * lb := (row_mul_add_lt_iff hb).2 hq
  have hindex : ((i * w + j) * n + q) * lb + b = (i * w + j) * (n * lb) + (q * lb + b) := by ring
  have hinside : (i * w + j) * (n * lb) + (q * lb + b) < h * w * n * lb := by
    rw [Nat.mul_assoc (h * w)]
    exact (elemIndex_lt_iff hj hlane).2 hi
  rw [hindex, hwritten _ hinside]
  refine congrArg _ ((flatten_region_getD 0 hpixel hi hj hlane).trans ?_)
  rw [flatMap_laneEncode_getD _ _ (by rwa [hcount]) hb, regionComps, rgbComps_getD _ _ _ _ hq,
    rgbElem_imageData s hl hrow hcol (present_getD_lt _ _)]

/-- Settles O42: each pixel is one lane, its sample shifted left. -/
theorem cropSingleLaneBytes : Obligations.CropSingleLaneBytes := by
  intro s img lb himg hfam hok hpath hregion r0 c0 h w hfit
  have hl := imageOk_l_of_single hok hfam
  have hbytes := regionBytes_single s hfam
  simp only [encodeGroups_lane hpath, flatMap_region, List.flatMap_singleton, if_true] at hbytes
  have hpixel (i j : Nat) :
      (laneEncode (regionSample s img i j <<< img.desc.shift) lb img.desc.endian).length = lb := laneEncode_length _ _ _
  obtain ⟨t, hexec, hcompleted, hhost, himage, hregs, hwritten, hbeyond⟩ :=
    execCropToRaw_of_bytes himg hregion hbytes (flatten_region_length h w hpixel) hfit
  refine ⟨t, hexec, hcompleted, hhost, himage, hregs, fun i j b hi hj hb => ?_, hbeyond⟩
  obtain ⟨hrow, hcol⟩ := regionOk_pixel hregion hi hj
  rw [hwritten _ ((elemIndex_lt_iff hj hb).2 hi)]
  refine congrArg _ ((flatten_region_getD 0 hpixel hi hj hb).trans ?_)
  rw [regionSample, sampleAt_imageData s hl hrow hcol, Nat.shiftLeft_eq]

/-! The sub-byte path (41_unpack R165). -/

theorem encodeGroups_subbyte {single : Bool} {d : Descriptor} (hpath : selectPath single d = .subbyte) (e : Endian)
    (groups : List (List Nat)) : encodeGroups single d e groups = subbyteEncode d e groups := by
  simp only [encodeGroups, hpath]

theorem subbyteEncode_byte_lt (d : Descriptor) (e : Endian) (groups : List (List Nat)) (i : Nat) :
    (subbyteEncode d e groups).getD i 0 < 256 := by
  refine getD_lt_of_forall (by decide) (fun x hx => ?_) i
  obtain ⟨c, -, hx⟩ := List.mem_flatMap.1 hx
  exact laneEncode_lt _ _ _ x hx

theorem bytesNum_congr (e : Endian) {k : Nat} {f g : Nat → Nat} (h : ∀ j, j < k → f j = g j) :
    bytesNum e k f = bytesNum e k g := by
  rw [← numE_map_range, ← numE_map_range, List.map_congr_left fun j hj => h j (List.mem_range.1 hj)]

/-- The bits of a slot of group `g` in OUT's chunks, as the statement reads them. -/
def outBits (t : State) (d : Descriptor) (g slot : Nat) : Nat :=
  bitsAt (bytesNum d.endian (chunkBytes d) fun b => (outByte t (g / chunkGroups d * chunkBytes d + b)).toNat) (chunkBytes d)
    (g % chunkGroups d * d.widthSum + widthBelow d slot) (d.width slot)

theorem outBits_of_absent (t : State) {d : Descriptor} {slot : Nat} (h : d.width slot = 0) (g : Nat) :
    outBits t d g slot = 0 := by
  rw [outBits, bitsAt, h, Nat.pow_zero, Nat.mod_one]

/-- Where OUT holds the encoded groups, a present slot's bits are its component. -/
theorem outBits_of_subbyteEncode {t : State} {d : Descriptor} {groups : List (List Nat)} (hsum : 1 ≤ d.widthSum)
    (hfit : groupsFit d groups)
    (hout : ∀ a, a < ceilDiv groups.length (chunkGroups d) * chunkBytes d →
      outByte t a = BitVec.ofNat 8 ((subbyteEncode d d.endian groups).getD a 0))
    {g slot : Nat} (hg : g < ceilDiv groups.length (chunkGroups d) * chunkGroups d) (hslot : slot < 4)
    (hw : 0 < d.width slot) : outBits t d g slot = (groups.getD g []).getD (presentBelow d slot) 0 := by
  have hchunk : g / chunkGroups d < ceilDiv groups.length (chunkGroups d) :=
    Nat.div_lt_of_lt_mul (by rwa [Nat.mul_comm])
  have hbyte (b : Nat) (hb : b < chunkBytes d) : (outByte t (g / chunkGroups d * chunkBytes d + b)).toNat =
      (subbyteEncode d d.endian groups).getD (g / chunkGroups d * chunkBytes d + b) 0 := by
    rw [hout _ ((row_mul_add_lt_iff hb).2 hchunk), BitVec.toNat_ofNat, Nat.mod_eq_of_lt (subbyteEncode_byte_lt _ _ _ _)]
  rw [outBits, bytesNum_congr _ hbyte, ← subbyteComp_eq_bitsAt hslot hw,
    subbyteComp_subbyteEncode hsum hfit _ hg (presentBelow_lt hslot hw)]

/-- A component's place among the present ones is that of its slot. -/
theorem exists_slot {d : Descriptor} {j : Nat} (hj : j < d.compCount) :
    ∃ slot, slot < 4 ∧ 0 < d.width slot ∧ presentBelow d slot = j := by
  have hlt : j < d.present.length := hj
  obtain ⟨hslot, hw⟩ := mem_present_iff.1 (List.getElem_mem hlt)
  have hnodup : d.present.Nodup := by
    rw [present_eq_filter_range]
    exact List.nodup_range.filter _
  exact ⟨d.present[j], hslot, hw, by rw [← idxOf_present hslot hw, hnodup.idxOf_getElem]⟩

theorem widthSum_pos_of_imageOk {img : Image} (hok : imageOk img) : 1 ≤ img.desc.widthSum := by
  obtain ⟨hchecked, -⟩ := hok
  obtain ⟨hgeneral, -⟩ := checkDescriptor_ok hchecked
  exact (generalFault_false hgeneral).2.2

theorem singleFault_of_imageOk {img : Image} (hok : imageOk img)
    (hfam : img.family = .gray ∨ ∃ o, img.family = .bayer o) : singleFault img.desc = false := by
  obtain ⟨hchecked, -⟩ := hok
  obtain ⟨-, -, hcodec⟩ := checkDescriptor_ok hchecked
  obtain hgray | ⟨o, hbayer⟩ := hfam
  · rw [hgray] at hcodec
    exact codecFault_none (c := .gray) hcodec
  · rw [hbayer] at hcodec
    exact codecFault_none (c := .bayer o) hcodec

/-- An element of the latched image fits its component's width. -/
theorem compElem_lt {s : State} {img : Image} (hinv : imageInv s) (himg : s.img = some img) {i : Nat} (hi : i < img.l) :
    (compElem s i).toNat < 2 ^ elemWidth img i := by
  obtain ⟨-, -, hwritten⟩ := hinv img himg
  obtain ⟨e, hlookup, hlt⟩ := hwritten i hi
  simpa only [compElem, hlookup] using hlt

section
variable {s : State} {img : Image} (hinv : imageInv s) (himg : s.img = some img) (hregion : regionOk s.regs img = true)
  {i j : Nat} (hi : i < s.regs.row1.toNat - s.regs.row0.toNat) (hj : j < s.regs.col1.toNat - s.regs.col0.toNat)
include hinv himg hregion hi hj

/-- The components of a region's RGB pixel are COMP's elements of its present slots, each within its width. -/
theorem regionComps_slot {o : RgbOrder} (hfam : img.family = .rgb o) {slot : Nat} (hslot : slot < 4)
    (hw : 0 < img.desc.width slot) :
    (regionComps s img i j).getD (presentBelow img.desc slot) 0 =
        (compElem s (((s.regs.row0.toNat + i) * img.w + (s.regs.col0.toNat + j)) * 4 + slot)).toNat ∧
      (regionComps s img i j).getD (presentBelow img.desc slot) 0 < 2 ^ img.desc.width slot := by
  obtain ⟨hrow, hcol⟩ := regionOk_pixel hregion hi hj
  have hl := imageOk_l_of_rgb (hinv img himg).1 hfam
  have hlt := compElem_lt hinv himg (hl ▸ (elemIndex_lt_iff hcol hslot).2 hrow)
  have hwidth : elemWidth img (((s.regs.row0.toNat + i) * img.w + (s.regs.col0.toNat + j)) * 4 + slot) =
      img.desc.width slot := by
    simp only [elemWidth, hfam, rowMajor_mod hslot, hw, if_true]
  rw [regionComps, rgbComps_getD_presentBelow _ _ _ _ hslot hw, Nat.mul_comm _ 4, rgbElem_imageData s hl hrow hcol hslot,
    Nat.mul_comm 4]
  exact ⟨rfl, hwidth ▸ hlt⟩

theorem regionSample_eq (hfam : img.family = .gray ∨ ∃ o, img.family = .bayer o) :
    regionSample s img i j =
        (compElem s ((s.regs.row0.toNat + i) * img.w + (s.regs.col0.toNat + j))).toNat ∧
      regionSample s img i j < 2 ^ img.desc.bpc0 := by
  obtain ⟨hrow, hcol⟩ := regionOk_pixel hregion hi hj
  have hl := imageOk_l_of_single (hinv img himg).1 hfam
  have hlt := compElem_lt hinv himg (hl ▸ (row_mul_add_lt_iff hcol).2 hrow)
  have hwidth (k : Nat) : elemWidth img k = img.desc.bpc0 := by
    obtain hgray | ⟨o, hbayer⟩ := hfam
    · simp only [elemWidth, hgray]
    · simp only [elemWidth, hbayer]
  rw [regionSample, sampleAt_imageData s hl hrow hcol]
  exact ⟨rfl, hwidth _ ▸ hlt⟩

end

/-- A CROP_TO_RAW whose region is `h·w` groups on the sub-byte path: each present slot's bits are its group's component, and
the bits of the groups beyond are 0. -/
theorem execCropToRaw_of_groups {s : State} {img : Image} {h w : Nat} {comps : Nat → Nat → List Nat}
    (himg : s.img = some img) (hregion : regionOk s.regs img = true)
    (hbytes : regionBytes s img = subbyteEncode img.desc img.desc.endian (region 0 h 0 w comps))
    (hsum : 1 ≤ img.desc.widthSum)
    (hcomps : ∀ i j slot, i < h → j < w → slot < 4 → 0 < img.desc.width slot →
      (comps i j).getD (presentBelow img.desc slot) 0 < 2 ^ img.desc.width slot)
    (hfits : ceilDiv (h * w) (chunkGroups img.desc) * chunkBytes img.desc ≤ s.impl.outMemBytes) :
    let len := ceilDiv (h * w) (chunkGroups img.desc) * chunkBytes img.desc
    ∃ t, exec .cropToRaw s = .next t ∧ completed s t false ∧ keepsHostSide s t ∧ keepsImage s t ∧ outRegs s t len 0 0 ∧
      (∀ i j slot, i < h → j < w → slot < 4 → 0 < img.desc.width slot →
        outBits t img.desc (i * w + j) slot = (comps i j).getD (presentBelow img.desc slot) 0) ∧
      (∀ g slot, h * w ≤ g → g < ceilDiv (h * w) (chunkGroups img.desc) * chunkGroups img.desc → slot < 4 →
        outBits t img.desc g slot = 0) ∧
      ∀ a, len ≤ a → outByte t a = Config.freeOutByte s.draws a := by
  have hcount : (region 0 h 0 w comps).length = h * w := region_zero_length h w comps
  have hfit : groupsFit img.desc (region 0 h 0 w comps) := by
    intro g hg j hj
    obtain ⟨i, hi, k, hk, rfl⟩ := mem_region_zero.1 hg
    obtain ⟨slot, hslot, hw, rfl⟩ := exists_slot hj
    rw [widths_getD_presentBelow hslot hw]
    exact hcomps i k slot hi hk hslot hw
  obtain ⟨t, hexec, hcompleted, hhost, himage, hregs, hwritten, hbeyond⟩ :=
    execCropToRaw_of_bytes himg hregion hbytes ((subbyteEncode_length _ _ _).trans (by rw [hcount])) hfits
  rw [← hcount] at hwritten
  have hbits {g slot : Nat} (hg : g < ceilDiv (h * w) (chunkGroups img.desc) * chunkGroups img.desc) (hslot : slot < 4)
      (hw : 0 < img.desc.width slot) :=
    outBits_of_subbyteEncode hsum hfit hwritten (hcount ▸ hg) hslot hw
  refine ⟨t, hexec, hcompleted, hhost, himage, hregs, fun i j slot hi hj hslot hw => ?_,
    fun g slot hg hchunk hslot => ?_, hbeyond⟩
  · have hgroup : i * w + j < h * w := (row_mul_add_lt_iff hj).2 hi
    have hceil := le_mul_ceilDiv (h * w) _ (chunkGroups_pos hsum)
    rw [Nat.mul_comm (chunkGroups _)] at hceil
    rw [hbits (Nat.lt_of_lt_of_le hgroup hceil) hslot hw, region_zero_getD comps [] hi hj]
  · by_cases hw : 0 < img.desc.width slot
    · rw [hbits hchunk hslot hw, List.getD_eq_default (region 0 h 0 w comps) _ (by omega)]
      rfl
    · exact outBits_of_absent t (Nat.eq_zero_of_not_pos hw) g

/-- Settles O43: the region's groups fit their widths by the image invariant, and their chunks read back. -/
theorem cropSubbyteChunks : Obligations.CropSubbyteChunks := by
  intro s img himg hinv hsubbyte hregion d r0 c0 h w t8 gs len cpp hfits
  have hok := (hinv img himg).1
  have hsum := widthSum_pos_of_imageOk hok
  have hpathOk := hok.2.2.2
  obtain ⟨o, hfam⟩ | ⟨y, hfam⟩ | hfam := family_cases img.family
  · simp only [pathOk, hfam] at hpathOk
    have hpath := eq_subbyte_of_isSubbyte (hsubbyte.symm.trans hpathOk)
    have hcpp : cpp = 4 := by simp only [cpp, hfam]
    have hslots {i j slot : Nat} (hi : i < h) (hj : j < w) (hslot : slot < 4) (hw : 0 < d.width slot) :=
      regionComps_slot hinv himg hregion hi hj hfam hslot hw
    obtain ⟨t, hexec, hcompleted, hhost, himage, hregs, hcells, hrest, hbeyond⟩ :=
      execCropToRaw_of_groups himg hregion ((regionBytes_rgb s hfam).trans (encodeGroups_subbyte hpath _ _)) hsum
        (fun i j slot hi hj hslot hw => (hslots hi hj hslot hw).2) hfits
    refine ⟨t, hexec, hcompleted, hhost, himage, hregs, fun i j slot hi hj hslot hw => ?_, hrest, hbeyond⟩
    rw [hcpp]
    exact (hcells i j slot hi hj hslot hw).trans (hslots hi hj hslot hw).1
  · simp only [pathOk, hfam] at hpathOk
    cases hsubbyte.symm.trans hpathOk
  · have hpath : selectPath true d = .subbyte := by
      obtain hgray | ⟨o, hbayer⟩ := hfam
      · simp only [pathOk, hgray] at hpathOk
        exact eq_subbyte_of_isSubbyte (hsubbyte.symm.trans hpathOk)
      · simp only [pathOk, hbayer] at hpathOk
        exact eq_subbyte_of_isSubbyte (hsubbyte.symm.trans hpathOk)
    have hcpp : cpp = 1 := by obtain hgray | ⟨o, hbayer⟩ := hfam <;> simp only [cpp, *]
    have hzero {slot : Nat} (hslot : slot < 4) (hw : 0 < d.width slot) : slot = 0 := by
      have hmem := (mem_present hslot).2 hw
      rw [(present_single (singleFault_of_imageOk hok hfam)).1] at hmem
      exact List.mem_singleton.1 hmem
    have hsamples {i j : Nat} (hi : i < h) (hj : j < w) := regionSample_eq hinv himg hregion hi hj hfam
    obtain ⟨t, hexec, hcompleted, hhost, himage, hregs, hcells, hrest, hbeyond⟩ :=
      execCropToRaw_of_groups himg hregion ((regionBytes_single s hfam).trans (encodeGroups_subbyte hpath _ _)) hsum
        (fun i j slot hi hj hslot hw => by
          obtain rfl := hzero hslot hw
          exact (hsamples hi hj).2) hfits
    refine ⟨t, hexec, hcompleted, hhost, himage, hregs, fun i j slot hi hj hslot hw => ?_, hrest, hbeyond⟩
    obtain rfl := hzero hslot hw
    rw [hcpp, Nat.mul_one]
    exact (hcells i j 0 hi hj hslot hw).trans (hsamples hi hj).1

end Sys2Proof.Machine
end

section
/-! CROP_TO_RAW of the whole of a decoded image gives the input back (42_rgb R201, 43_yuv R238–R240), and the obligations on
the three ways an image is stored. -/

namespace Sys2Proof.Machine

open Sys2Proof.Claims

/-! The whole region of a decoded image. -/

/-- The state with the region ROW0, ROW1, COL0, COL1 set to `h` rows of WIDTH columns. -/
def wholeRegion (t : State) (h : Nat) : State :=
  { t with regs := { t.regs with row0 := 0, row1 := BitVec.ofNat 32 h, col0 := 0, col1 := t.regs.width } }

theorem wholeRegion_row1 (t : State) {h : Nat} (hh : h < 2 ^ 32) : (wholeRegion t h).regs.row1.toNat = h :=
  (BitVec.toNat_ofNat h 32).trans (Nat.mod_eq_of_lt hh)

theorem bufByte_of_no_reverse {s : State} (h : s.regs.reverseGroup.toNat ≤ 1) (i : Nat) :
    bufByte s i = if i < s.regs.inLen.toNat then (inByte s i).toNat else 0 := by
  rw [← decodeBuffer_getD, decodeBuffer, byteReverse_small _ _ h, rawBytes_getD]

theorem ofNat_bufByte {s : State} (h : s.regs.reverseGroup.toNat ≤ 1) (i : Nat) :
    BitVec.ofNat 8 (bufByte s i) = if i < s.regs.inLen.toNat then inByte s i else 0 := by
  rw [bufByte_of_no_reverse h]
  split
  · rw [BitVec.ofNat_toNat, BitVec.setWidth_eq]
  · rfl

/-- What a DECODE leaves for the crop that follows it. -/
structure Decoded (s t : State) (fam : Family) : Prop where
  img : t.img = some (decodedImage s fam)
  regs : t.regs = s.regs
  impl : t.impl = s.impl
  results : t.results = s.results
  elems : ∀ i, i < (decodedImage s fam).l → (compElem t i).toNat = (decodedComp s fam).getD i 0

theorem decoded_of_exec {s t : State} {fam : Family} (hcheck : decodeCheck s = .ok fam)
    (hfits : (decodedImage s fam).l ≤ s.impl.compMemWords) (hexec : exec .decode s = .next t) : Decoded s t fam := by
  rw [exec_eq_commit (i := .decode) (decodeEffects_of_check hcheck hfits)] at hexec
  cases hexec
  exact ⟨commit_img_of_decoded s rfl, rfl, rfl, rfl, fun i hi => by
    rw [compElem_commit_decoded hcheck rfl, if_pos hi, (decodedComp_toNat hcheck i hi).2]⟩

theorem regionOk_wholeRegion {s t : State} {fam : Family} (hdecoded : Decoded s t fam)
    (hheight : (decodedImage s fam).h < 2 ^ 32) :
    regionOk (wholeRegion t (decodedImage s fam).h).regs (decodedImage s fam) = true := by
  rw [regionOk_iff, wholeRegion_row1 t hheight]
  exact ⟨Nat.zero_le _, Nat.le_refl _, Nat.zero_le _, (congrArg (fun g => g.width.toNat) hdecoded.regs).le⟩

/-! RGB: the groups of the whole region are the groups DECODE extracted. -/

/-- The height of an RGB image that fits COMP fits ROW1. -/
theorem decodedImage_rgb_h_lt {s : State} {o : RgbOrder} (hwf : s.impl.wf) (hcheck : decodeCheck s = .ok (.rgb o))
    (hfits : (decodedImage s (.rgb o)).l ≤ s.impl.compMemWords) : (decodedImage s (.rgb o)).h < 2 ^ 32 := by
  obtain ⟨-, -, hwidth, -⟩ := decodeCheck_ok hcheck
  obtain ⟨-, ⟨-, hcomp⟩, -⟩ := hwf
  have hl : (decodedImage s (.rgb o)).l = 4 * (s.regs.width.toNat * (decodedImage s (.rgb o)).h) :=
    (decodedImage_rgb s o).2.1
  have hle : (decodedImage s (.rgb o)).h ≤ s.regs.width.toNat * (decodedImage s (.rgb o)).h := Nat.le_mul_of_pos_left _ hwidth
  omega

theorem regionComps_wholeRegion {s t : State} {o : RgbOrder} (hcheck : decodeCheck s = .ok (.rgb o))
    (hdecoded : Decoded s t (.rgb o)) {i j q : Nat} (hi : i < (decodedImage s (.rgb o)).h) (hj : j < s.regs.width.toNat)
    (hq : q < s.regs.descriptor.compCount) (h : Nat) :
    (regionComps (wholeRegion t h) (decodedImage s (.rgb o)) i j).getD q 0 =
      paddedComp s false (i * s.regs.width.toNat + j) q := by
  obtain ⟨slot, hslot, hw, rfl⟩ := exists_slot hq
  have hl := imageOk_l_of_rgb (decodedImage_ok hcheck) (o := o) rfl
  have hpixel : i * s.regs.width.toNat + j < s.regs.width.toNat * (decodedImage s (.rgb o)).h := by
    rw [Nat.mul_comm s.regs.width.toNat]
    exact (row_mul_add_lt_iff hj).2 hi
  have hindex : 4 * (i * s.regs.width.toNat + j) + slot < (decodedImage s (.rgb o)).l := by
    rw [hl, Nat.mul_comm 4]
    exact (elemIndex_lt_iff hj hslot).2 hi
  have hcomp : (regionComps (wholeRegion t h) (decodedImage s (.rgb o)) i j).getD
      (presentBelow s.regs.descriptor slot) 0 =
      (imageData t (decodedImage s (.rgb o))).getD (((0 + i) * s.regs.width.toNat + (0 + j)) * 4 + slot) 0 :=
    rgbComps_getD_presentBelow (d := (decodedImage s (.rgb o)).desc) _ _ _ _ hslot hw
  rw [hcomp, Nat.zero_add, Nat.zero_add, Nat.mul_comm _ 4, imageData_getD, if_pos hindex, hdecoded.elems _ hindex,
    decodedComp_rgb_getD hcheck hpixel hslot, if_neg (by omega)]

/-! The padding reads as 0, so a component of any group is read from the buffer's bytes. -/

theorem bytesNum_zero (e : Endian) (k : Nat) : (bytesNum e k fun _ => 0) = 0 := by cases e <;> simp [bytesNum]

theorem numE_window_beyond (e : Endian) {b : List Nat} {a : Nat} (h : b.length ≤ a) (k : Nat) :
    numE e (window b a k) = 0 := by
  rw [numE_window, bytesNum_congr e (g := fun _ => 0) fun t _ => List.getD_eq_default _ _ (by omega), bytesNum_zero]

theorem paddedComp_eq_lane {s : State} {lb : Nat} (hpath : selectPath false s.regs.descriptor = .lane lb)
    (hn : 0 < s.regs.descriptor.compCount * lb) (g j : Nat) : paddedComp s false g j =
      numE (order s) (window (decodeBuffer s) (g * (s.regs.descriptor.compCount * lb) + j * lb) lb) := by
  simp only [paddedComp, hpath, groupCount, groupComp, laneComp]
  split
  case isTrue => rfl
  case isFalse hbeyond =>
    refine (numE_window_beyond _ ?_ _).symm
    have hcover := le_mul_ceilDiv s.regs.inLen.toNat _ hn
    rw [Nat.mul_comm] at hcover
    have hstart := Nat.mul_le_mul_right (s.regs.descriptor.compCount * lb) (Nat.le_of_not_lt hbeyond)
    rw [decodeBuffer_length]
    omega

theorem paddedComp_eq_subbyteComp {s : State} (hpath : selectPath false s.regs.descriptor = .subbyte)
    (hsum : 1 ≤ s.regs.descriptor.widthSum) (g j : Nat) :
    paddedComp s false g j = subbyteComp s.regs.descriptor (order s) (decodeBuffer s) g j := by
  simp only [paddedComp, hpath, groupCount, groupComp]
  split
  case isTrue => rfl
  case isFalse hbeyond =>
    have hchunk : ceilDiv s.regs.inLen.toNat (chunkBytes s.regs.descriptor) ≤ g / chunkGroups s.regs.descriptor :=
      (Nat.le_div_iff_mul_le (chunkGroups_pos hsum)).2 (Nat.le_of_not_lt hbeyond)
    have hcover := le_mul_ceilDiv s.regs.inLen.toNat _ (chunkBytes_pos hsum)
    rw [Nat.mul_comm] at hcover
    have hstart := Nat.mul_le_mul_right (chunkBytes s.regs.descriptor) hchunk
    have hzero := numE_window_beyond (order s) (b := decodeBuffer s)
      (a := g / chunkGroups s.regs.descriptor * chunkBytes s.regs.descriptor) (by rw [decodeBuffer_length]; omega)
      (chunkBytes s.regs.descriptor)
    simp only [subbyteComp, hzero, Nat.zero_shiftRight, Nat.zero_mod]

theorem decodeBuffer_lt (s : State) : ∀ x ∈ decodeBuffer s, x < 256 := byteReverse_lt _ (rawBytes_lt s _)

/-- A number of the buffer's bytes, encoded again, is those bytes. -/
theorem laneEncode_numE_decodeBuffer (s : State) (e : Endian) (a : Nat) {k b : Nat} (hb : b < k) :
    (laneEncode (numE e (window (decodeBuffer s) a k)) k e).getD b 0 = bufByte s (a + b) := by
  have hbytes := laneEncode_numE e (window (decodeBuffer s) a k) (window_lt (by decide) (decodeBuffer_lt s) a k)
  rw [window_length] at hbytes
  rw [hbytes, window_getD, if_pos hb, decodeBuffer_getD]

/-- A CROP_TO_RAW of the whole region whose bytes are the buffer's restores the input. -/
theorem execCropToRaw_restores {s t : State} {fam : Family} {bytes : List Nat} {len : Nat} (hdecoded : Decoded s t fam)
    (hheight : (decodedImage s fam).h < 2 ^ 32)
    (hbytes : regionBytes (wholeRegion t (decodedImage s fam).h) (decodedImage s fam) = bytes)
    (hlen : bytes.length = len) (hfit : len ≤ s.impl.outMemBytes) (hreverse : s.regs.reverseGroup.toNat ≤ 1)
    (hbuffer : ∀ a, a < len → bytes.getD a 0 = bufByte s a) :
    ∃ u, exec .cropToRaw (wholeRegion t (decodedImage s fam).h) = .next u ∧ outRegs s u len 0 0 ∧
      ∀ a, a < len → outByte u a = if a < s.regs.inLen.toNat then inByte s a else 0 := by
  rw [← hdecoded.impl] at hfit
  obtain ⟨u, hexec, -, -, -, hregs, hwritten, -⟩ :=
    execCropToRaw_of_bytes (s := wholeRegion t _) hdecoded.img (regionOk_wholeRegion hdecoded hheight) hbytes hlen hfit
  refine ⟨u, hexec, ?_, fun a ha => ?_⟩
  · unfold outRegs at hregs ⊢
    rwa [← hdecoded.results]
  · rw [hwritten a ha, hbuffer a ha, ofNat_bufByte hreverse]

/-- The groups of the whole region, in row-major order. -/
def wholeGroups (s t : State) (o : RgbOrder) : List (List Nat) :=
  let img := decodedImage s (.rgb o)
  region 0 img.h 0 img.w (regionComps (wholeRegion t img.h) img)

theorem wholeGroups_length (s t : State) (o : RgbOrder) :
    (wholeGroups s t o).length = (decodedImage s (.rgb o)).w * (decodedImage s (.rgb o)).h :=
  (region_zero_length _ _ _).trans (Nat.mul_comm _ _)

theorem regionBytes_wholeRegion_rgb {s t : State} {o : RgbOrder} (hdecoded : Decoded s t (.rgb o))
    (hheight : (decodedImage s (.rgb o)).h < 2 ^ 32) :
    regionBytes (wholeRegion t (decodedImage s (.rgb o)).h) (decodedImage s (.rgb o)) =
      encodeGroups false s.regs.descriptor (order s) (wholeGroups s t o) := by
  rw [regionBytes_rgb _ (o := o) rfl, wholeRegion_row1 t hheight]
  change encodeGroups false _ _ (region 0 _ 0 t.regs.width.toNat _) = _
  rw [hdecoded.regs]
  rfl

theorem exists_rowMajor {h w a : Nat} (ha : a < h * w) : ∃ i j, i < h ∧ j < w ∧ a = i * w + j :=
  have hw : 0 < w := Nat.pos_of_ne_zero fun h0 => by simp [h0] at ha
  ⟨a / w, a % w, (Nat.div_lt_iff_lt_mul hw).2 ha, Nat.mod_lt a hw, (Nat.div_add_mod' a w).symm⟩

theorem lane_pos {d : Descriptor} {lb : Nat} (h : selectPath false d = .lane lb) : 0 < lb := by
  simp only [selectPath, Bool.false_eq_true, if_false] at h
  split at h
  · cases h
  · split at h
    · cases h
      decide
    · split at h
      · cases h
        decide
      · cases h

theorem widthSum_pos_of_decodeCheck {s : State} {fam : Family} (hcheck : decodeCheck s = .ok fam) :
    1 ≤ s.regs.descriptor.widthSum := (generalFault_false (descriptor_checks hcheck).1).2.2

section
variable {s t : State} {o : RgbOrder} (hcheck : decodeCheck s = .ok (.rgb o))
include hcheck

/-- DECODE's groups fill the image. -/
theorem groupCount_le_pixels : groupCount (selectPath false s.regs.descriptor) s.regs.descriptor s.regs.inLen.toNat ≤
    (decodedImage s (.rgb o)).w * (decodedImage s (.rgb o)).h := by
  obtain ⟨-, -, hwidth, -⟩ := decodeCheck_ok hcheck
  exact le_mul_ceilDiv _ _ hwidth

variable (hdecoded : Decoded s t (.rgb o))
include hdecoded

/-- The groups of the whole region are DECODE's, those beyond being 0. -/
theorem wholeGroups_getD (g : Nat) {j : Nat} (hj : j < s.regs.descriptor.compCount) :
    ((wholeGroups s t o).getD g []).getD j 0 = paddedComp s false g j := by
  by_cases hg : g < (decodedImage s (.rgb o)).h * (decodedImage s (.rgb o)).w
  · obtain ⟨r, c, hr, hc, rfl⟩ := exists_rowMajor hg
    exact (congrArg (List.getD · j 0) (region_zero_getD _ [] hr hc)).trans
      (regionComps_wholeRegion hcheck hdecoded hr hc hj _)
  · rw [Nat.mul_comm, Nat.not_lt] at hg
    have hbeyond : ¬ g < groupCount (selectPath false s.regs.descriptor) s.regs.descriptor s.regs.inLen.toNat :=
      Nat.not_lt.2 (Nat.le_trans (groupCount_le_pixels hcheck) hg)
    rw [List.getD_eq_default (wholeGroups s t o) _ (by rwa [wholeGroups_length])]
    exact (if_neg hbeyond).symm

/-- A chunk of the whole region's groups is the number of the bytes the groups were read from. -/
theorem encodeChunk_wholeGroups (hpath : selectPath false s.regs.descriptor = .subbyte) (c : Nat) :
    encodeChunk s.regs.descriptor (wholeGroups s t o) c =
      numE (order s) (window (decodeBuffer s) (c * chunkBytes s.regs.descriptor) (chunkBytes s.regs.descriptor)) := by
  have hsum := widthSum_pos_of_decodeCheck hcheck
  have hchunk : numE (order s) (window (decodeBuffer s) (c * chunkBytes s.regs.descriptor)
      (chunkBytes s.regs.descriptor)) <
        2 ^ fieldOffset s.regs.descriptor (chunkGroups s.regs.descriptor * s.regs.descriptor.compCount) := by
    have hlt := numE_lt (order s) _ (window_lt (by decide) (decodeBuffer_lt s) (c * chunkBytes s.regs.descriptor)
      (chunkBytes s.regs.descriptor))
    rwa [window_length, show 256 = 2 ^ 8 from rfl, ← Nat.pow_mul, ← fieldOffset_chunk hsum] at hlt
  rw [encodeChunk_eq_packFields hsum,
    ← packFields_fields (fieldOffset_succ hsum) (fieldOffset_zero _) _ _ hchunk]
  refine packFields_congr _ fun k hk => ?_
  have hj := Nat.mod_lt k (compCount_pos hsum)
  have hgroup : k / s.regs.descriptor.compCount < chunkGroups s.regs.descriptor :=
    (Nat.div_lt_iff_lt_mul (compCount_pos hsum)).2 hk
  rw [groupField, wholeGroups_getD hcheck hdecoded _ hj, paddedComp_eq_subbyteComp hpath hsum]
  simp only [subbyteComp, rowMajor_div hgroup, rowMajor_mod hgroup]
  rw [bitsBelow_eq hsum _ hj, Nat.div_add_mod', Nat.shiftRight_eq_div_pow]
  rfl

end

/-- Settles O46: a lane encoded again is the bytes it was read from. -/
theorem laneCropRestoresInput : Obligations.LaneCropRestoresInput := by
  intro s t o lb hwf hcheck hpath hreverse hfits hexec img len hfit
  have hdecoded := decoded_of_exec hcheck hfits hexec
  have hheight := decodedImage_rgb_h_lt hwf hcheck hfits
  have hcell : 0 < img.desc.compCount * lb :=
    Nat.mul_pos (compCount_pos (widthSum_pos_of_decodeCheck hcheck)) (lane_pos hpath)
  have hlen : img.h * img.w * (img.desc.compCount * lb) = len := by simp only [len]; ring
  have hcount (i j : Nat) : (regionComps (wholeRegion t img.h) img i j).length = img.desc.compCount := List.length_map ..
  have hlanes (i j : Nat) : ((regionComps (wholeRegion t img.h) img i j).flatMap fun v =>
      laneEncode v lb (order s)).length = img.desc.compCount * lb := by rw [flatMap_laneEncode_length, hcount]
  have hbytes := regionBytes_wholeRegion_rgb hdecoded hheight
  rw [encodeGroups_lane hpath, wholeGroups, flatMap_region] at hbytes
  obtain ⟨u, hcrop, hregs, hout⟩ := execCropToRaw_restores (len := len) hdecoded hheight hbytes
    ((flatten_region_length _ _ hlanes).trans hlen) hfit hreverse fun a ha => by
      rw [← hlen] at ha
      obtain ⟨g, p, hg, hp, rfl⟩ := exists_rowMajor ha
      obtain ⟨i, j, hi, hj, rfl⟩ := exists_rowMajor hg
      obtain ⟨q, b, hq, hb, rfl⟩ := exists_rowMajor hp
      refine (flatten_region_getD 0 hlanes hi hj hp).trans ?_
      rw [flatMap_laneEncode_getD _ _ (by rwa [hcount]) hb, regionComps_wholeRegion hcheck hdecoded hi hj hq,
        paddedComp_eq_lane hpath hcell, laneEncode_numE_decodeBuffer _ _ _ hb, Nat.add_assoc]
      rfl
  refine ⟨u, hcrop, ?_, hregs, hout⟩
  have hgroups := groupCount_le_pixels hcheck
  rw [hpath] at hgroups
  calc s.regs.inLen.toNat
    _ ≤ img.desc.compCount * lb * ceilDiv s.regs.inLen.toNat (img.desc.compCount * lb) := le_mul_ceilDiv _ _ hcell
    _ ≤ img.desc.compCount * lb * (img.w * img.h) := Nat.mul_le_mul_left _ hgroups
    _ = len := (Nat.mul_assoc ..).symm

/-- Settles O47: a chunk's components packed again are the chunk they were read from. -/
theorem subbyteCropRestoresInput : Obligations.SubbyteCropRestoresInput := by
  intro s t o hwf hcheck hpath hreverse hfits hexec img t8 len hfit
  have hdecoded := decoded_of_exec hcheck hfits hexec
  have hheight := decodedImage_rgb_h_lt hwf hcheck hfits
  have hsum := widthSum_pos_of_decodeCheck hcheck
  have hbytes := regionBytes_wholeRegion_rgb hdecoded hheight
  rw [encodeGroups_subbyte hpath] at hbytes
  have hlen := subbyteEncode_length s.regs.descriptor (order s) (wholeGroups s t o)
  rw [wholeGroups_length] at hlen
  obtain ⟨u, hcrop, hregs, hout⟩ := execCropToRaw_restores (len := len) hdecoded hheight hbytes hlen hfit hreverse
    fun a ha => by
      obtain ⟨c, b, hc, hb, rfl⟩ := exists_rowMajor ha
      refine (subbyteEncode_getD s.regs.descriptor _ _ (by rwa [wholeGroups_length]) hb).trans ?_
      rw [encodeChunk_wholeGroups hcheck hdecoded hpath]
      exact laneEncode_numE_decodeBuffer _ _ _ hb
  refine ⟨u, hcrop, ?_, hregs, hout⟩
  have hgroups := groupCount_le_pixels hcheck
  rw [hpath, groupCount] at hgroups
  have hpixels := le_mul_ceilDiv (img.w * img.h) _ (chunkGroups_pos hsum)
  rw [Nat.mul_comm (chunkGroups _)] at hpixels
  have hchunks := Nat.le_of_mul_le_mul_right (Nat.le_trans hgroups hpixels) (chunkGroups_pos hsum)
  calc s.regs.inLen.toNat
    _ ≤ chunkBytes s.regs.descriptor * ceilDiv s.regs.inLen.toNat (chunkBytes s.regs.descriptor) :=
        le_mul_ceilDiv _ _ (chunkBytes_pos hsum)
    _ ≤ chunkBytes s.regs.descriptor * ceilDiv (img.w * img.h) (chunkGroups s.regs.descriptor) :=
        Nat.mul_le_mul_left _ hchunks
    _ = len := Nat.mul_comm _ _

end Sys2Proof.Machine
end

section
/-! CROP_TO_RAW of the whole of an even YUV image gives its bytes back (43_yuv R238–R240). -/

namespace Sys2Proof.Machine

open Sys2Proof.Claims

/-! Row-major parts of a list of bytes are windows of it. -/

theorem window_append (xs : List Nat) (a k m : Nat) : window xs a k ++ window xs (a + k) m = window xs a (k + m) := by
  simp [window, List.range_add, Nat.add_assoc]

theorem flatMap_window (xs : List Nat) (a m n : Nat) :
    ((List.range n).flatMap fun k => window xs (a + k * m) m) = window xs a (n * m) := by
  induction n with
  | zero => simp [window]
  | succ n ih => rw [List.range_succ, List.flatMap_append, ih, List.flatMap_singleton, window_append, Nat.succ_mul]

/-- A region depends only on its own cells. -/
theorem region_zero_congr {α : Type} {h w : Nat} {f g : Nat → Nat → α} (hfg : ∀ i j, j < w → f i j = g i j) :
    region 0 h 0 w f = region 0 h 0 w g := by
  rw [region_zero_eq_map, region_zero_eq_map]
  refine List.map_congr_left fun k hk => hfg _ _ ?_
  obtain ⟨i, j, -, hj, rfl⟩ := exists_rowMajor (List.mem_range.1 hk)
  exact Nat.mod_lt _ (Nat.zero_lt_of_lt hj)

section
variable {xs : List Nat} {a h w : Nat}

theorem region_eq_window {f : Nat → Nat → Nat} (hf : ∀ i j, j < w → f i j = xs.getD (a + (i * w + j)) 0) :
    region 0 h 0 w f = window xs a (h * w) := by
  simp only [region_zero_congr hf, region_zero_eq_map, Nat.div_add_mod']
  rfl

theorem flatten_region_eq_window {f : Nat → Nat → List Nat} {m : Nat}
    (hf : ∀ i j, j < w → f i j = window xs (a + (i * w + j) * m) m) :
    (region 0 h 0 w f).flatten = window xs a (h * w * m) := by
  simp only [region_zero_congr hf, region_zero_eq_map, Nat.div_add_mod']
  rw [← List.flatMap_def, flatMap_window]

theorem chromaPlanes_eq_window {ch : Nat → Nat → Nat × Nat} (hch : ∀ i j, j < w →
    ch i j = (xs.getD (a + (i * w + j)) 0, xs.getD (a + h * w + (i * w + j)) 0)) :
    chromaPlanes h w ch = window xs a (2 * (h * w)) := by
  rw [chromaPlanes, region_eq_window fun i j hj => congrArg Prod.fst (hch i j hj),
    region_eq_window fun i j hj => congrArg Prod.snd (hch i j hj), window_append, Nat.two_mul]

theorem chromaPairs_eq_window {ch : Nat → Nat → Nat × Nat} (hch : ∀ i j, j < w →
    ch i j = (xs.getD (a + (i * w + j) * 2) 0, xs.getD (a + (i * w + j) * 2 + 1) 0)) :
    chromaPairs h w ch = window xs a (2 * (h * w)) := by
  have hcell (i j : Nat) (hj : j < w) : [(ch i j).1, (ch i j).2] = window xs (a + (i * w + j) * 2) 2 := by
    rw [hch i j hj]
    rfl
  rw [chromaPairs, flatten_region_eq_window hcell, Nat.mul_comm]

end

/-- A packed group of four bytes' samples is those bytes (43_yuv R229). -/
theorem packedGroup_packedPlaces (o : PackedOrder) (f : Nat → Nat) :
    packedGroup o (f (packedPlaces o).1) (f (packedPlaces o).2.1) (f (packedPlaces o).2.2.1)
      (f (packedPlaces o).2.2.2) = (List.range 4).map f := by
  cases o <;> rfl

/-! The whole region of an image of even width, of even height for 4:2:0. -/

/-- The bytes of `h` rows of `w` pixels (43_yuv R223). -/
def yuvLen (y : YuvFamily) (h w : Nat) : Nat := if is420 y then w * h + w * h / 2 else 2 * w * h

theorem yuvLen_420 {y : YuvFamily} (hy : is420 y = true) (h w : Nat) : yuvLen y (2 * h) w = w * (3 * h) := by
  rw [yuvLen, if_pos hy, Nat.mul_left_comm, Nat.mul_div_cancel_left _ (by decide)]
  ring

theorem yuvLen_422 {y : YuvFamily} (hy : is420 y = false) (h w : Nat) : yuvLen y h w = 2 * w * h := by
  rw [yuvLen, hy]
  rfl

theorem le_yuvLen (y : YuvFamily) (h : Nat) {w : Nat} (hw : 1 ≤ w) : h ≤ yuvLen y h w := by
  have hrow : h ≤ w * h := Nat.le_mul_of_pos_left _ hw
  have htwo : 2 * w * h = 2 * (w * h) := Nat.mul_assoc ..
  unfold yuvLen
  split <;> omega

/-- Luma and the two chroma planes of a 4:2:0 image of even sizes. -/
theorem yuvLen_whole_420 {y : YuvFamily} (hy : is420 y = true) {hf wf h w : Nat} (hw : wf = 2 * w) (hh : hf = 2 * h) :
    yuvLen y hf wf = hf * wf + 2 * (h * w) := by
  rw [hh, yuvLen_420 hy, hw]
  ring

theorem ceilDiv_two {x h : Nat} (hx : x = 2 * h) : ceilDiv x 2 = h := by rw [hx, ceilDiv_mul_self _ _ (by decide)]

/-- DECODE finds the height of an unpadded image from its bytes, and stores as many elements (43_yuv R220–R222). -/
theorem yuvSize_yuvLen {y : YuvFamily} {h w : Nat} (hw : 1 ≤ w) (hheight : is420 y = true → h % 2 = 0) :
    yuvSize y (yuvLen y h w) w = (h, yuvLen y h w) := by
  by_cases hy : is420 y = true
  · obtain ⟨k, rfl⟩ : ∃ k, h = 2 * k := ⟨h / 2, by have := hheight hy; omega⟩
    simp only [yuvSize, hy, if_true, yuvLen_420 hy, ceilDiv_mul_self _ _ hw, Nat.mul_left_comm 2 3,
      ceilDiv_mul_self _ 3 (by decide)]
  · simp only [yuvSize, hy, Bool.false_eq_true, if_false, yuvLen_422 (Bool.eq_false_of_not_eq_true hy),
      ceilDiv_mul_self _ _ (show 1 ≤ 2 * w by omega)]

section
variable {s : State} {img : Image} (hrow0 : s.regs.row0.toNat = 0) (hrow1 : s.regs.row1.toNat = img.h)
  (hcol0 : s.regs.col0.toNat = 0) (hcol1 : s.regs.col1.toNat = img.w) {w : Nat} (hw : img.w = 2 * w)
include hrow0 hcol0

theorem regionLuma_whole {y : YuvFamily} (hplanar : ∀ o, y ≠ .packed422 o) {i j : Nat} (hj : j < img.w) :
    regionLuma s img y i j = (imageData s img).getD (0 + (i * img.w + j)) 0 := by
  rw [regionLuma, hrow0, hcol0, Nat.zero_add, Nat.zero_add, Nat.zero_add, ← paddedView_luma _ hj]
  cases y with
  | packed422 o => exact absurd rfl (hplanar o)
  | semi420 o => rfl
  | planar420 o => rfl
  | planar422 o => rfl

theorem regionLuma_append_window {y : YuvFamily} (hplanar : ∀ o, y ≠ .packed422 o) (m : Nat) :
    region 0 img.h 0 img.w (regionLuma s img y) ++ window (imageData s img) (img.h * img.w) m =
      window (imageData s img) 0 (img.h * img.w + m) := by
  rw [region_eq_window fun i j hj => regionLuma_whole hrow0 hcol0 hplanar hj, ← window_append, Nat.zero_add]

include hw

theorem regionChroma_semi420_whole {o : PlaneOrder} {h : Nat} (hh : img.h = 2 * h) {i j : Nat} (hj : j < w) :
    let base := img.h * img.w + (i * w + j) * 2
    regionChroma s img (.semi420 o) (2 * i) (2 * j) =
      ((imageData s img).getD base 0, (imageData s img).getD (base + 1) 0) := by
  have hbyte := paddedView_of_even (w := img.w) (by omega) (by omega) (imageData s img)
  have hbase : img.h * img.w + i * img.w + 2 * j = img.h * img.w + (i * w + j) * 2 := by rw [hw]; ring
  simp only [regionChroma, hrow0, hcol0, Nat.zero_add, chroma, hbyte, padEven_of_even (x := img.w) (by omega),
    padEven_of_even (x := img.h) (by omega), Nat.mul_div_cancel_left _ (show 0 < 2 by decide), hbase]

theorem regionChroma_planar420_whole {o : PlaneOrder} {h : Nat} (hh : img.h = 2 * h) {i j : Nat} (hj : j < w) :
    regionChroma s img (.planar420 o) (2 * i) (2 * j) =
      ((imageData s img).getD (img.h * img.w + (i * w + j)) 0,
        (imageData s img).getD (img.h * img.w + h * w + (i * w + j)) 0) := by
  have hbyte := paddedView_of_even (w := img.w) (by omega) (by omega) (imageData s img)
  have hhalfw : img.w / 2 = w := by omega
  have hhalfh : img.h / 2 = h := by omega
  simp only [regionChroma, hrow0, hcol0, Nat.zero_add, chroma, hbyte, padEven_of_even (x := img.w) (by omega),
    padEven_of_even (x := img.h) (by omega), Nat.mul_div_cancel_left _ (show 0 < 2 by decide), hhalfw, hhalfh]

theorem regionChroma_planar422_whole {o : PlaneOrder} {i j : Nat} (hj : j < w) :
    regionChroma s img (.planar422 o) i (2 * j) =
      ((imageData s img).getD (img.h * img.w + (i * w + j)) 0,
        (imageData s img).getD (img.h * img.w + img.h * w + (i * w + j)) 0) := by
  have hbyte := paddedView_of_even (w := img.w) (by omega) (by omega) (imageData s img)
  have hhalfw : img.w / 2 = w := by omega
  simp only [regionChroma, hrow0, hcol0, Nat.zero_add, chroma, hbyte, padEven_of_even (x := img.w) (by omega),
    Nat.mul_div_cancel_left _ (show 0 < 2 by decide), hhalfw]

include hcol1

theorem regionGroup_whole {o : PackedOrder} {i j : Nat} (hj : j < w) :
    regionGroup s img o i j = window (imageData s img) (0 + (i * w + j) * 4) 4 := by
  have hbyte {p : Nat} (hp : p < 4) : packedView (imageData s img) img.w i (4 * j + p) =
      (imageData s img).getD (0 + (i * w + j) * 4 + p) 0 := by
    rw [packedView_of_lt (by omega), hw]
    congr 1
    ring
  obtain ⟨hy0, hu, hy1, hv⟩ := packedPlaces_lt o
  have hpair : 2 * j + 1 < img.w := by omega
  have hodd : (2 * j + 1) / 2 = j := by omega
  simp only [regionGroup, regionPairChroma, regionSecondLuma, regionLuma, hrow0, hcol0, hcol1, Nat.zero_add, hpair,
    if_true, lumaAt, chromaAt, Nat.mul_div_cancel_left _ (show 0 < 2 by decide), hodd, Nat.mul_mod_right,
    Nat.mul_add_mod, Nat.reduceMod, Nat.one_ne_zero, if_false, hbyte hy0, hbyte hu, hbyte hy1, hbyte hv]
  exact packedGroup_packedPlaces o fun p => (imageData s img).getD ((i * w + j) * 4 + p) 0

include hrow1

/-- The whole region of an unpadded image is the image's bytes (43_yuv R238–R240). -/
theorem regionBytes_whole_yuv {y : YuvFamily} (hfam : img.family = .yuv y) (hheight : is420 y = true → img.h % 2 = 0) :
    regionBytes s img = window (imageData s img) 0 (yuvLen y img.h img.w) := by
  have hrows (h420 : is420 y = true) : img.h = 2 * (img.h / 2) := by
    have heven := hheight h420
    omega
  cases y with
  | packed422 o =>
    rw [regionBytes_packed422 s hfam, hrow0, hrow1, hcol0, hcol1, Nat.sub_zero, Nat.sub_zero, ceilDiv_two hw,
      flatten_region_eq_window fun i j hj => regionGroup_whole hrow0 hcol0 hcol1 hw hj, yuvLen_422 rfl, hw]
    congr 1
    ring
  | semi420 o =>
    have hh := hrows rfl
    rw [regionBytes_semi420 s hfam, hrow0, hrow1, hcol0, hcol1, Nat.sub_zero, Nat.sub_zero, ceilDiv_two hw,
      ceilDiv_two hh, chromaPairs_eq_window fun i j hj => regionChroma_semi420_whole hrow0 hcol0 hw hh hj,
      regionLuma_append_window hrow0 hcol0 (by simp), yuvLen_whole_420 rfl hw hh]
  | planar420 o =>
    have hh := hrows rfl
    rw [regionBytes_planar420 s hfam, hrow0, hrow1, hcol0, hcol1, Nat.sub_zero, Nat.sub_zero, ceilDiv_two hw,
      ceilDiv_two hh, chromaPlanes_eq_window fun i j hj => regionChroma_planar420_whole hrow0 hcol0 hw hh hj,
      regionLuma_append_window hrow0 hcol0 (by simp), yuvLen_whole_420 rfl hw hh]
  | planar422 o =>
    rw [regionBytes_planar422 s hfam, hrow0, hrow1, hcol0, hcol1, Nat.sub_zero, Nat.sub_zero, ceilDiv_two hw,
      chromaPlanes_eq_window fun i j hj => regionChroma_planar422_whole hrow0 hcol0 hw hj,
      regionLuma_append_window hrow0 hcol0 (by simp), yuvLen_422 rfl, hw]
    congr 1
    ring

end

/-- Settles O48: the whole region's bytes are COMP's elements, which are the input's bytes. -/
theorem yuvCropRestoresInput : Obligations.YuvCropRestoresInput := by
  intro s t y h hwf hcheck hreverse n w hw h420 h422 hfits hfit hexec
  have hlen : n = yuvLen y h w := by
    by_cases hy : is420 y = true
    · rw [yuvLen, if_pos hy, (h420 hy).2]
    · rw [yuvLen, if_neg hy, h422 (Bool.eq_false_of_not_eq_true hy)]
  have heven : is420 y = true → h % 2 = 0 := fun hy => (h420 hy).1
  obtain ⟨-, -, hwidth, -⟩ := decodeCheck_ok hcheck
  have hsize : yuvSize y n w = (h, n) := hlen ▸ yuvSize_yuvLen hwidth heven
  have himgh : (decodedImage s (.yuv y)).h = h := congrArg Prod.fst hsize
  have himgl : (decodedImage s (.yuv y)).l = n := congrArg Prod.snd hsize
  have hdecoded := decoded_of_exec hcheck (himgl ▸ hfits) hexec
  have hheight : (decodedImage s (.yuv y)).h < 2 ^ 32 := by
    obtain ⟨-, ⟨-, hcomp⟩, -⟩ := hwf
    have hle : h ≤ n := hlen ▸ le_yuvLen y h hwidth
    omega
  have hbytes := regionBytes_whole_yuv (s := wholeRegion t (decodedImage s (.yuv y)).h) (img := decodedImage s (.yuv y))
    (w := w / 2) rfl (wholeRegion_row1 t hheight) rfl (congrArg (fun g => g.width.toNat) hdecoded.regs)
    (show w = 2 * (w / 2) by omega) rfl (himgh ▸ heven)
  have hcount : yuvLen y (decodedImage s (.yuv y)).h (decodedImage s (.yuv y)).w = n := by rw [himgh, hlen]; rfl
  obtain ⟨u, hcrop, hregs, hout⟩ := execCropToRaw_restores (len := n) hdecoded hheight hbytes
    (by rw [window_length, hcount]) hfit hreverse fun a ha => by
      rw [window_getD, hcount, if_pos ha, Nat.zero_add, imageData_getD, himgl, if_pos ha]
      rw [← himgl] at ha
      exact (hdecoded.elems a ha).trans (decodedComp_yuv_getD ha)
  rw [himgh] at hcrop
  refine ⟨u, hcrop, hregs, fun i hi => ?_⟩
  rw [hout i hi, if_pos hi]

end Sys2Proof.Machine
end
